-- ==== Sys2Proof/Word.lean ====
section
/-! DEFINITION. The word and byte types of the QFC block (00_scope.md R8 REG_WIDTH, R9, R12). -/

namespace Sys2Proof

/-- A register or bus word: 32 bits (R8, R83). -/
abbrev Word := BitVec 32

/-- One payload byte (R12). -/
abbrev Byte := BitVec 8

end Sys2Proof
end

