-- ==== Sys2Proof/Config.lean ====
section
/-! DEFINITION. The model arguments the spec leaves to the implementation or the platform (00_scope.md R8, 20_memory.md R82). -/

namespace Sys2Proof

/-- WRPTR_MODE: whether the cache write pointer persists across polls (R8, R221). -/
inductive WrptrMode where
  /-- A 2-bit pointer persists across polls: frame k since reset goes to slot k mod 4. -/
  | cyclic
  /-- Each POLL writes its i-th frame to slot i. -/
  | restart
  deriving DecidableEq, Repr

/-- The block's open parameters. They stand in State, so that a statement about every state covers
every value of them; no step changes them. -/
structure Params where
  /-- WRPTR_MODE. -/
  wrptrMode : WrptrMode
  /-- The 256-byte page of the host's address space that holds the register window: QFC_BASE is
  256 times it. DEDUCED (log 6): the block decodes only the low 8 bits of an address and the window
  is `QFC_BASE + off`, so QFC_BASE is a multiple of 256. -/
  qfcPage : Nat
  deriving DecidableEq, Repr

/-- QFC_BASE, where the register window sits in the host's address space (R82). -/
def Params.qfcBase (p : Params) : Nat := 256 * p.qfcPage

/-- The spec's default mode (R8); window page 0 (DESIGN CHOICE, log 6). -/
def Params.default : Params where
  wrptrMode := .cyclic
  qfcPage := 0

end Sys2Proof
end

