-- ==== Sys2Proof/Syntax.lean ====
section
/-! DEFINITION. The 30 commands (30_encoding.md R112, R113, R117), the registers of the window
(20_memory.md R80), frames (00_scope.md R12), and the bus transactions and other events that
reach the block (00_scope.md R15). -/

namespace Sys2Proof

/-- One constructor per legal command word (R117, spec/opcode_table.json). A command has no operand
but the SEL value that its name says. -/
inductive Instr where
  | nop
  | quantPos
  | quantVel
  | quantKp
  | quantKd
  | quantTor
  | quantGen
  | dequantPos
  | dequantVel
  | dequantKp
  | dequantKd
  | dequantTor
  | dequantGen
  | pack
  | sentEnter
  | sentStop
  | sentRezero
  | unpackIf
  | unpackOf
  | poll
  | rdslot0
  | rdslot1
  | rdslot2
  | rdslot3
  | find
  | onslot0
  | onslot1
  | onslot2
  | onslot3
  | onid
  deriving DecidableEq, Repr

/-- The registers of the window, in the order of R80's map. -/
inductive Reg where
  | cmd
  | status
  | arg0
  | arg1
  | arg2
  | arg3
  | arg4
  | argId
  | argTmo
  | qres
  | dres
  | tsres
  | ifId
  | ifCtl
  | ifD0
  | ifD1
  | ofId
  | ofCtl
  | ofD0
  | ofD1
  | telPos
  | telVel
  | telTor
  | telRaw0
  | telRaw1
  | time
  deriving DecidableEq, Repr

/-- The 8 payload bytes D[0..7] of a frame (R12). -/
structure Payload where
  b0 : Byte
  b1 : Byte
  b2 : Byte
  b3 : Byte
  b4 : Byte
  b5 : Byte
  b6 : Byte
  b7 : Byte
  deriving DecidableEq, Repr

/-- A bus frame (R12). LEN is 0..8 by its type: "The transport guarantees LEN is in 0..8" (R50, log 17). -/
structure Frame where
  id : BitVec 29
  ext : Bool
  rtr : Bool
  len : Fin 9
  d : Payload
  deriving DecidableEq, Repr

/-- The payload of zeros. -/
def Payload.zero : Payload := ⟨0, 0, 0, 0, 0, 0, 0, 0⟩

/-- ZERO_FRAME, the frame with every field 0 (R12). -/
def Frame.zero : Frame := ⟨0, false, false, 0, Payload.zero⟩

/-- A host bus access (R10): an address in the host's address space, a width in bytes, and for a write
the word written. -/
inductive Access where
  | read (addr width : Nat)
  | write (addr width : Nat) (v : Word)
  deriving DecidableEq, Repr

/-- What reaches the block from outside, one event a step (R15, R310, log 2). -/
inductive Event where
  /-- The host's next bus access. -/
  | access (a : Access)
  /-- The time source drives a new value on NOW (R51). -/
  | time (v : Word)
  /-- The transport settles one more answer of the RX port: none or a frame (R50). -/
  | receive (r : Option Frame)
  /-- The hardware reset (R310). -/
  | reset
  deriving DecidableEq, Repr

/-- The host-bus response to an access: a write is accepted, a read returns a word. A refused access
(BusError) ends the run (R286). -/
inductive BusResponse where
  | none
  | accepted
  | data (w : Word)
  deriving DecidableEq, Repr

end Sys2Proof
end

