-- ==== Sys2Proof/WellFormed.lean ====
section
/-! DEFINITION. What the spec calls legal: command words (30_encoding.md R113, R115), host accesses
(20_memory.md R83) and the list of the legal words (R117). The machine does not call these checks;
statements compare it with them. -/

namespace Sys2Proof

/-- LEGAL_SEL(op), the table of R113. -/
def legalSel (op sel : BitVec 4) : Bool :=
  if op = 0x1 || op = 0x2 then sel ≤ 4 || sel == 0xF
  else if op = 0x4 then sel ≤ 2
  else if op = 0x5 then sel ≤ 1
  else if op = 0x7 || op = 0x9 then sel ≤ 3
  else sel == 0

/-- RSV = CMD[23:0] is 0 (R110). -/
def CommandWord.rsvZero (w : Word) : Bool := w.extractLsb' 0 24 == 0

/-- OP is one of 0x0 to 0xA (R111). -/
def CommandWord.opLegal (w : Word) : Bool := w.extractLsb' 28 4 ≤ 0xA

/-- SEL is legal for OP (R113). -/
def CommandWord.selLegal (w : Word) : Bool := legalSel (w.extractLsb' 28 4) (w.extractLsb' 24 4)

/-- A legal command word (R115). -/
def CommandWord.wf (w : Word) : Bool :=
  CommandWord.rsvZero w && CommandWord.opLegal w && CommandWord.selLegal w

/-- The legal words as R117 lists them. -/
def Instr.listedWord : Instr → Word
  | .nop => 0x00000000
  | .quantPos => 0x10000000
  | .quantVel => 0x11000000
  | .quantKp => 0x12000000
  | .quantKd => 0x13000000
  | .quantTor => 0x14000000
  | .quantGen => 0x1F000000
  | .dequantPos => 0x20000000
  | .dequantVel => 0x21000000
  | .dequantKp => 0x22000000
  | .dequantKd => 0x23000000
  | .dequantTor => 0x24000000
  | .dequantGen => 0x2F000000
  | .pack => 0x30000000
  | .sentEnter => 0x40000000
  | .sentStop => 0x41000000
  | .sentRezero => 0x42000000
  | .unpackIf => 0x50000000
  | .unpackOf => 0x51000000
  | .poll => 0x60000000
  | .rdslot0 => 0x70000000
  | .rdslot1 => 0x71000000
  | .rdslot2 => 0x72000000
  | .rdslot3 => 0x73000000
  | .find => 0x80000000
  | .onslot0 => 0x90000000
  | .onslot1 => 0x91000000
  | .onslot2 => 0x92000000
  | .onslot3 => 0x93000000
  | .onid => 0xA0000000

/-- A well-formed instruction: its word is legal. An instruction has no operand, so every one is
(R114: the only field in the command word is SEL). -/
def Instr.wf (i : Instr) : Bool := CommandWord.wf i.listedWord

/-- The address of an access. -/
def Access.addr : Access → Nat
  | .read a _ => a
  | .write a _ _ => a

/-- The width of an access in bytes. -/
def Access.width : Access → Nat
  | .read _ n => n
  | .write _ n _ => n

/-- The access lies in the window at QFC_BASE (R80, R82). -/
def Access.inWindow (p : Params) (a : Access) : Bool :=
  p.qfcBase ≤ a.addr && a.addr < p.qfcBase + 256

/-- The access is 32 bits wide (R83). -/
def Access.widthOk (a : Access) : Bool := a.width == 4

/-- The offset in the window is a multiple of 4 (R83). -/
def Access.aligned (p : Params) (a : Access) : Bool := (a.addr - p.qfcBase) % 4 == 0

/-- The offset in the window is that of a register: at most 0x64 (R83). -/
def Access.mapped (p : Params) (a : Access) : Bool := a.addr - p.qfcBase ≤ 0x64

/-- A legal access of the block (R83). -/
def Access.wf (p : Params) (a : Access) : Bool :=
  a.inWindow p && a.widthOk && a.aligned p && a.mapped p

end Sys2Proof
end

