-- ==== Sys2Proof/Decode.lean ====
section
/-! DEFINITION. The command decoder, total on every 32-bit word (30_encoding.md R110 to R116), and
the encoder beside it. -/

namespace Sys2Proof

/-- Why a command word selects no command (R111). The host-visible codes are R280's. -/
inductive DecodeError where
  /-- RSV is not 0, or OP is 0xB to 0xF. -/
  | illegal
  /-- SEL is not legal for OP. -/
  | badsel
  deriving DecidableEq, Repr

/-- OP, bits [31:28] (R110). -/
def opField (w : Word) : BitVec 4 := w.extractLsb' 28 4

/-- SEL, bits [27:24] (R110). -/
def selField (w : Word) : BitVec 4 := w.extractLsb' 24 4

/-- RSV, bits [23:0] (R110). -/
def rsvField (w : Word) : BitVec 24 := w.extractLsb' 0 24

/-- The opcode map and the SEL table together (R112, R113). -/
def commandOf : (op sel : Nat) → Option Instr
  | 0x0, 0 => some .nop
  | 0x1, 0 => some .quantPos
  | 0x1, 1 => some .quantVel
  | 0x1, 2 => some .quantKp
  | 0x1, 3 => some .quantKd
  | 0x1, 4 => some .quantTor
  | 0x1, 0xF => some .quantGen
  | 0x2, 0 => some .dequantPos
  | 0x2, 1 => some .dequantVel
  | 0x2, 2 => some .dequantKp
  | 0x2, 3 => some .dequantKd
  | 0x2, 4 => some .dequantTor
  | 0x2, 0xF => some .dequantGen
  | 0x3, 0 => some .pack
  | 0x4, 0 => some .sentEnter
  | 0x4, 1 => some .sentStop
  | 0x4, 2 => some .sentRezero
  | 0x5, 0 => some .unpackIf
  | 0x5, 1 => some .unpackOf
  | 0x6, 0 => some .poll
  | 0x7, 0 => some .rdslot0
  | 0x7, 1 => some .rdslot1
  | 0x7, 2 => some .rdslot2
  | 0x7, 3 => some .rdslot3
  | 0x8, 0 => some .find
  | 0x9, 0 => some .onslot0
  | 0x9, 1 => some .onslot1
  | 0x9, 2 => some .onslot2
  | 0x9, 3 => some .onslot3
  | 0xA, 0 => some .onid
  | _, _ => none

/-- Decoding a word written to CMD, its checks in R111's order. -/
def decode (w : Word) : Except DecodeError Instr :=
  if rsvField w ≠ 0 then .error .illegal
  else if 0xA < opField w then .error .illegal
  else
    match commandOf (opField w).toNat (selField w).toNat with
    | some i => .ok i
    | none => .error .badsel

/-- The OP of a command (R112). -/
def Instr.op : Instr → BitVec 4
  | .nop => 0x0
  | .quantPos | .quantVel | .quantKp | .quantKd | .quantTor | .quantGen => 0x1
  | .dequantPos | .dequantVel | .dequantKp | .dequantKd | .dequantTor | .dequantGen => 0x2
  | .pack => 0x3
  | .sentEnter | .sentStop | .sentRezero => 0x4
  | .unpackIf | .unpackOf => 0x5
  | .poll => 0x6
  | .rdslot0 | .rdslot1 | .rdslot2 | .rdslot3 => 0x7
  | .find => 0x8
  | .onslot0 | .onslot1 | .onslot2 | .onslot3 => 0x9
  | .onid => 0xA

/-- The SEL of a command (R113). -/
def Instr.sel : Instr → BitVec 4
  | .nop | .pack | .poll | .find | .onid => 0
  | .quantPos | .dequantPos => 0
  | .quantVel | .dequantVel => 1
  | .quantKp | .dequantKp => 2
  | .quantKd | .dequantKd => 3
  | .quantTor | .dequantTor => 4
  | .quantGen | .dequantGen => 0xF
  | .sentEnter => 0
  | .sentStop => 1
  | .sentRezero => 2
  | .unpackIf => 0
  | .unpackOf => 1
  | .rdslot0 | .onslot0 => 0
  | .rdslot1 | .onslot1 => 1
  | .rdslot2 | .onslot2 => 2
  | .rdslot3 | .onslot3 => 3

/-- The command word of an instruction: OP, SEL and RSV = 0 in R110's places. -/
def encode (i : Instr) : Word := i.op ++ i.sel ++ 0#24

/-- The instruction the decoder reads from a table row's bits, which are one 32-bit word; bits above
`nbits` are 0. -/
def decodeTableWord (nbits w : Nat) : Option Instr :=
  match decode (BitVec.ofNat 32 (w % 2 ^ nbits)) with
  | .ok i => some i
  | .error _ => none

end Sys2Proof
end

