-- ==== Sys2Proof/Machine/State.lean ====
section
/-! DEFINITION. The state of the block (10_state.md R30 to R52), its reset (70_reset_and_hazards.md
R310), and the reasons a step can stop. A register with reserved bits is held as its fields, so its
reserved bits read 0 in every state (log 16). -/

namespace Sys2Proof.Machine

open Sys2Proof

/-- The error codes of STATUS.ERR that the block produces (R280). Codes 10 to 15 are never produced. -/
inductive Err where
  | none
  | illegal
  | badsel
  | nonfinite
  | outrange
  | badwidth
  | badspan
  | badcode
  | length
  | badid
  deriving DecidableEq, Repr

/-- The stored fields of STATUS (R34). WRPTR and VALID are live views and not stored here. -/
structure Status where
  err : Err
  found : Bool
  online : Bool
  pcount : BitVec 3
  sticky : Bool
  telv : Bool
  deriving DecidableEq, Repr

/-- ARGID (R37): [28:0] ID and [31] EXT. -/
structure ArgId where
  id : BitVec 29
  ext : Bool
  deriving DecidableEq, Repr

/-- The four registers of a frame, IF_* or OF_* (R42, R43): *_ID [28:0]; *_CTL LEN [3:0], EXT [4],
RTR [5]; *_D0 and *_D1. -/
structure FrameRegs where
  id : BitVec 29
  len : BitVec 4
  ext : Bool
  rtr : Bool
  d0 : Word
  d1 : Word
  deriving DecidableEq, Repr

/-- The telemetry registers (R44, R45): TEL_POS, TEL_VEL, TEL_TOR, and the codes of TEL_RAW0 and TEL_RAW1. -/
structure Telemetry where
  pos : Word
  vel : Word
  tor : Word
  rawPos : BitVec 16
  rawVel : BitVec 12
  rawTor : BitVec 12
  deriving DecidableEq, Repr

/-- A cache slot (R47): a frame, the timestamp of its write, and VALID. -/
structure Slot where
  frame : Frame
  ts : Word
  valid : Bool
  deriving DecidableEq, Repr

/-- The 4 cache slots (R7 N_SLOTS, R47). -/
structure Slots where
  s0 : Slot
  s1 : Slot
  s2 : Slot
  s3 : Slot
  deriving DecidableEq, Repr

/-- The whole machine: the block's state (R30), the parameters and port inputs of its steps, and the
events still to come from outside. Plain data. -/
structure State where
  /-- CMD (R33). -/
  cmd : Word
  /-- STATUS's stored fields (R34). -/
  status : Status
  /-- ARG0 (R36). -/
  arg0 : Word
  /-- ARG1 (R36). -/
  arg1 : Word
  /-- ARG2 (R36). -/
  arg2 : Word
  /-- ARG3 (R36). -/
  arg3 : Word
  /-- ARG4 (R36). -/
  arg4 : Word
  /-- ARGID (R37). -/
  argId : ArgId
  /-- ARGTMO (R38). -/
  argTmo : Word
  /-- QRES [15:0] (R39). -/
  qres : BitVec 16
  /-- DRES (R40). -/
  dres : Word
  /-- TSRES (R41). -/
  tsres : Word
  /-- IF_ID, IF_CTL, IF_D0, IF_D1 (R42). -/
  inFrame : FrameRegs
  /-- OF_ID, OF_CTL, OF_D0, OF_D1 (R43). -/
  outFrame : FrameRegs
  /-- TEL_POS, TEL_VEL, TEL_TOR, TEL_RAW0, TEL_RAW1 (R44, R45). -/
  tel : Telemetry
  /-- slot[0..3] (R47). -/
  slots : Slots
  /-- WRPTR (R48). -/
  wrptr : BitVec 2
  /-- WRPTR_MODE and QFC_BASE (R8, R82). -/
  params : Params
  /-- NOW, the value on the time port (R51). -/
  now : Word
  /-- The answers the RX port will give to the next `tryReceive` calls (R50). -/
  rx : List (Option Frame)
  /-- The model's own: the events still to come, the next one first (log 2). -/
  pending : List Event
  /-- The model's own: the host bus's answer to the last access (log 8). -/
  resp : BusResponse
  deriving DecidableEq, Repr

/-- Why the machine stops. -/
inductive Fault where
  /-- Raised by a host access that R84 refuses, with the offset: its width is not 4 bytes, its offset
  is not a multiple of 4, or no register stands there. Safe: R286 says "The model treats it as a
  fault of the host's run". -/
  | busError (off : Nat)
  deriving DecidableEq, Repr

/-- Why the machine gives no meaning. -/
inductive Refusal where
  /-- Raised by an arm of `exec` whose instruction has no meaning yet; no arm is so. Safe. -/
  | notModelled (mnemonic : String)
  deriving DecidableEq, Repr

/-- A slot at reset: ZERO_FRAME, TS = 0, VALID = 0 (R47). -/
def Slot.empty : Slot := ⟨Frame.zero, 0, false⟩

/-- The frame registers of ZERO_FRAME (R42, R43). -/
def FrameRegs.zero : FrameRegs := ⟨0, 0, false, false, 0, 0⟩

/-- The machine right after reset (R310). NOW and the RX port are "unspecified by the block": 0 and no
answers here (DESIGN CHOICE, log 3, log 4); no event is pending (log 13). -/
def State.reset : State where
  cmd := 0x00000000
  status := ⟨.none, false, false, 0, false, false⟩
  arg0 := 0x00000000
  arg1 := 0x00000000
  arg2 := 0x00000000
  arg3 := 0x00000000
  arg4 := 0x00000000
  argId := ⟨0, false⟩
  argTmo := 0x00000258
  qres := 0x0000
  dres := 0x00000000
  tsres := 0x00000000
  inFrame := FrameRegs.zero
  outFrame := FrameRegs.zero
  tel := ⟨0, 0, 0, 0, 0, 0⟩
  slots := ⟨Slot.empty, Slot.empty, Slot.empty, Slot.empty⟩
  wrptr := 0
  params := Params.default
  now := 0x00000000
  rx := []
  pending := []
  resp := .none

end Sys2Proof.Machine
end

