-- ==== Sys2Proof/Machine/Arith.lean ====
section
/-! DEFINITION. The numeric primitives (00_scope.md R11) and the quantizer's arithmetic
(40_quantizer.md R140 to R153), exact. Every finite binary32 value is an integer multiple of
2^-149, so a value is held as that integer (log 15); Laws and statements relate it to the spec's
rationals. -/

namespace Sys2Proof.Machine

open Sys2Proof

/-- What a binary32 word stands for (R11): NaN, an infinity, or a finite value in units of 2^-149. -/
inductive Value where
  | nan
  | negInf
  | posInf
  | fin (n : Int)
  deriving DecidableEq, Repr

/-- The sign s = w[31] (R11). -/
def signBit (w : Word) : Bool := w.getLsbD 31

/-- The exponent field e = w[30:23] (R11). -/
def expField (w : Word) : Nat := (w.extractLsb' 23 8).toNat

/-- The fraction field f = w[22:0] (R11). -/
def fracField (w : Word) : Nat := (w.extractLsb' 0 23).toNat

/-- |val(w)| in units of 2^-149: f when e = 0, else (2^23 + f) * 2^(e-1) (R11). -/
def magnitude (w : Word) : Nat :=
  if expField w = 0 then fracField w else (2 ^ 23 + fracField w) * 2 ^ (expField w - 1)

/-- val(w) of a finite word, in units of 2^-149 (R11). -/
def finiteVal (w : Word) : Int :=
  if signBit w then -(magnitude w : Int) else (magnitude w : Int)

/-- The reading of a value port's word (R11: isNaN, isInf, isFinite, val). -/
def value (w : Word) : Value :=
  if expField w = 0xFF then
    if fracField w ≠ 0 then .nan else if signBit w then .negInf else .posInf
  else .fin (finiteVal w)

/-- An integer as a value in units of 2^-149. -/
def units (k : Int) : Int := k * 2 ^ 149

/-- The two defined bit widths (R7 WIDTHS, R141). -/
inductive Width where
  | w12
  | w16
  deriving DecidableEq, Repr

/-- The number of bits of a width. -/
def Width.bits : Width → Nat
  | .w12 => 12
  | .w16 => 16

/-- The largest code 2^b - 1 of a width (R140). -/
def Width.maxCode (b : Width) : Nat := 2 ^ b.bits - 1

/-- The width that a word names, if it is one of the two defined (R141). -/
def widthOf (w : Word) : Option Width :=
  if w = 12 then some .w12 else if w = 16 then some .w16 else none

/-- A quantization range: (bits, min, max), the bounds in units of 2^-149 (R140). -/
structure QRange where
  width : Width
  min : Int
  max : Int
  deriving DecidableEq, Repr

/-- The names of the five fixed ranges (R140). -/
inductive RangeName where
  | pos
  | vel
  | kp
  | kd
  | tor
  deriving DecidableEq, Repr

/-- The range ROM RANGE[0..4] (R49, R140). -/
def rangeOf : RangeName → QRange
  | .pos => ⟨.w16, units (-40), units 40⟩
  | .vel => ⟨.w12, units (-50), units 50⟩
  | .kp => ⟨.w12, units 0, units 500⟩
  | .kd => ⟨.w12, units 0, units 5⟩
  | .tor => ⟨.w12, units (-25), units 25⟩

/-- roundHalfUp(num/den) = floor(num/den + 1/2) for den > 0 (R11). -/
def roundHalfUp (num den : Int) : Int := (2 * num + den) / (2 * den)

/-- quantize(v, min, max, b), the rounded Qexact = (v - min) * (2^b - 1) / (max - min) (R142). -/
def quantize (v : Int) (r : QRange) : Int :=
  roundHalfUp ((v - r.min) * (r.width.maxCode : Int)) (r.max - r.min)

/-- The numerator of dequantize(c, min, max, b) over the denominator 2^b - 1, in units of 2^-149 (R146). -/
def dequantizeNum (c : Nat) (r : QRange) : Int :=
  (c : Int) * (r.max - r.min) + r.min * (r.width.maxCode : Int)

/-- a/d rounded to the nearest integer, a tie to the even one. -/
def roundHalfEven (a d : Nat) : Nat :=
  if 2 * (a % d) < d then a / d
  else if d < 2 * (a % d) then a / d + 1
  else a / d + (a / d) % 2

/-- The exponent step of the binary32 grid at a magnitude `t` in units of 2^-149: the spacing there
is 2^gridStep, so that the significand has at most 24 bits. -/
def gridStep (t : Nat) : Nat := Nat.log2 t - 23

/-- The low 31 bits of the binary32 word nearest the magnitude a/d in units of 2^-149. The exponent
and fraction fields follow each other, so a significand that rounds up to 2^24 carries into the
exponent. -/
def rneMagnitude (a d : Nat) : Nat :=
  gridStep (a / d) * 2 ^ 23 + roundHalfEven a (d * 2 ^ gridStep (a / d))

/-- rne32(q) for q = num/den in units of 2^-149 (R11): nearest, ties to the even fraction. Zero gives
+0.0; a nonzero negative q that rounds to magnitude 0 keeps its sign (log 10). A magnitude beyond
the finite range never occurs (R11, log 11). -/
def rne32 (num : Int) (den : Nat) : Word :=
  (if num < 0 then 0x80000000#32 else 0#32) ||| BitVec.ofNat 32 (rneMagnitude num.natAbs den)

/-- rne32(dequantize(c, min, max, b)) (R146, R148). -/
def dequantizeWord (c : Nat) (r : QRange) : Word := rne32 (dequantizeNum c r) r.width.maxCode

/-- clamp(q, lo, hi) (R11, R153): an infinity clamps to its bound; NaN has no place in the order. -/
def clampValue (lo hi : Int) : Value → Option Int
  | .nan => none
  | .negInf => some lo
  | .posInf => some hi
  | .fin n => some (if n < lo then lo else if hi < n then hi else n)

end Sys2Proof.Machine
end

