-- ==== Sys2Proof/Machine/Operands.lean ====
section
/-! DEFINITION. How commands read their operands (30_encoding.md R114): value words, general-form
ranges, identifiers, frames, and the cache comparators (42_cache.md R225, R226). -/

namespace Sys2Proof.Machine

open Sys2Proof

/-- DEFAULT_TIMEOUT, 600 ms (R7). -/
def defaultTimeout : Word := 600

/-- MAX_PER_POLL (R7). -/
def maxPerPoll : Nat := 4

/-- isNaN of a value word (R11). -/
def isNaN (w : Word) : Bool := value w == .nan

/-- The general form's range from ARG1 (min), ARG2 (max) and ARG3 (bits), or the error its checks
raise: NONFINITE, then BADWIDTH, then BADSPAN (R149, R150, R283). -/
def generalRange (s : State) : Except Err QRange :=
  match value s.arg1, value s.arg2 with
  | .fin mn, .fin mx =>
    match widthOf s.arg3 with
    | none => .error .badwidth
    | some b => if mx ≤ mn then .error .badspan else .ok ⟨b, mn, mx⟩
  | _, _ => .error .nonfinite

/-- The code PACK makes of one input word: the quantized clamped value, or none for NaN (R153, R182). -/
def clampedCode (n : RangeName) (w : Word) : Option Int :=
  (clampValue (rangeOf n).min (rangeOf n).max (value w)).map (quantize · (rangeOf n))

/-- The five codes joined as W = (P, V, KP, KD, T) (R181), or none when an input is NaN (R182). -/
def packedPayload (s : State) : Option (BitVec 64) :=
  match clampedCode .pos s.arg0, clampedCode .vel s.arg1, clampedCode .kp s.arg2,
    clampedCode .kd s.arg3, clampedCode .tor s.arg4 with
  | some p, some v, some kp, some kd, some t =>
    some (BitVec.ofInt 16 p ++ BitVec.ofInt 12 v ++ BitVec.ofInt 12 kp ++ BitVec.ofInt 12 kd
      ++ BitVec.ofInt 12 t)
  | _, _, _, _, _ => none

/-- The header check of PACK and SENT: a standard identifier has 11 bits (R183). -/
def headerOk (a : ArgId) : Bool := a.ext || a.id ≤ 0x7FF

/-- The frame registers of a frame the packer builds: ID and EXT from ARGID, RTR 0, LEN 8 (R183). -/
def builtFrame (a : ArgId) (d0 d1 : Word) : FrameRegs where
  id := a.id
  len := 8
  ext := a.ext
  rtr := false
  d0 := d0
  d1 := d1

/-- D[0..3] as a word, D[0] in bits [31:24] (R87). -/
def Payload.word0 (p : Payload) : Word := p.b0 ++ p.b1 ++ p.b2 ++ p.b3

/-- D[4..7] as a word, D[4] in bits [31:24] (R87). -/
def Payload.word1 (p : Payload) : Word := p.b4 ++ p.b5 ++ p.b6 ++ p.b7

/-- A frame in the register layout of OF_* (R43, R87). -/
def regsOfFrame (f : Frame) : FrameRegs where
  id := f.id
  len := BitVec.ofNat 4 f.len.val
  ext := f.ext
  rtr := f.rtr
  d0 := Payload.word0 f.d
  d1 := Payload.word1 f.d

/-- Slot i (R47). -/
def Slots.get (c : Slots) (i : BitVec 2) : Slot :=
  match i.toNat with
  | 0 => c.s0
  | 1 => c.s1
  | 2 => c.s2
  | _ => c.s3

/-- The cache with slot i replaced as a unit (R47, R95). -/
def Slots.set (c : Slots) (i : BitVec 2) (x : Slot) : Slots :=
  match i.toNat with
  | 0 => { c with s0 := x }
  | 1 => { c with s1 := x }
  | 2 => { c with s2 := x }
  | _ => { c with s3 := x }

/-- age(s) = (NOW - TS) mod 2^32 (R225). -/
def age (now : Word) (x : Slot) : Word := now - x.ts

/-- within(s, T): valid, and the age is at most T (R225). -/
def within (now : Word) (x : Slot) (timeout : Word) : Bool := x.valid && age now x ≤ timeout

/-- match(s, q): valid, and the 29-bit ID equals the query (R226). -/
def idMatch (x : Slot) (q : BitVec 29) : Bool := x.valid && x.frame.id == q

/-- The first slot, from index 0 up, that matches a query (R228). -/
def firstMatch (c : Slots) (q : BitVec 29) : Option Slot :=
  if idMatch c.s0 q then some c.s0
  else if idMatch c.s1 q then some c.s1
  else if idMatch c.s2 q then some c.s2
  else if idMatch c.s3 q then some c.s3
  else none

/-- Some slot matches the query and is within the timeout (R234). -/
def anyOnline (now : Word) (c : Slots) (q : BitVec 29) (timeout : Word) : Bool :=
  (idMatch c.s0 q && within now c.s0 timeout) || (idMatch c.s1 q && within now c.s1 timeout)
    || (idMatch c.s2 q && within now c.s2 timeout) || (idMatch c.s3 q && within now c.s3 timeout)

end Sys2Proof.Machine
end

