-- ==== Sys2Proof/Machine/Flags.lean ====
section
/-! DEFINITION. The flags of STATUS (10_state.md R34, R35, R52): their codes, their updates and the
STATUS word. -/

namespace Sys2Proof.Machine

open Sys2Proof

/-- The 4-bit code of an error (R280). -/
def Err.code : Err → BitVec 4
  | .none => 0
  | .illegal => 1
  | .badsel => 2
  | .nonfinite => 3
  | .outrange => 4
  | .badwidth => 5
  | .badspan => 6
  | .badcode => 7
  | .length => 8
  | .badid => 9

/-- STATUS.ERR <- NONE, as every command that completes does (R34). -/
def State.clearErr (s : State) : State := { s with status := { s.status with err := .none } }

/-- STATUS.ERR <- code; STATUS.STICKY <- 1 (R282). -/
def State.setErr (e : Err) (s : State) : State :=
  { s with status := { s.status with err := e, sticky := true } }

/-- STATUS.FOUND <- b, by RDSLOT and FIND (R34). -/
def State.setFound (b : Bool) (s : State) : State := { s with status := { s.status with found := b } }

/-- STATUS.ONLINE <- b, by ONSLOT and ONID (R34). -/
def State.setOnline (b : Bool) (s : State) : State := { s with status := { s.status with online := b } }

/-- STATUS.PCOUNT <- n, by POLL (R34). -/
def State.setPcount (n : Nat) (s : State) : State :=
  { s with status := { s.status with pcount := BitVec.ofNat 3 n } }

/-- STATUS.TELV <- 1, by UNPACK (R34). -/
def State.setTelv (s : State) : State := { s with status := { s.status with telv := true } }

/-- The write of 1 to STATUS bit 15: STICKY <- 0 (R35). -/
def State.clearSticky (s : State) : State := { s with status := { s.status with sticky := false } }

/-- STATUS.WRPTR: the live view of the write pointer, 0 in RESTART mode (R34, R48). -/
def wrptrView (s : State) : BitVec 2 :=
  match s.params.wrptrMode with
  | .cyclic => s.wrptr
  | .restart => 0

/-- STATUS.VALID: bit i is slot[i].VALID (R34). -/
def validView (c : Slots) : BitVec 4 :=
  BitVec.ofBool c.s3.valid ++ BitVec.ofBool c.s2.valid ++ BitVec.ofBool c.s1.valid
    ++ BitVec.ofBool c.s0.valid

/-- The STATUS word (R34): [31:17] 0, [16] TELV, [15] STICKY, [14:11] VALID, [10:9] WRPTR, [8:6]
PCOUNT, [5] ONLINE, [4] FOUND, [3:0] ERR. -/
def statusWord (s : State) : Word :=
  0#15 ++ BitVec.ofBool s.status.telv ++ BitVec.ofBool s.status.sticky ++ validView s.slots
    ++ wrptrView s ++ s.status.pcount ++ BitVec.ofBool s.status.online
    ++ BitVec.ofBool s.status.found ++ s.status.err.code

end Sys2Proof.Machine
end

