-- ==== Sys2Proof/Machine/Ops.lean ====
section
/-! DEFINITION. The operations the commands share: completing, raising an error (60_exceptions.md
R282), the result registers, the RX port and the cache fill (42_cache.md R220), and the hardware
reset (70_reset_and_hazards.md R310). -/

namespace Sys2Proof.Machine

open Sys2Proof

/-- The outcome of a command of this block. -/
abbrev Result := Host.Outcome State Fault Refusal

/-- A command that completes: ERR is NONE (R34). -/
def complete (s : State) : Result := .next s.clearErr

/-- `raise Error(code)`: ERR and STICKY are written and the command has no other effect (R10, R282).
There is no trap and nothing to return from: the host goes on (R285, R287). -/
def raiseError (e : Err) (s : State) : Result := .next (s.setErr e)

/-- The frame registers OF_ID, OF_CTL, OF_D0 and OF_D1, written together (R43). -/
def State.setOut (f : FrameRegs) (s : State) : State := { s with outFrame := f }

/-- QRES[15:0] (R39). -/
def State.setQres (c : BitVec 16) (s : State) : State := { s with qres := c }

/-- DRES (R40). -/
def State.setDres (w : Word) (s : State) : State := { s with dres := w }

/-- TSRES (R41). -/
def State.setTsres (w : Word) (s : State) : State := { s with tsres := w }

/-- The telemetry registers, written together (R44, R45). -/
def State.setTel (t : Telemetry) (s : State) : State := { s with tel := t }

/-- `RX.tryReceive()`: the transport's next answer and the state with it taken; with no answer left
the transport has nothing to deliver (R50, log 4). -/
def tryReceive (s : State) : Option Frame × State :=
  match s.rx with
  | [] => (none, s)
  | r :: rest => (r, { s with rx := rest })

/-- The slot a received frame goes to: WRPTR in CYCLIC mode, the frame's index in this POLL in
RESTART mode (R221). -/
def targetSlot (s : State) (n : Nat) : BitVec 2 :=
  match s.params.wrptrMode with
  | .cyclic => s.wrptr
  | .restart => BitVec.ofNat 2 n

/-- The write pointer after a stored frame: advanced modulo 4 in CYCLIC mode (R48, R220). -/
def nextWrptr (s : State) : BitVec 2 :=
  match s.params.wrptrMode with
  | .cyclic => s.wrptr + 1
  | .restart => s.wrptr

/-- Storing the n-th frame of a POLL with the timestamp t: the slot's frame, TS and VALID are written
as one unit (R95, R220). -/
def storeFrame (t : Word) (n : Nat) (f : Frame) (s : State) : State :=
  { s with
    slots := s.slots.set (targetSlot s n) ⟨f, t, true⟩
    wrptr := nextWrptr s }

/-- POLL's loop: at most `fuel` more receives, `n` frames stored so far; it stops at the first none
(R220, R224). It answers the number of frames stored and the state. -/
def drain (t : Word) : (fuel : Nat) → (n : Nat) → State → Nat × State
  | 0, n, s => (n, s)
  | fuel + 1, n, s =>
    match tryReceive s with
    | (none, s') => (n, s')
    | (some f, s') => drain t fuel (n + 1) (storeFrame t n f s')

/-- A lookup's result: the slot's frame, its timestamp and FOUND = 1, or ZERO_FRAME, 0 and FOUND = 0
(R227, R228). -/
def lookupResult (x : Option Slot) (s : State) : Result :=
  match x with
  | some x => complete (((s.setOut (regsOfFrame x.frame)).setTsres x.ts).setFound true)
  | none => complete (((s.setOut FrameRegs.zero).setTsres 0).setFound false)

/-- The hardware reset: every piece of block state takes its reset value; the parameters, the ports
and the outside's events are not the block's (R310, log 14). -/
def hardwareReset (s : State) : State :=
  { State.reset with
    params := s.params
    now := s.now
    rx := s.rx
    pending := s.pending
    resp := s.resp }

end Sys2Proof.Machine
end

