-- ==== Sys2Proof/Machine/FrameCache.lean ====
section
/-! DEFINITION. POLL, RDSLOT, FIND, ONSLOT and ONID (42_cache.md R220 to R235). -/

namespace Sys2Proof.Machine

open Sys2Proof

/-- `poll` (R220): NOW is sampled once; at most 4 frames are stored; PCOUNT is their number. -/
def execPoll (s : State) : Result :=
  let r := drain s.now maxPerPoll 0 s
  complete (r.2.setPcount r.1)

/-- RDSLOT of slot i (R227). -/
def readSlot (i : BitVec 2) (s : State) : Result :=
  lookupResult (if (s.slots.get i).valid then some (s.slots.get i) else none) s

/-- `rdslot 0` (R227). -/
def execRdslot0 (s : State) : Result := readSlot 0 s

/-- `rdslot 1` (R227). -/
def execRdslot1 (s : State) : Result := readSlot 1 s

/-- `rdslot 2` (R227). -/
def execRdslot2 (s : State) : Result := readSlot 2 s

/-- `rdslot 3` (R227). -/
def execRdslot3 (s : State) : Result := readSlot 3 s

/-- `find` (R228): the lowest-index slot that matches ARGID.ID. -/
def execFind (s : State) : Result := lookupResult (firstMatch s.slots s.argId.id) s

/-- ONSLOT of slot i: within DEFAULT_TIMEOUT; ARGTMO is not used (R232). -/
def slotOnline (i : BitVec 2) (s : State) : Result :=
  complete (s.setOnline (within s.now (s.slots.get i) defaultTimeout))

/-- `onslot 0` (R232). -/
def execOnslot0 (s : State) : Result := slotOnline 0 s

/-- `onslot 1` (R232). -/
def execOnslot1 (s : State) : Result := slotOnline 1 s

/-- `onslot 2` (R232). -/
def execOnslot2 (s : State) : Result := slotOnline 2 s

/-- `onslot 3` (R232). -/
def execOnslot3 (s : State) : Result := slotOnline 3 s

/-- `onid` (R234): any slot that matches ARGID.ID and is within ARGTMO. -/
def execOnid (s : State) : Result :=
  complete (s.setOnline (anyOnline s.now s.slots s.argId.id s.argTmo))

end Sys2Proof.Machine
end

