-- ==== Sys2Proof/Machine/NoOp.lean ====
section
/-! DEFINITION. NOP (43_host_access.md R260). -/

namespace Sys2Proof.Machine

open Sys2Proof

/-- `nop` (R260): ERR <- NONE and nothing else; STICKY stays. -/
def execNop (s : State) : Result := complete s

end Sys2Proof.Machine
end

