-- ==== Sys2Proof/Machine/Packer.lean ====
section
/-! DEFINITION. PACK, SENT and UNPACK (41_packer.md R182, R186, R190). -/

namespace Sys2Proof.Machine

open Sys2Proof

/-- `pack` (R182): NONFINITE, then BADID; else the clamped, quantized codes go to OF_* under ARGID's header. -/
def execPack (s : State) : Result :=
  match packedPayload s with
  | none => raiseError .nonfinite s
  | some w =>
    if headerOk s.argId then
      complete (s.setOut (builtFrame s.argId (w.extractLsb' 32 32) (w.extractLsb' 0 32)))
    else raiseError .badid s

/-- SENT with a terminal byte (R186): seven bytes 0xFF and the terminal byte. -/
def sentFrame (term : Byte) (s : State) : Result :=
  if headerOk s.argId then
    complete (s.setOut (builtFrame s.argId 0xFFFFFFFF (0xFFFFFF#24 ++ term)))
  else raiseError .badid s

/-- `sent enter` (R186). -/
def execSentEnter (s : State) : Result := sentFrame 0xFC s

/-- `sent stop` (R186). -/
def execSentStop (s : State) : Result := sentFrame 0xFD s

/-- `sent rezero` (R186). -/
def execSentRezero (s : State) : Result := sentFrame 0xFE s

/-- The telemetry of a status payload W = (D0, D1): codes W[63:48], W[47:36], W[11:0] and their
dequantized words (R181, R190). -/
def telemetryOf (d0 d1 : Word) : Telemetry :=
  let w : BitVec 64 := d0 ++ d1
  let pc := w.extractLsb' 48 16
  let vc := w.extractLsb' 36 12
  let tc := w.extractLsb' 0 12
  { pos := dequantizeWord pc.toNat (rangeOf .pos)
    vel := dequantizeWord vc.toNat (rangeOf .vel)
    tor := dequantizeWord tc.toNat (rangeOf .tor)
    rawPos := pc
    rawVel := vc
    rawTor := tc }

/-- UNPACK of a frame (R190): LENGTH unless LEN = 8; ID, EXT and RTR are not checked. -/
def unpackFrame (f : FrameRegs) (s : State) : Result :=
  if f.len ≠ 8 then raiseError .length s
  else complete ((s.setTel (telemetryOf f.d0 f.d1)).setTelv)

/-- `unpack if` (R190). -/
def execUnpackIf (s : State) : Result := unpackFrame s.inFrame s

/-- `unpack of` (R190). -/
def execUnpackOf (s : State) : Result := unpackFrame s.outFrame s

end Sys2Proof.Machine
end

