-- ==== Sys2Proof/Machine/Quantizer.lean ====
section
/-! DEFINITION. QUANT and DEQUANT (40_quantizer.md R149, R150). -/

namespace Sys2Proof.Machine

open Sys2Proof

/-- The common end of QUANT: OUTRANGE when v < min or v > max, infinities included; else QRES is the
code (R149). NaN raises NONFINITE. -/
def quantInto (v : Value) (r : QRange) (s : State) : Result :=
  match v with
  | .nan => raiseError .nonfinite s
  | .negInf => raiseError .outrange s
  | .posInf => raiseError .outrange s
  | .fin n =>
    if n < r.min ∨ r.max < n then raiseError .outrange s
    else complete (s.setQres (BitVec.ofInt 16 (quantize n r)))

/-- QUANT with SEL 0 to 4 (R149). -/
def quantFixed (n : RangeName) (s : State) : Result := quantInto (value s.arg0) (rangeOf n) s

/-- `quant pos` (R149). -/
def execQuantPos (s : State) : Result := quantFixed .pos s

/-- `quant vel` (R149). -/
def execQuantVel (s : State) : Result := quantFixed .vel s

/-- `quant kp` (R149). -/
def execQuantKp (s : State) : Result := quantFixed .kp s

/-- `quant kd` (R149). -/
def execQuantKd (s : State) : Result := quantFixed .kd s

/-- `quant tor` (R149). -/
def execQuantTor (s : State) : Result := quantFixed .tor s

/-- `quant gen` (R149): NONFINITE (ARG0 NaN, ARG1 or ARG2 not finite), BADWIDTH, BADSPAN, OUTRANGE. -/
def execQuantGen (s : State) : Result :=
  if isNaN s.arg0 then raiseError .nonfinite s
  else
    match generalRange s with
    | .error e => raiseError e s
    | .ok r => quantInto (value s.arg0) r s

/-- The common end of DEQUANT: BADCODE when the code exceeds 2^b - 1, not masked; else DRES (R150). -/
def dequantInto (r : QRange) (s : State) : Result :=
  if r.width.maxCode < s.arg0.toNat then raiseError .badcode s
  else complete (s.setDres (dequantizeWord s.arg0.toNat r))

/-- DEQUANT with SEL 0 to 4 (R150). -/
def dequantFixed (n : RangeName) (s : State) : Result := dequantInto (rangeOf n) s

/-- `dequant pos` (R150). -/
def execDequantPos (s : State) : Result := dequantFixed .pos s

/-- `dequant vel` (R150). -/
def execDequantVel (s : State) : Result := dequantFixed .vel s

/-- `dequant kp` (R150). -/
def execDequantKp (s : State) : Result := dequantFixed .kp s

/-- `dequant kd` (R150). -/
def execDequantKd (s : State) : Result := dequantFixed .kd s

/-- `dequant tor` (R150). -/
def execDequantTor (s : State) : Result := dequantFixed .tor s

/-- `dequant gen` (R150): NONFINITE (ARG1 or ARG2 not finite), BADWIDTH, BADSPAN, BADCODE. -/
def execDequantGen (s : State) : Result :=
  match generalRange s with
  | .error e => raiseError e s
  | .ok r => dequantInto r s

end Sys2Proof.Machine
end

