-- ==== Sys2Proof/Machine/Dispatch.lean ====
section
/-! DEFINITION. One arm per command. -/

namespace Sys2Proof.Machine

open Sys2Proof

def exec (i : Instr) (s : State) : Host.Outcome State Fault Refusal :=
  match i with
  | .nop => Sys2Proof.Machine.execNop s
  | .quantPos => Sys2Proof.Machine.execQuantPos s
  | .quantVel => Sys2Proof.Machine.execQuantVel s
  | .quantKp => Sys2Proof.Machine.execQuantKp s
  | .quantKd => Sys2Proof.Machine.execQuantKd s
  | .quantTor => Sys2Proof.Machine.execQuantTor s
  | .quantGen => Sys2Proof.Machine.execQuantGen s
  | .dequantPos => Sys2Proof.Machine.execDequantPos s
  | .dequantVel => Sys2Proof.Machine.execDequantVel s
  | .dequantKp => Sys2Proof.Machine.execDequantKp s
  | .dequantKd => Sys2Proof.Machine.execDequantKd s
  | .dequantTor => Sys2Proof.Machine.execDequantTor s
  | .dequantGen => Sys2Proof.Machine.execDequantGen s
  | .pack => Sys2Proof.Machine.execPack s
  | .sentEnter => Sys2Proof.Machine.execSentEnter s
  | .sentStop => Sys2Proof.Machine.execSentStop s
  | .sentRezero => Sys2Proof.Machine.execSentRezero s
  | .unpackIf => Sys2Proof.Machine.execUnpackIf s
  | .unpackOf => Sys2Proof.Machine.execUnpackOf s
  | .poll => Sys2Proof.Machine.execPoll s
  | .rdslot0 => Sys2Proof.Machine.execRdslot0 s
  | .rdslot1 => Sys2Proof.Machine.execRdslot1 s
  | .rdslot2 => Sys2Proof.Machine.execRdslot2 s
  | .rdslot3 => Sys2Proof.Machine.execRdslot3 s
  | .find => Sys2Proof.Machine.execFind s
  | .onslot0 => Sys2Proof.Machine.execOnslot0 s
  | .onslot1 => Sys2Proof.Machine.execOnslot1 s
  | .onslot2 => Sys2Proof.Machine.execOnslot2 s
  | .onslot3 => Sys2Proof.Machine.execOnslot3 s
  | .onid => Sys2Proof.Machine.execOnid s

end Sys2Proof.Machine
end

