-- ==== Sys2Proof/Machine/HostAccess.lean ====
section
/-! DEFINITION. The register window (20_memory.md R80 to R89), register reads and writes
(43_host_access.md R261, R262), running the word written to CMD (30_encoding.md R110, R111), and
the events that reach the block. -/

namespace Sys2Proof.Machine

open Sys2Proof

/-- The window offset of a register (R80). -/
def regOffset : Reg → Nat
  | .cmd => 0x00
  | .status => 0x04
  | .arg0 => 0x08
  | .arg1 => 0x0C
  | .arg2 => 0x10
  | .arg3 => 0x14
  | .arg4 => 0x18
  | .argId => 0x1C
  | .argTmo => 0x20
  | .qres => 0x24
  | .dres => 0x28
  | .tsres => 0x2C
  | .ifId => 0x30
  | .ifCtl => 0x34
  | .ifD0 => 0x38
  | .ifD1 => 0x3C
  | .ofId => 0x40
  | .ofCtl => 0x44
  | .ofD0 => 0x48
  | .ofD1 => 0x4C
  | .telPos => 0x50
  | .telVel => 0x54
  | .telTor => 0x58
  | .telRaw0 => 0x5C
  | .telRaw1 => 0x60
  | .time => 0x64

/-- The register at a window offset, none where R80 has none. -/
def regAt : Nat → Option Reg
  | 0x00 => some .cmd
  | 0x04 => some .status
  | 0x08 => some .arg0
  | 0x0C => some .arg1
  | 0x10 => some .arg2
  | 0x14 => some .arg3
  | 0x18 => some .arg4
  | 0x1C => some .argId
  | 0x20 => some .argTmo
  | 0x24 => some .qres
  | 0x28 => some .dres
  | 0x2C => some .tsres
  | 0x30 => some .ifId
  | 0x34 => some .ifCtl
  | 0x38 => some .ifD0
  | 0x3C => some .ifD1
  | 0x40 => some .ofId
  | 0x44 => some .ofCtl
  | 0x48 => some .ofD0
  | 0x4C => some .ofD1
  | 0x50 => some .telPos
  | 0x54 => some .telVel
  | 0x58 => some .telTor
  | 0x5C => some .telRaw0
  | 0x60 => some .telRaw1
  | 0x64 => some .time
  | _ => none

/-- The address is in the window's page, so the access is one to this block (R82, log 7). -/
def selected (p : Params) (addr : Nat) : Bool := addr / 256 == p.qfcPage

/-- The offset: the low 8 bits of the address (R82). -/
def offsetOf (addr : Nat) : Nat := addr % 256

/-- The register a legal access reaches: 4 bytes wide, at a register's offset (R83); none is a
BusError (R84). -/
def accessedReg (addr width : Nat) : Option Reg :=
  if width = 4 then regAt (offsetOf addr) else none

/-- ARGID as a word (R37). -/
def ArgId.word (a : ArgId) : Word := BitVec.ofBool a.ext ++ 0#2 ++ a.id

/-- IF_ID or OF_ID as a word (R42). -/
def FrameRegs.idWord (f : FrameRegs) : Word := 0#3 ++ f.id

/-- IF_CTL or OF_CTL as a word (R42). -/
def FrameRegs.ctlWord (f : FrameRegs) : Word :=
  0#26 ++ BitVec.ofBool f.rtr ++ BitVec.ofBool f.ext ++ f.len

/-- TEL_RAW0 as a word (R45). -/
def Telemetry.raw0 (t : Telemetry) : Word := 0#4 ++ t.rawVel ++ t.rawPos

/-- TEL_RAW1 as a word (R45). -/
def Telemetry.raw1 (t : Telemetry) : Word := 0#20 ++ t.rawTor

/-- The word a read of a register returns; reserved bits read 0, TIME follows NOW (R262). -/
def readReg (r : Reg) (s : State) : Word :=
  match r with
  | .cmd => s.cmd
  | .status => statusWord s
  | .arg0 => s.arg0
  | .arg1 => s.arg1
  | .arg2 => s.arg2
  | .arg3 => s.arg3
  | .arg4 => s.arg4
  | .argId => s.argId.word
  | .argTmo => s.argTmo
  | .qres => 0#16 ++ s.qres
  | .dres => s.dres
  | .tsres => s.tsres
  | .ifId => s.inFrame.idWord
  | .ifCtl => s.inFrame.ctlWord
  | .ifD0 => s.inFrame.d0
  | .ifD1 => s.inFrame.d1
  | .ofId => s.outFrame.idWord
  | .ofCtl => s.outFrame.ctlWord
  | .ofD0 => s.outFrame.d0
  | .ofD1 => s.outFrame.d1
  | .telPos => s.tel.pos
  | .telVel => s.tel.vel
  | .telTor => s.tel.tor
  | .telRaw0 => s.tel.raw0
  | .telRaw1 => s.tel.raw1
  | .time => s.now

/-- Running the word in CMD: the command it encodes, or ILLEGAL or BADSEL (R111). -/
def runWord (w : Word) (s : State) : Result :=
  match decode w with
  | .ok i => exec i s
  | .error .illegal => raiseError .illegal s
  | .error .badsel => raiseError .badsel s

/-- A write to CMD stores the word and then runs it (R33, R261). -/
def writeCmd (v : Word) (s : State) : Result := runWord v { s with cmd := v }

/-- A register write (R261): reserved fields and read-only registers ignore it (R85). -/
def writeReg (r : Reg) (v : Word) (s : State) : Result :=
  match r with
  | .cmd => writeCmd v s
  | .status => .next (if v.getLsbD 15 then s.clearSticky else s)
  | .arg0 => .next { s with arg0 := v }
  | .arg1 => .next { s with arg1 := v }
  | .arg2 => .next { s with arg2 := v }
  | .arg3 => .next { s with arg3 := v }
  | .arg4 => .next { s with arg4 := v }
  | .argId => .next { s with argId := ⟨v.extractLsb' 0 29, v.getLsbD 31⟩ }
  | .argTmo => .next { s with argTmo := v }
  | .ifId => .next { s with inFrame := { s.inFrame with id := v.extractLsb' 0 29 } }
  | .ifCtl => .next { s with inFrame := { s.inFrame with len := v.extractLsb' 0 4, ext := v.getLsbD 4, rtr := v.getLsbD 5 } }
  | .ifD0 => .next { s with inFrame := { s.inFrame with d0 := v } }
  | .ifD1 => .next { s with inFrame := { s.inFrame with d1 := v } }
  | .qres | .dres | .tsres | .ofId | .ofCtl | .ofD0 | .ofD1 | .telPos | .telVel | .telTor
  | .telRaw0 | .telRaw1 | .time => .next s

/-- A host bus access (R10, R83, R84): a refused one is a BusError, which is a fault of the run
(R286); one outside the window is not an access to this block (log 7). -/
def busAccess (a : Access) (s : State) : Result :=
  if selected s.params a.addr then
    match accessedReg a.addr a.width with
    | none => .fault (.busError (offsetOf a.addr))
    | some r =>
      match a with
      | .read _ _ => .next { s with resp := .data (readReg r s) }
      | .write _ _ v => writeReg r v { s with resp := .accepted }
  else .next s

/-- One event from outside (R15, R310). -/
def runEvent (e : Event) (s : State) : Result :=
  match e with
  | .access a => busAccess a s
  | .time v => .next { s with now := v }
  | .receive r => .next { s with rx := s.rx ++ [r] }
  | .reset => .next (hardwareReset s)

end Sys2Proof.Machine
end

