-- ==== Sys2Proof/Machine/Step.lean ====
section
/-! DEFINITION. One step: the next pending event (00_scope.md R15, log 2). -/

namespace Sys2Proof.Machine

open Sys2Proof

/-- One step takes the next pending event. With none pending the block does nothing between host
accesses (60_exceptions.md R294, log 12). -/
def step (s : State) : Host.Outcome State Fault Refusal :=
  match s.pending with
  | [] => .next s
  | e :: rest => runEvent e { s with pending := rest }

/-- `s` with the host's write of a command word to CMD as the next event (log 13): the block fetches
no instructions, a command is data written to CMD (20_memory.md R97). -/
def State.withFetchWord (s : State) (nbits w : Nat) : State :=
  { s with
    pending := .access (.write s.params.qfcBase 4 (BitVec.ofNat 32 (w % 2 ^ nbits))) :: s.pending }

end Sys2Proof.Machine
end

