-- ==== Sys2Proof/Machine/HostProgram.lean ====
section
/-! DEFINITION. Host programs (30_encoding.md R118) and the pseudo-instructions (R119), as lists of
host events. `p` is the block's parameters, which place the window. -/

namespace Sys2Proof.Machine

open Sys2Proof

/-- The host address of a register: QFC_BASE + off (R82, R263). -/
def regAddr (p : Params) (r : Reg) : Nat := p.qfcBase + regOffset r

/-- `wr REG, V` (R118). -/
def wr (p : Params) (r : Reg) (v : Word) : Event := .access (.write (regAddr p r) 4 v)

/-- `rd REG` (R118). -/
def rd (p : Params) (r : Reg) : Event := .access (.read (regAddr p r) 4)

/-- A command mnemonic stands for `wr CMD, <word>` (R118). -/
def cmd (p : Params) (i : Instr) : Event := wr p .cmd (encode i)

/-- `fp(d)`, the binary32 word rne32(d) of the number d = num/den (R118). -/
def fp (num : Int) (den : Nat) : Word := rne32 (units num) den

/-- `setcmd p, v, kp, kd, t, id` (R119), the five values as binary32 words. -/
def pseudoSetcmd (p : Params) (pos vel kp kd tor id : Word) : List Event :=
  [wr p .arg0 pos, wr p .arg1 vel, wr p .arg2 kp, wr p .arg3 kd, wr p .arg4 tor, wr p .argId id,
    cmd p .pack]

/-- `setpos p, kp, kd, id` (R119). -/
def pseudoSetpos (p : Params) (pos kp kd id : Word) : List Event := pseudoSetcmd p pos 0 kp kd 0 id

/-- `setvel v, kd, id` (R119). `x` is the word that the first line's `rd TEL_POS -> x` returns to the
host (log 19). -/
def pseudoSetvel (p : Params) (x vel kd id : Word) : List Event :=
  [rd p .telPos, wr p .arg0 x, wr p .arg1 vel, wr p .arg2 0, wr p .arg3 kd, wr p .arg4 0,
    wr p .argId id, cmd p .pack]

/-- `settor t, id` (R119). -/
def pseudoSettor (p : Params) (tor id : Word) : List Event := pseudoSetcmd p 0 0 0 0 tor id

/-- `start id` (R119). -/
def pseudoStart (p : Params) (id : Word) : List Event := [wr p .argId id, cmd p .sentEnter]

/-- `stop id` (R119). -/
def pseudoStop (p : Params) (id : Word) : List Event := [wr p .argId id, cmd p .sentStop]

/-- `rezero id` (R119). -/
def pseudoRezero (p : Params) (id : Word) : List Event := [wr p .argId id, cmd p .sentRezero]

/-- `isonline id` (R119). -/
def pseudoIsonline (p : Params) (id : Word) : List Event :=
  [wr p .argId id, wr p .argTmo 600, cmd p .onid, rd p .status]

/-- `clrsticky` (R119). -/
def pseudoClrsticky (p : Params) : List Event := [wr p .status 0x00008000]

/-- The SEL operand of `quant` (R117): one of the five ranges, or `gen`. -/
inductive QuantOperand where
  | range (n : RangeName)
  | gen
  deriving DecidableEq, Repr

/-- `quant r` (R117). -/
def quantCommand : QuantOperand → Instr
  | .range .pos => .quantPos
  | .range .vel => .quantVel
  | .range .kp => .quantKp
  | .range .kd => .quantKd
  | .range .tor => .quantTor
  | .gen => .quantGen

/-- `quantv r, d` (R119). DESIGN CHOICE (log 20): R119 does not say which operands r ranges over; here
they are all six of `quant r` in R117, `gen` included. With `gen` the range is what ARG1 to ARG3 hold,
since the expansion writes only ARG0. -/
def pseudoQuantv (p : Params) (r : QuantOperand) (d : Word) : List Event :=
  [wr p .arg0 d, cmd p (quantCommand r), rd p .qres]

end Sys2Proof.Machine
end

