-- ==== Sys2Proof/Safety.lean ====
section
/-! DEFINITION. The terms of the statements: the spec's own formulas over the rationals
(00_scope.md R11, 40_quantizer.md R140 to R153), the cases of the commands as the spec lists them,
the cache's history (42_cache.md R222), and the invariant of a run. Written beside the machine, not
from it, so that a statement compares the two. -/

namespace Sys2Proof.Spec

open Sys2Proof Sys2Proof.Machine

/-! ### binary32 (R11) -/

/-- s = w[31]. -/
def signOf (w : Word) : ℕ := w.toNat / 2 ^ 31

/-- e = w[30:23]. -/
def expOf (w : Word) : ℕ := w.toNat / 2 ^ 23 % 2 ^ 8

/-- f = w[22:0]. -/
def fracOf (w : Word) : ℕ := w.toNat % 2 ^ 23

/-- isNaN(w). -/
abbrev IsNaN (w : Word) : Prop := expOf w = 0xFF ∧ fracOf w ≠ 0

/-- isInf(w). -/
abbrev IsInf (w : Word) : Prop := expOf w = 0xFF ∧ fracOf w = 0

/-- isFinite(w). -/
abbrev IsFinite (w : Word) : Prop := expOf w ≠ 0xFF

/-- val(w), the exact rational value of a finite word. -/
def val (w : Word) : ℚ :=
  if expOf w = 0 then (-1) ^ signOf w * (fracOf w : ℚ) * 2 ^ (-149 : ℤ)
  else (-1) ^ signOf w * (2 ^ 23 + fracOf w : ℚ) * 2 ^ ((expOf w : ℤ) - 150)

/-- `w` is rne32(q): a finite word nearest q, whose fraction is even when another value is as near;
and rne32(0) = +0.0. -/
def Rne32 (q : ℚ) (w : Word) : Prop :=
  IsFinite w ∧
  (∀ w', IsFinite w' → |val w - q| ≤ |val w' - q|) ∧
  (∀ w', IsFinite w' → val w' ≠ val w → |val w' - q| = |val w - q| → fracOf w % 2 = 0) ∧
  (q = 0 → w = 0)

/-! ### Ranges and quantization (R140, R142, R146, R153) -/

/-- The bits column of R140. -/
def rangeBits : RangeName → ℕ
  | .pos => 16
  | .vel | .kp | .kd | .tor => 12

/-- The min column of R140. -/
def rangeMin : RangeName → ℚ
  | .pos => -40
  | .vel => -50
  | .kp => 0
  | .kd => 0
  | .tor => -25

/-- The max column of R140. -/
def rangeMax : RangeName → ℚ
  | .pos => 40
  | .vel => 50
  | .kp => 500
  | .kd => 5
  | .tor => 25

/-- Qexact(v, min, max, b) (R142). -/
def qexact (v mn mx : ℚ) (b : ℕ) : ℚ := (v - mn) * (2 ^ b - 1) / (mx - mn)

/-- quantize(v, min, max, b) = floor(Qexact + 1/2) (R142). -/
def quantize (v mn mx : ℚ) (b : ℕ) : ℤ := ⌊qexact v mn mx b + 1 / 2⌋

/-- dequantize(c, min, max, b) (R146). -/
def dequantize (c : ℕ) (mn mx : ℚ) (b : ℕ) : ℚ := (c : ℚ) * (mx - mn) / (2 ^ b - 1) + mn

/-- The tie inputs of R145. -/
def tieInputs : RangeName → List ℚ
  | .pos => [-32, -16, 0, 16, 32]
  | .vel => [-40, -20, 0, 20, 40]
  | .kp => [50, 150, 250, 350, 450]
  | .kd => [1 / 2, 3 / 2, 5 / 2, 7 / 2, 9 / 2]
  | .tor => [-20, -10, 0, 10, 20]

/-- clamp(val(w), lo, hi) of a word that is not NaN; an infinity clamps to its bound (R11, R153). -/
def clampWord (w : Word) (lo hi : ℚ) : ℚ :=
  if IsInf w then (if signOf w = 1 then lo else hi)
  else if val w < lo then lo else if hi < val w then hi else val w

/-! ### Command outcomes -/

/-- The list of R117: each word with the command it is listed for. -/
def listedCommands : List (Word × Instr) :=
  [(0x00000000, .nop), (0x10000000, .quantPos), (0x11000000, .quantVel), (0x12000000, .quantKp),
    (0x13000000, .quantKd), (0x14000000, .quantTor), (0x1F000000, .quantGen),
    (0x20000000, .dequantPos), (0x21000000, .dequantVel), (0x22000000, .dequantKp),
    (0x23000000, .dequantKd), (0x24000000, .dequantTor), (0x2F000000, .dequantGen),
    (0x40000000, .sentEnter), (0x42000000, .sentRezero), (0x51000000, .unpackOf),
    (0x60000000, .poll), (0x70000000, .rdslot0), (0x71000000, .rdslot1), (0x72000000, .rdslot2),
    (0x73000000, .rdslot3), (0x80000000, .find), (0x90000000, .onslot0), (0x91000000, .onslot1),
    (0x92000000, .onslot2), (0x93000000, .onslot3), (0xA0000000, .onid),
    (0x30000000, .pack), (0x41000000, .sentStop), (0x50000000, .unpackIf)]

/-- A command's effect with ERR = NONE (R34). -/
def completed (s : State) : State := { s with status := { s.status with err := .none } }

/-- The whole effect of `raise Error(e)` (R282). -/
def raised (e : Err) (s : State) : State :=
  { s with status := { s.status with err := e, sticky := true } }

/-- The codes of R280. -/
def errNumber : Err → ℕ
  | .none => 0
  | .illegal => 1
  | .badsel => 2
  | .nonfinite => 3
  | .outrange => 4
  | .badwidth => 5
  | .badspan => 6
  | .badcode => 7
  | .length => 8
  | .badid => 9

/-- What a read of each register but STATUS returns (R33 to R46, R80), by offset: the fields in their
places, reserved bits 0. -/
def registerWords (s : State) : List (ℕ × ℕ) :=
  [(0x00, s.cmd.toNat), (0x08, s.arg0.toNat), (0x0C, s.arg1.toNat), (0x10, s.arg2.toNat),
    (0x14, s.arg3.toNat), (0x18, s.arg4.toNat),
    (0x1C, s.argId.ext.toNat * 2 ^ 31 + s.argId.id.toNat), (0x20, s.argTmo.toNat),
    (0x24, s.qres.toNat), (0x28, s.dres.toNat), (0x2C, s.tsres.toNat),
    (0x30, s.inFrame.id.toNat),
    (0x34, s.inFrame.rtr.toNat * 2 ^ 5 + s.inFrame.ext.toNat * 2 ^ 4 + s.inFrame.len.toNat),
    (0x38, s.inFrame.d0.toNat), (0x3C, s.inFrame.d1.toNat),
    (0x40, s.outFrame.id.toNat),
    (0x44, s.outFrame.rtr.toNat * 2 ^ 5 + s.outFrame.ext.toNat * 2 ^ 4 + s.outFrame.len.toNat),
    (0x48, s.outFrame.d0.toNat), (0x4C, s.outFrame.d1.toNat),
    (0x50, s.tel.pos.toNat), (0x54, s.tel.vel.toNat), (0x58, s.tel.tor.toNat),
    (0x5C, s.tel.rawVel.toNat * 2 ^ 16 + s.tel.rawPos.toNat), (0x60, s.tel.rawTor.toNat),
    (0x64, s.now.toNat)]

/-- What a write of v to each read-write register but CMD and STATUS stores (R261), by offset. -/
def operandWrites (s : State) (v : Word) : List (ℕ × State) :=
  [(0x08, { s with arg0 := v }), (0x0C, { s with arg1 := v }), (0x10, { s with arg2 := v }),
    (0x14, { s with arg3 := v }), (0x18, { s with arg4 := v }),
    (0x1C, { s with argId := { id := BitVec.ofNat 29 v.toNat, ext := decide (2 ^ 31 ≤ v.toNat) } }),
    (0x20, { s with argTmo := v }),
    (0x30, { s with inFrame := { s.inFrame with id := BitVec.ofNat 29 v.toNat } }),
    (0x34, { s with inFrame := { s.inFrame with
        len := BitVec.ofNat 4 v.toNat
        ext := decide (v.toNat / 2 ^ 4 % 2 = 1)
        rtr := decide (v.toNat / 2 ^ 5 % 2 = 1) } }),
    (0x38, { s with inFrame := { s.inFrame with d0 := v } }),
    (0x3C, { s with inFrame := { s.inFrame with d1 := v } })]

/-- STATUS.WRPTR: the write pointer, 0 in RESTART mode (R34, R48). -/
def shownWrptr (s : State) : ℕ :=
  match s.params.wrptrMode with
  | .cyclic => s.wrptr.toNat
  | .restart => 0

/-- The index column of R140, which is SEL (R113). -/
def rangeIndex : RangeName → Word
  | .pos => 0
  | .vel => 1
  | .kp => 2
  | .kd => 3
  | .tor => 4

/-- The fields of a word written to ARGID (R37). -/
def argIdOf (w : Word) : ArgId := { id := BitVec.ofNat 29 w.toNat, ext := decide (2 ^ 31 ≤ w.toNat) }

/-- n steps, as far as the run goes. -/
def steps : ℕ → State → Result
  | 0, s => .next s
  | n + 1, s =>
    match step s with
    | .next t => steps n t
    | o => o

/-- The `quant` command of a range (R117). -/
def quantInstr : RangeName → Instr
  | .pos => .quantPos
  | .vel => .quantVel
  | .kp => .quantKp
  | .kd => .quantKd
  | .tor => .quantTor

/-- `quant r` (R117). -/
def quantForm : QuantOperand → Instr
  | .range n => quantInstr n
  | .gen => .quantGen

/-- (mn, mx, b) is the legal range of `quant r` in state s: the row of R140, or for `gen` what ARG1,
ARG2 and ARG3 hold when they pass R149's checks (finite bounds, a width of 12 or 16, min < max). -/
def QuantRange : QuantOperand → State → ℚ → ℚ → ℕ → Prop
  | .range n, _, mn, mx, b => mn = rangeMin n ∧ mx = rangeMax n ∧ b = rangeBits n
  | .gen, s, mn, mx, b => IsFinite s.arg1 ∧ IsFinite s.arg2 ∧ val s.arg1 < val s.arg2 ∧
      (s.arg3.toNat = 12 ∨ s.arg3.toNat = 16) ∧ mn = val s.arg1 ∧ mx = val s.arg2 ∧ b = s.arg3.toNat

/-- The `dequant` command of a range (R117). -/
def dequantInstr : RangeName → Instr
  | .pos => .dequantPos
  | .vel => .dequantVel
  | .kp => .dequantKp
  | .kd => .dequantKd
  | .tor => .dequantTor

/-- The end of R149's pseudocode for a value word and a range: every case and its outcome. -/
def QuantCases (w : Word) (mn mx : ℚ) (b : ℕ) (s : State) (o : Result) : Prop :=
  (IsNaN w → o = .next (raised .nonfinite s)) ∧
  (IsInf w → o = .next (raised .outrange s)) ∧
  (IsFinite w → val w < mn ∨ mx < val w → o = .next (raised .outrange s)) ∧
  (IsFinite w → mn ≤ val w → val w ≤ mx →
    o = .next (completed { s with qres := BitVec.ofInt 16 (quantize (val w) mn mx b) }))

/-- The end of R150's pseudocode for a code and a range. -/
def DequantCases (c : ℕ) (mn mx : ℚ) (b : ℕ) (s : State) (o : Result) : Prop :=
  (2 ^ b - 1 < c → o = .next (raised .badcode s)) ∧
  (c ≤ 2 ^ b - 1 →
    ∃ w, Rne32 (dequantize c mn mx b) w ∧ o = .next (completed { s with dres := w }))

/-- The input register of a range in PACK (R182): ARG0 position, ARG1 velocity, ARG2 kp, ARG3 kd, ARG4 torque. -/
def packInput : RangeName → State → Word
  | .pos, s => s.arg0
  | .vel, s => s.arg1
  | .kp, s => s.arg2
  | .kd, s => s.arg3
  | .tor, s => s.arg4

/-- `s` with one of PACK's inputs replaced. -/
def withPackInput : RangeName → Word → State → State
  | .pos, w, s => { s with arg0 := w }
  | .vel, w, s => { s with arg1 := w }
  | .kp, w, s => { s with arg2 := w }
  | .kd, w, s => { s with arg3 := w }
  | .tor, w, s => { s with arg4 := w }

/-- The binary32 word of a range's min. -/
def minWord : RangeName → Word
  | .pos => 0xC2200000
  | .vel => 0xC2480000
  | .kp => 0x00000000
  | .kd => 0x00000000
  | .tor => 0xC1C80000

/-- The binary32 word of a range's max. -/
def maxWord : RangeName → Word
  | .pos => 0x42200000
  | .vel => 0x42480000
  | .kp => 0x43FA0000
  | .kd => 0x40A00000
  | .tor => 0x41C80000

/-- The clamped value of one of PACK's inputs (R153). -/
def packValue (n : RangeName) (s : State) : ℚ := clampWord (packInput n s) (rangeMin n) (rangeMax n)

/-- The code PACK makes of one of its inputs (R182). -/
def packCode (n : RangeName) (s : State) : ℕ :=
  (quantize (packValue n s) (rangeMin n) (rangeMax n) (rangeBits n)).toNat

/-- W = (P, V, KP, KD, T) as a 64-bit number (R181). -/
def packWord (s : State) : ℕ :=
  packCode .pos s * 2 ^ 48 + packCode .vel s * 2 ^ 36 + packCode .kp s * 2 ^ 24
    + packCode .kd s * 2 ^ 12 + packCode .tor s

/-- No input of PACK is NaN. -/
def NoNaNInput (s : State) : Prop := ∀ n, ¬ IsNaN (packInput n s)

/-- ARGID gives a legal header: an extended identifier, or at most 11 bits (R183). -/
def HeaderLegal (s : State) : Prop := s.argId.ext = true ∨ s.argId.id.toNat ≤ 0x7FF

/-- The frame registers PACK and SENT write: ID and EXT of ARGID, RTR 0, LEN 8 (R182, R183, R186). -/
def outgoing (s : State) (d0 d1 : Word) : FrameRegs :=
  { id := s.argId.id, len := 8, ext := s.argId.ext, rtr := false, d0 := d0, d1 := d1 }

/-- Payload byte D[k] in a frame's registers (R87). -/
def payloadByte (f : FrameRegs) (k : ℕ) : ℕ :=
  (if k < 4 then f.d0.toNat else f.d1.toNat) / 2 ^ (24 - 8 * (k % 4)) % 256

/-- The position code W[63:48], velocity code W[47:36] and torque code W[11:0] of a payload (R181, R190). -/
def statusCodes (d0 d1 : Word) : ℕ × ℕ × ℕ :=
  (d0.toNat / 2 ^ 16, d0.toNat / 2 ^ 4 % 2 ^ 12, d1.toNat % 2 ^ 12)

/-! ### The cache (R220 to R226) -/

/-- The frames a POLL stores: the RX port's answers up to the first none, at most 4 (R220, R224). -/
def received (rx : List (Option Frame)) : List Frame :=
  ((rx.take 4).takeWhile Option.isSome).reduceOption

/-- The RX port's answers that a POLL leaves: it takes the frames it stores and, if it stored fewer
than 4, the none that stopped it (R224). -/
def leftover (rx : List (Option Frame)) : List (Option Frame) :=
  rx.drop (if (received rx).length < 4 then (received rx).length + 1 else 4)

/-- The slot that the j-th frame of a POLL goes to (R221). -/
def pollSlot (s : State) (j : ℕ) : BitVec 2 :=
  match s.params.wrptrMode with
  | .cyclic => s.wrptr + BitVec.ofNat 2 j
  | .restart => BitVec.ofNat 2 j

/-- The write pointer after a POLL: advanced by the frames stored in CYCLIC mode (R48, R220). -/
def wrptrAfterPoll (s : State) : BitVec 2 :=
  match s.params.wrptrMode with
  | .cyclic => s.wrptr + BitVec.ofNat 2 (received s.rx).length
  | .restart => s.wrptr

/-- age(s) = (NOW - TS) mod 2^32 (R225). -/
def ageOf (now : Word) (x : Slot) : ℕ := (now.toNat + 2 ^ 32 - x.ts.toNat) % 2 ^ 32

/-- within(s, T): VALID, and the age is at most T, inclusive (R225). -/
def Within (now : Word) (x : Slot) (timeout : ℕ) : Prop := x.valid = true ∧ ageOf now x ≤ timeout

/-- match(s, q): VALID, and ID equals the query (R226). -/
def Matches (x : Slot) (q : BitVec 29) : Prop := x.valid = true ∧ x.frame.id = q

/-- The OF_* registers that show a frame (R43, R87). -/
def shownFrame (f : Frame) : FrameRegs :=
  { id := f.id, len := BitVec.ofNat 4 f.len, ext := f.ext, rtr := f.rtr
    d0 := f.d.b0 ++ f.d.b1 ++ f.d.b2 ++ f.d.b3, d1 := f.d.b4 ++ f.d.b5 ++ f.d.b6 ++ f.d.b7 }

/-- The registers of a lookup that found slot x (R227, R228). -/
def lookupHit (x : Slot) (s : State) : State :=
  completed { s with outFrame := shownFrame x.frame, tsres := x.ts, status := { s.status with found := true } }

/-- The registers of a lookup that found nothing (R227, R228). -/
def lookupMiss (s : State) : State :=
  completed { s with outFrame := ⟨0, 0, false, false, 0, 0⟩, tsres := 0, status := { s.status with found := false } }

/-- The frames stored since reset, poll by poll, each with its timestamp. -/
abbrev History := List (List (Frame × Word))

/-- A slot that holds a stored frame, or a slot never written. -/
def slotHolding : Option (Frame × Word) → Slot
  | some x => ⟨x.1, x.2, true⟩
  | none => ⟨Frame.zero, 0, false⟩

/-- What slot i holds after a history (R222). CYCLIC: the last frame k with k mod 4 = i. RESTART:
frame i of the latest POLL that took more than i frames. -/
def slotAfter (m : WrptrMode) (h : History) (i : ℕ) : Slot :=
  match m with
  | .cyclic => slotHolding (h.flatten[i + 4 * ((h.flatten.length - 1 - i) / 4)]?)
  | .restart => slotHolding ((h.reverse.find? (fun p => decide (i < p.length))).bind (·[i]?))

/-- The cache holds what its history says (R221, R222). -/
def CacheHolds (h : History) (s : State) : Prop :=
  (∀ i : BitVec 2, s.slots.get i = slotAfter s.params.wrptrMode h i.toNat) ∧
  (s.params.wrptrMode = .cyclic → s.wrptr.toNat = h.flatten.length % 4)

/-- The event is the host's write of the `poll` word to CMD. -/
def isPoll (p : Params) (e : Event) : Bool :=
  e == .access (.write p.qfcBase 4 0x60000000)

/-- The history after a step: a POLL appends the frames it stored with the one NOW it sampled (R223),
a hardware reset empties it, nothing else changes it (R47). -/
def historyAfter (h : History) (s : State) : History :=
  match s.pending with
  | [] => h
  | e :: _ =>
    if e = .reset then []
    else if isPoll s.params e then h ++ [(received s.rx).map (fun f => (f, s.now))]
    else h

/-! ### Groups of commands -/

/-- The QUANT forms. -/
def isQuant (i : Instr) : Bool :=
  i ∈ [Instr.quantPos, .quantVel, .quantKp, .quantKd, .quantTor, .quantGen]

/-- The DEQUANT forms. -/
def isDequant (i : Instr) : Bool :=
  i ∈ [Instr.dequantPos, .dequantVel, .dequantKp, .dequantKd, .dequantTor, .dequantGen]

/-- PACK and SENT. -/
def isBuilder (i : Instr) : Bool := i ∈ [Instr.pack, .sentEnter, .sentStop, .sentRezero]

/-- The UNPACK forms. -/
def isUnpack (i : Instr) : Bool := i ∈ [Instr.unpackIf, .unpackOf]

/-- RDSLOT and FIND. -/
def isLookup (i : Instr) : Bool := i ∈ [Instr.rdslot0, .rdslot1, .rdslot2, .rdslot3, .find]

/-- ONSLOT and ONID. -/
def isLiveness (i : Instr) : Bool := i ∈ [Instr.onslot0, .onslot1, .onslot2, .onslot3, .onid]

/-- The errors a command raises itself (R280, R283). -/
def ownErrors (i : Instr) : List Err :=
  if isQuant i then
    if i = .quantGen then [.nonfinite, .badwidth, .badspan, .outrange] else [.nonfinite, .outrange]
  else if isDequant i then
    if i = .dequantGen then [.nonfinite, .badwidth, .badspan, .badcode] else [.badcode]
  else if i = .pack then [.nonfinite, .badid]
  else if isBuilder i then [.badid]
  else if isUnpack i then [.length]
  else []

/-- A next state changed by `f`; a fault or a refusal as it is. -/
def mapNext (f : State → State) : Result → Result
  | .next s => .next (f s)
  | .fault r => .fault r
  | .refused r => .refused r

/-! ### Safe runs and the invariant of a run -/

/-- A state whose next step does not stop (the only stop is a bus error, R286). -/
def SafeStep (s : State) : Prop := ∃ t, step s = .next t

/-- What every state of a run from reset satisfies. -/
structure Inv (s : State) : Prop where
  /-- "The block never stores a LEN above 8" in OF_CTL (R43). -/
  outLen : s.outFrame.len ≤ 8
  /-- PCOUNT is 0 to 4 (R34). -/
  pcount : s.status.pcount ≤ 4
  /-- WRPTR is unused and 0 in RESTART mode (R48). -/
  restartPtr : s.params.wrptrMode = .restart → s.wrptr = 0
  /-- A slot not VALID is as reset left it (R47). -/
  emptySlot : ∀ i, (s.slots.get i).valid = false → s.slots.get i = ⟨Frame.zero, 0, false⟩
  /-- Slots are filled from index 0 up (R221). -/
  fillOrder : ∀ i j : BitVec 2, i ≤ j → (s.slots.get j).valid = true → (s.slots.get i).valid = true
  /-- In CYCLIC mode an unwritten slot is at or above the write pointer, and then so are only
  unwritten ones (R221). -/
  cyclicFill : s.params.wrptrMode = .cyclic → ∀ i, (s.slots.get i).valid = false →
    s.wrptr ≤ i ∧ ∀ j, s.wrptr ≤ j → (s.slots.get j).valid = false
  /-- TELV = 0 marks the reset telemetry (R45). -/
  telReset : s.status.telv = false → s.tel = ⟨0, 0, 0, 0, 0, 0⟩
  /-- TELV = 1: the telemetry words are the dequantized raw codes (R190). -/
  telDecoded : s.status.telv = true →
    Rne32 (dequantize s.tel.rawPos.toNat (-40) 40 16) s.tel.pos ∧
    Rne32 (dequantize s.tel.rawVel.toNat (-50) 50 12) s.tel.vel ∧
    Rne32 (dequantize s.tel.rawTor.toNat (-25) 25 12) s.tel.tor
  /-- "No output of the block is ever NaN or infinite" (R154): DRES (the telemetry follows from the above). -/
  dresFinite : IsFinite s.dres

end Sys2Proof.Spec
end

