-- ==== Sys2Proof/Certificates/Slice0/Obligations.lean ====
section
/-! DEFINITION. The statements for the provers, from the spec's numbered rules. A command's result is
stated as the whole next state, so it is the command's completion and its frame at once: every
register, flag, slot and port not named in the record update is unchanged. -/

open Sys2Proof Sys2Proof.Machine

/-! ### Encoding (30_encoding.md) -/

/-- R117: "The complete list of legal words": a word decodes to a command exactly when the list has the
pair. -/
def Obligations.ListedWordsAreExactlyTheCommands : Prop :=
  ∀ (w : Word) (i : Instr), decode w = .ok i ↔ (w, i) ∈ Spec.listedCommands

/-- R110 to R117: a word selects a command exactly when it is that command's encoding: every encoding
decodes back, and no other word decodes to the command. -/
def Obligations.DecodeAgreesWithEncode : Prop :=
  ∀ (w : Word) (i : Instr), decode w = .ok i ↔ w = encode i

/-- R111: a word written to CMD raises ILLEGAL when RSV is not 0, else ILLEGAL when OP is not 0x0 to
0xA, else BADSEL when SEL is not legal for OP, and else runs the one command it encodes. CMD keeps the
word (R33); an error changes nothing but ERR and STICKY. -/
def Obligations.EveryCmdWordRunsOrRaisesInTheOrderOfItsChecks : Prop :=
  ∀ (s : State) (w : Word) (rest : List Event),
    s.pending = .access (.write s.params.qfcBase 4 w) :: rest →
    (w.toNat % 2 ^ 24 ≠ 0 → step s = .next (Spec.raised .illegal
      { s with pending := rest, resp := .accepted, cmd := w })) ∧
    (w.toNat % 2 ^ 24 = 0 → 0xA < w.toNat / 2 ^ 28 → step s = .next (Spec.raised .illegal
      { s with pending := rest, resp := .accepted, cmd := w })) ∧
    (w.toNat % 2 ^ 24 = 0 → w.toNat / 2 ^ 28 ≤ 0xA → CommandWord.selLegal w = false →
      step s = .next (Spec.raised .badsel { s with pending := rest, resp := .accepted, cmd := w })) ∧
    (w.toNat % 2 ^ 24 = 0 → w.toNat / 2 ^ 28 ≤ 0xA → CommandWord.selLegal w = true →
      ∃ i, w = encode i ∧ step s = exec i { s with pending := rest, resp := .accepted, cmd := w })

/-! ### Steps and host accesses (20_memory.md, 43_host_access.md) -/

/-- R33, R110: when the next event is the host's write of a legal word to CMD, the step stores the
word in CMD and is exec of the decoded command; around it the event is consumed and the write is
answered. -/
def Obligations.StepRunsTheDecodedCommand : Prop :=
  ∀ (s : State) (w : Word) (i : Instr) (rest : List Event),
    s.pending = .access (.write s.params.qfcBase 4 w) :: rest → decode w = .ok i →
    step s = exec i { s with pending := rest, resp := .accepted, cmd := w }

/-- R83, R84: an access in the window is refused exactly when its width is not 4, its offset is not a
multiple of 4, or its offset is 0x68 or more; the refusal is a bus error with that offset. -/
def Obligations.BusErrorExactlyOnIllegalAccesses : Prop :=
  ∀ (s : State) (a : Access) (rest : List Event),
    s.pending = .access a :: rest → a.inWindow s.params = true →
    ((a.width ≠ 4 ∨ (a.addr - s.params.qfcBase) % 4 ≠ 0 ∨ 0x68 ≤ a.addr - s.params.qfcBase) →
      step s = .fault (.busError (a.addr - s.params.qfcBase))) ∧
    (a.width = 4 → (a.addr - s.params.qfcBase) % 4 = 0 → a.addr - s.params.qfcBase ≤ 0x64 →
      ∃ t, step s = .next t)

/-- R262 with R80, R89: a legal read of each register returns the register's word, with its fields in
the places R33 to R46 give and 0 in every reserved bit, TIME returning NOW; it has no side effect. -/
def Obligations.RegisterReadsReturnTheirWords : Prop :=
  ∀ (s : State) (off : ℕ) (rest : List Event) (v : Word),
    s.pending = .access (.read (s.params.qfcBase + off) 4) :: rest →
    (off, v.toNat) ∈ Spec.registerWords s →
    step s = .next { s with pending := rest, resp := .data v }

/-- R34: a read of STATUS returns TELV in bit 16, STICKY in 15, the slots' VALID bits in [14:11], the
write pointer in [10:9] (0 in RESTART mode, R48), PCOUNT in [8:6], ONLINE in 5, FOUND in 4, the
error's code in [3:0], and 0 in [31:17]. -/
def Obligations.StatusReadShowsEveryField : Prop :=
  ∀ (s : State) (rest : List Event),
    s.pending = .access (.read (s.params.qfcBase + 0x04) 4) :: rest →
    ∃ v : Word, step s = .next { s with pending := rest, resp := .data v } ∧
      v.toNat = s.status.telv.toNat * 2 ^ 16 + s.status.sticky.toNat * 2 ^ 15
        + s.slots.s3.valid.toNat * 2 ^ 14 + s.slots.s2.valid.toNat * 2 ^ 13
        + s.slots.s1.valid.toNat * 2 ^ 12 + s.slots.s0.valid.toNat * 2 ^ 11
        + Spec.shownWrptr s * 2 ^ 9
        + s.status.pcount.toNat * 2 ^ 6 + s.status.online.toNat * 2 ^ 5
        + s.status.found.toNat * 2 ^ 4
        + Spec.errNumber s.status.err

/-- R35: a write of v to STATUS clears STICKY when bit 15 of v is 1, changes nothing else, and runs no
command. -/
def Obligations.StatusWriteClearsOnlySticky : Prop :=
  ∀ (s : State) (v : Word) (rest : List Event),
    s.pending = .access (.write (s.params.qfcBase + 0x04) 4 v) :: rest →
    (v.toNat / 2 ^ 15 % 2 = 1 → step s = .next { s with
      pending := rest, resp := .accepted, status := { s.status with sticky := false } }) ∧
    (v.toNat / 2 ^ 15 % 2 = 0 → step s = .next { s with pending := rest, resp := .accepted })

/-- R261 (the read-write registers other than CMD and STATUS): a write stores the word, a reserved
field ignores it, and no other register changes. -/
def Obligations.OperandWritesStoreTheirFields : Prop :=
  ∀ (s : State) (off : ℕ) (v : Word) (rest : List Event) (t : State),
    s.pending = .access (.write (s.params.qfcBase + off) 4 v) :: rest →
    (off, t) ∈ Spec.operandWrites s v →
    step s = .next { t with pending := rest, resp := .accepted }

/-- R85: a write to a read-only register is accepted and changes nothing; a write to STATUS changes
nothing but STICKY; and a write to ARGID, IF_ID or IF_CTL stores the same whatever stands in the
reserved field. -/
def Obligations.ReadOnlyAndReservedBitsIgnoreWrites : Prop :=
  ∀ (s : State) (off : ℕ) (v : Word) (rest : List Event),
    s.pending = .access (.write (s.params.qfcBase + off) 4 v) :: rest →
    (off ∈ [0x24, 0x28, 0x2C, 0x40, 0x44, 0x48, 0x4C, 0x50, 0x54, 0x58, 0x5C, 0x60, 0x64] →
      step s = .next { s with pending := rest, resp := .accepted }) ∧
    (off = 0x04 → ∃ b, step s = .next { s with
      pending := rest, resp := .accepted, status := { s.status with sticky := b } }) ∧
    (∀ m : Word, (off, m) ∈ [(0x1C, (0x9FFFFFFF : Word)), (0x30, 0x1FFFFFFF), (0x34, 0x0000003F)] →
      step s = step { s with pending := .access (.write (s.params.qfcBase + off) 4 (v &&& m)) :: rest })

/-- R31, R51, R8, R49: no step changes the parameters; NOW changes only when the time source drives it;
the RX answers change only by POLL or the transport. -/
def Obligations.OnlyTheOutsideChangesThePorts : Prop :=
  ∀ s t : State, step s = .next t →
    t.params = s.params ∧
    (t.now ≠ s.now → ∃ v rest, s.pending = .time v :: rest ∧ t.now = v) ∧
    (t.rx ≠ s.rx → (∃ r rest, s.pending = .receive r :: rest ∧ t.rx = s.rx ++ [r]) ∨
      (∃ e rest, s.pending = e :: rest ∧ Spec.isPoll s.params e = true ∧ t.rx = Spec.leftover s.rx))

/-! ### Reset (70_reset_and_hazards.md) -/

/-- R310: the state after reset, register by register; TIME is no state and follows NOW, and the range
ROM is the constant of R140, in no field that reset could change. NOW and the RX queue are unspecified
by the block and not stated. -/
def Obligations.ResetLeavesEveryRegisterAtItsResetValue : Prop :=
  (∀ r : Reg, r ≠ .time → readReg r State.reset = if r = .argTmo then 0x00000258 else 0x00000000) ∧
  (∀ i : BitVec 2, (State.reset.slots.get i).frame = Frame.zero ∧
    (State.reset.slots.get i).ts = 0 ∧ (State.reset.slots.get i).valid = false) ∧
  State.reset.wrptr = 0 ∧
  (∀ v : Word, readReg .time { State.reset with now := v } = v) ∧
  (∀ n, (rangeOf n).width.bits = Spec.rangeBits n ∧ ((rangeOf n).min : ℚ) / 2 ^ 149 = Spec.rangeMin n ∧
    ((rangeOf n).max : ℚ) / 2 ^ 149 = Spec.rangeMax n)

/-- The hardware reset as an event of the model (log 14, DEDUCED from R310): from any state the
registers, the slots and the write pointer take their reset values; NOW, the RX port and the parameters
are not the block's, and the model leaves them. -/
def Obligations.HardwareResetSetsEveryPieceOfState : Prop :=
  ∀ (s : State) (rest : List Event), s.pending = .reset :: rest →
    ∃ t, step s = .next t ∧
      (∀ r : Reg, r ≠ .time → readReg r t = if r = .argTmo then 0x00000258 else 0x00000000) ∧
      (∀ i : BitVec 2, t.slots.get i = ⟨Frame.zero, 0, false⟩) ∧
      t.wrptr = 0 ∧ t.now = s.now ∧ t.rx = s.rx ∧ t.params = s.params ∧ t.pending = rest

/-- R311: without a hardware reset the slots and the write pointer change only by a POLL, and a VALID
slot stays VALID; the telemetry changes only by a successful UNPACK (it leaves ERR = NONE and TELV = 1),
and TELV stays 1; STICKY is cleared only by the write of 1 to STATUS bit 15. -/
def Obligations.OnlyResetClearsTheCacheAndTelemetry : Prop :=
  ∀ s t : State, (∀ rest, s.pending ≠ .reset :: rest) → step s = .next t →
    (t.slots ≠ s.slots ∨ t.wrptr ≠ s.wrptr →
      ∃ e rest, s.pending = e :: rest ∧ Spec.isPoll s.params e = true) ∧
    (∀ i, (s.slots.get i).valid = true → (t.slots.get i).valid = true) ∧
    (t.tel ≠ s.tel → t.status.err = .none ∧ t.status.telv = true ∧ ∃ i rest, Spec.isUnpack i = true ∧
      s.pending = .access (.write s.params.qfcBase 4 (encode i)) :: rest) ∧
    (s.status.telv = true → t.status.telv = true) ∧
    (s.status.sticky = true → t.status.sticky = false → ∃ v rest,
      s.pending = .access (.write (s.params.qfcBase + 0x04) 4 v) :: rest ∧ v.toNat / 2 ^ 15 % 2 = 1)

/-! ### NOP and the quantizer (R260, 40_quantizer.md) -/

/-- R260: the word 0 is NOP; it completes in every state, and changes ERR to NONE and nothing else,
STICKY included. -/
def Obligations.NopClearsErrAndNothingElse : Prop :=
  decode 0x00000000 = .ok .nop ∧
  ∀ s : State, exec .nop s = .next { s with status := { s.status with err := .none } }

/-- R149, R142: QUANT in all six forms: every case of its pseudocode, with the exact code
floor(Qexact + 1/2). -/
def Obligations.QuantFollowsItsPseudocode : Prop :=
  (∀ n, decode (0x10000000 + 0x01000000 * Spec.rangeIndex n) = .ok (Spec.quantInstr n)) ∧
  decode 0x1F000000 = .ok .quantGen ∧
  (∀ (n : RangeName) (s : State),
    Spec.QuantCases s.arg0 (Spec.rangeMin n) (Spec.rangeMax n) (Spec.rangeBits n) s
      (exec (Spec.quantInstr n) s)) ∧
  (∀ s : State,
    (Spec.IsNaN s.arg0 ∨ ¬ Spec.IsFinite s.arg1 ∨ ¬ Spec.IsFinite s.arg2 →
      exec .quantGen s = .next (Spec.raised .nonfinite s)) ∧
    (¬ Spec.IsNaN s.arg0 → Spec.IsFinite s.arg1 → Spec.IsFinite s.arg2 →
      (s.arg3.toNat ≠ 12 → s.arg3.toNat ≠ 16 → exec .quantGen s = .next (Spec.raised .badwidth s)) ∧
      (s.arg3.toNat = 12 ∨ s.arg3.toNat = 16 →
        (Spec.val s.arg2 ≤ Spec.val s.arg1 → exec .quantGen s = .next (Spec.raised .badspan s)) ∧
        (Spec.val s.arg1 < Spec.val s.arg2 →
          Spec.QuantCases s.arg0 (Spec.val s.arg1) (Spec.val s.arg2) s.arg3.toNat s
            (exec .quantGen s)))))

/-- R150, R146: DEQUANT in all six forms: every case of its pseudocode, with the result rne32 of the
exact rational. -/
def Obligations.DequantFollowsItsPseudocode : Prop :=
  (∀ n, decode (0x20000000 + 0x01000000 * Spec.rangeIndex n) = .ok (Spec.dequantInstr n)) ∧
  decode 0x2F000000 = .ok .dequantGen ∧
  (∀ (n : RangeName) (s : State),
    Spec.DequantCases s.arg0.toNat (Spec.rangeMin n) (Spec.rangeMax n) (Spec.rangeBits n) s
      (exec (Spec.dequantInstr n) s)) ∧
  (∀ s : State,
    (¬ Spec.IsFinite s.arg1 ∨ ¬ Spec.IsFinite s.arg2 →
      exec .dequantGen s = .next (Spec.raised .nonfinite s)) ∧
    (Spec.IsFinite s.arg1 → Spec.IsFinite s.arg2 →
      (s.arg3.toNat ≠ 12 → s.arg3.toNat ≠ 16 →
        exec .dequantGen s = .next (Spec.raised .badwidth s)) ∧
      (s.arg3.toNat = 12 ∨ s.arg3.toNat = 16 →
        (Spec.val s.arg2 ≤ Spec.val s.arg1 → exec .dequantGen s = .next (Spec.raised .badspan s)) ∧
        (Spec.val s.arg1 < Spec.val s.arg2 →
          Spec.DequantCases s.arg0.toNat (Spec.val s.arg1) (Spec.val s.arg2) s.arg3.toNat s
            (exec .dequantGen s)))))

/-- R143: in each of the six QUANT forms, over every legal range (the five of R140, and for `gen` any
finite min < max with 12 or 16 bits) a value in the range completes, the code QUANT writes fits its
width, the end points are exact, and the code is monotone in the value. -/
def Obligations.QuantCodesFitAndAreMonotone : Prop :=
  ∀ (r : QuantOperand) (s : State) (mn mx : ℚ) (b : ℕ), Spec.QuantRange r s mn mx b →
    Spec.IsFinite s.arg0 → mn ≤ Spec.val s.arg0 → Spec.val s.arg0 ≤ mx →
    ∃ t, exec (Spec.quantForm r) s = .next t ∧ t.status.err = .none ∧
      t.qres.toNat ≤ 2 ^ b - 1 ∧
      (Spec.val s.arg0 = mn → t.qres.toNat = 0) ∧
      (Spec.val s.arg0 = mx → t.qres.toNat = 2 ^ b - 1) ∧
      (∀ s' t' : State, Spec.QuantRange r s' mn mx b → Spec.IsFinite s'.arg0 →
        Spec.val s.arg0 ≤ Spec.val s'.arg0 → Spec.val s'.arg0 ≤ mx →
        exec (Spec.quantForm r) s' = .next t' → t.qres.toNat ≤ t'.qres.toNat)

/-- R145: on each fixed range Qexact of an in-range binary32 value is an integer plus 1/2 exactly at the
listed inputs, and there QUANT writes the upper neighbour (R142: ties go up). -/
def Obligations.TiesOccurExactlyAtTheListedInputsAndGoUp : Prop :=
  ∀ (n : RangeName) (s : State), Spec.IsFinite s.arg0 →
    Spec.rangeMin n ≤ Spec.val s.arg0 → Spec.val s.arg0 ≤ Spec.rangeMax n →
    ∃ t, exec (Spec.quantInstr n) s = .next t ∧
      ((∃ k : ℤ, Spec.qexact (Spec.val s.arg0) (Spec.rangeMin n) (Spec.rangeMax n)
          (Spec.rangeBits n) = k + 1 / 2) ↔ Spec.val s.arg0 ∈ Spec.tieInputs n) ∧
      (Spec.val s.arg0 ∈ Spec.tieInputs n → (t.qres.toNat : ℚ)
        = Spec.qexact (Spec.val s.arg0) (Spec.rangeMin n) (Spec.rangeMax n) (Spec.rangeBits n)
          + 1 / 2)

/-- R148: a DEQUANT that completes leaves a finite word whose value lies between min and max, in the
fixed forms and in the general form. -/
def Obligations.DequantizedWordsLieInTheirRange : Prop :=
  (∀ (n : RangeName) (s t : State), exec (Spec.dequantInstr n) s = .next t → t.status.err = .none →
    Spec.IsFinite t.dres ∧ Spec.rangeMin n ≤ Spec.val t.dres ∧ Spec.val t.dres ≤ Spec.rangeMax n) ∧
  (∀ s t : State, exec .dequantGen s = .next t → t.status.err = .none →
    Spec.IsFinite t.dres ∧ Spec.val s.arg1 ≤ Spec.val t.dres ∧ Spec.val t.dres ≤ Spec.val s.arg2)

/-- R147: in each of the six QUANT forms, over every legal range (for `gen` any finite min < max with 12
or 16 bits) the code QUANT writes dequantizes exactly to within half a step of the value, and QUANT of
the exact value of a code is that code. -/
def Obligations.QuantRoundTripWithinHalfAStep : Prop :=
  ∀ (r : QuantOperand) (s : State) (mn mx : ℚ) (b : ℕ), Spec.QuantRange r s mn mx b →
    Spec.IsFinite s.arg0 → mn ≤ Spec.val s.arg0 → Spec.val s.arg0 ≤ mx →
    ∃ t, exec (Spec.quantForm r) s = .next t ∧
      |Spec.dequantize t.qres.toNat mn mx b - Spec.val s.arg0| ≤ (mx - mn) / (2 * (2 ^ b - 1)) ∧
      (∀ c : ℕ, c ≤ 2 ^ b - 1 → Spec.val s.arg0 = Spec.dequantize c mn mx b → t.qres.toNat = c)

/-- R147 with R148, through the machine: DEQUANT of a code and then QUANT of the word it wrote give the
code back, on every fixed range. -/
def Obligations.DequantThenQuantGivesTheCodeBack : Prop :=
  ∀ (n : RangeName) (s : State), s.arg0.toNat ≤ 2 ^ Spec.rangeBits n - 1 →
    ∃ t u, exec (Spec.dequantInstr n) s = .next t ∧
      exec (Spec.quantInstr n) { t with arg0 := t.dres } = .next u ∧
      u.qres.toNat = s.arg0.toNat ∧ u.status.err = .none

/-! ### The packer (41_packer.md) -/

/-- R182, R183, R153: PACK: a NaN input raises NONFINITE, then a standard identifier above 0x7FF raises
BADID; otherwise OF_* is ARGID's header with LEN 8 and the payload W of the clamped, quantized inputs. -/
def Obligations.PackFollowsItsPseudocode : Prop :=
  decode 0x30000000 = .ok .pack ∧
  ∀ s : State,
    ((∃ n, Spec.IsNaN (Spec.packInput n s)) → exec .pack s = .next (Spec.raised .nonfinite s)) ∧
    (Spec.NoNaNInput s → ¬ Spec.HeaderLegal s → exec .pack s = .next (Spec.raised .badid s)) ∧
    (Spec.NoNaNInput s → Spec.HeaderLegal s →
      exec .pack s = .next (Spec.completed { s with
        outFrame := Spec.outgoing s (BitVec.ofNat 32 (Spec.packWord s / 2 ^ 32))
          (BitVec.ofNat 32 (Spec.packWord s)) }))

/-- R180: the eight payload bytes of a packed frame, byte by byte. -/
def Obligations.PackedBytesFollowTheWireLayout : Prop :=
  ∀ s : State, Spec.NoNaNInput s → Spec.HeaderLegal s →
    ∃ t, exec .pack s = .next t ∧
      (List.range 8).map (Spec.payloadByte t.outFrame) =
        [Spec.packCode .pos s / 2 ^ 8, Spec.packCode .pos s % 2 ^ 8,
          Spec.packCode .vel s / 2 ^ 4,
          Spec.packCode .vel s % 2 ^ 4 * 2 ^ 4 + Spec.packCode .kp s / 2 ^ 8,
          Spec.packCode .kp s % 2 ^ 8,
          Spec.packCode .kd s / 2 ^ 4,
          Spec.packCode .kd s % 2 ^ 4 * 2 ^ 4 + Spec.packCode .tor s / 2 ^ 8,
          Spec.packCode .tor s % 2 ^ 8] ∧
      Spec.packCode .pos s < 2 ^ 16 ∧ Spec.packCode .vel s < 2 ^ 12 ∧
      Spec.packCode .kp s < 2 ^ 12 ∧ Spec.packCode .kd s < 2 ^ 12 ∧ Spec.packCode .tor s < 2 ^ 12

/-- R184: PACK with an input beyond its range, infinities included, gives the same OF_* and STATUS as
with the nearer bound in that input. -/
def Obligations.PackOfAnOutsideInputEqualsPackOfTheBound : Prop :=
  ∀ (n : RangeName) (s : State) (w : Word),
    ((Spec.IsFinite w ∧ Spec.rangeMax n < Spec.val w) ∨ (Spec.IsInf w ∧ Spec.signOf w = 0) →
      ∃ t u, exec .pack (Spec.withPackInput n w s) = .next t ∧
        exec .pack (Spec.withPackInput n (Spec.maxWord n) s) = .next u ∧
        t.outFrame = u.outFrame ∧ t.status = u.status) ∧
    ((Spec.IsFinite w ∧ Spec.val w < Spec.rangeMin n) ∨ (Spec.IsInf w ∧ Spec.signOf w = 1) →
      ∃ t u, exec .pack (Spec.withPackInput n w s) = .next t ∧
        exec .pack (Spec.withPackInput n (Spec.minWord n) s) = .next u ∧
        t.outFrame = u.outFrame ∧ t.status = u.status)

/-- R186: the three SENT forms: BADID for an illegal header, else the sentinel frame, whatever the
value registers hold. -/
def Obligations.SentBuildsItsSentinelFrame : Prop :=
  decode 0x40000000 = .ok .sentEnter ∧ decode 0x41000000 = .ok .sentStop ∧
  decode 0x42000000 = .ok .sentRezero ∧
  ∀ s : State, ∀ p ∈ [(Instr.sentEnter, (0xFFFFFFFC : Word)), (.sentStop, 0xFFFFFFFD),
      (.sentRezero, 0xFFFFFFFE)],
    (¬ Spec.HeaderLegal s → exec p.1 s = .next (Spec.raised .badid s)) ∧
    (Spec.HeaderLegal s → exec p.1 s = .next (Spec.completed { s with
      outFrame := Spec.outgoing s 0xFFFFFFFF p.2 }))

/-- R187: PACK's payload equals the sentinel with terminal byte 0xFC + j exactly when the four first
codes are at their maximum and T = 0xFFC + j, and that is exactly when the clamped inputs lie in the
listed bands. -/
def Obligations.SentinelCollisionSet : Prop :=
  ∀ s : State, Spec.NoNaNInput s → Spec.HeaderLegal s → ∀ j : ℕ, j < 3 →
    ∃ t, exec .pack s = .next t ∧
      ((t.outFrame.d0 = 0xFFFFFFFF ∧ t.outFrame.d1.toNat = 0xFFFFFFFC + j) ↔
        (Spec.packCode .pos s = 0xFFFF ∧ Spec.packCode .vel s = 0xFFF ∧
          Spec.packCode .kp s = 0xFFF ∧ Spec.packCode .kd s = 0xFFF ∧
          Spec.packCode .tor s = 0xFFC + j)) ∧
      ((t.outFrame.d0 = 0xFFFFFFFF ∧ t.outFrame.d1.toNat = 0xFFFFFFFC + j) ↔
        (524272 / 13107 ≤ Spec.packValue .pos s ∧ 40940 / 819 ≤ Spec.packValue .vel s ∧
          409450 / 819 ≤ Spec.packValue .kp s ∧ 8189 / 1638 ≤ Spec.packValue .kd s ∧
          ((j = 0 ∧ 2920 / 117 ≤ Spec.packValue .tor s ∧ Spec.packValue .tor s < 20450 / 819) ∨
            (j = 1 ∧ 20450 / 819 ≤ Spec.packValue .tor s ∧ Spec.packValue .tor s < 6820 / 273) ∨
            (j = 2 ∧ 6820 / 273 ≤ Spec.packValue .tor s ∧ Spec.packValue .tor s < 20470 / 819))))

/-- R190: UNPACK in both forms: LENGTH unless LEN = 8; else TEL_*, TEL_RAW* and TELV from the codes
W[63:48], W[47:36], W[11:0], whatever ID, EXT, RTR and W[35:12] are. -/
def Obligations.UnpackFollowsItsPseudocode : Prop :=
  decode 0x50000000 = .ok .unpackIf ∧ decode 0x51000000 = .ok .unpackOf ∧
  ∀ s : State, ∀ p ∈ [(Instr.unpackIf, s.inFrame), (.unpackOf, s.outFrame)],
    (p.2.len.toNat ≠ 8 → exec p.1 s = .next (Spec.raised .length s)) ∧
    (p.2.len.toNat = 8 → ∃ x y z : Word,
      Spec.Rne32 (Spec.dequantize (Spec.statusCodes p.2.d0 p.2.d1).1 (-40) 40 16) x ∧
      Spec.Rne32 (Spec.dequantize (Spec.statusCodes p.2.d0 p.2.d1).2.1 (-50) 50 12) y ∧
      Spec.Rne32 (Spec.dequantize (Spec.statusCodes p.2.d0 p.2.d1).2.2 (-25) 25 12) z ∧
      exec p.1 s = .next (Spec.completed { s with
        tel :=
          { pos := x, vel := y, tor := z
            rawPos := BitVec.ofNat 16 (Spec.statusCodes p.2.d0 p.2.d1).1
            rawVel := BitVec.ofNat 12 (Spec.statusCodes p.2.d0 p.2.d1).2.1
            rawTor := BitVec.ofNat 12 (Spec.statusCodes p.2.d0 p.2.d1).2.2 }
        status := { s.status with telv := true } }))

/-- R192: PACK and then `unpack of`: the raw codes are the codes PACK made, each telemetry word is the
rne32 of a value within half a step of its input, and W[35:24], W[23:12] are the kp and kd codes. -/
def Obligations.PackThenUnpackRoundTrip : Prop :=
  ∀ s : State, Spec.NoNaNInput s → Spec.HeaderLegal s →
    (∀ n ∈ [RangeName.pos, .vel, .tor], Spec.IsFinite (Spec.packInput n s) ∧
      Spec.rangeMin n ≤ Spec.val (Spec.packInput n s) ∧
      Spec.val (Spec.packInput n s) ≤ Spec.rangeMax n) →
    ∃ t u, exec .pack s = .next t ∧ exec .unpackOf t = .next u ∧
      u.tel.rawPos.toNat = Spec.packCode .pos s ∧ u.tel.rawVel.toNat = Spec.packCode .vel s ∧
      u.tel.rawTor.toNat = Spec.packCode .tor s ∧
      (∀ p ∈ [(RangeName.pos, u.tel.pos), (.vel, u.tel.vel), (.tor, u.tel.tor)],
        ∃ x : ℚ, Spec.Rne32 x p.2 ∧
          |x - Spec.val (Spec.packInput p.1 s)|
            ≤ (Spec.rangeMax p.1 - Spec.rangeMin p.1) / (2 * (2 ^ Spec.rangeBits p.1 - 1))) ∧
      t.outFrame.d0.toNat % 2 ^ 4 * 2 ^ 8 + t.outFrame.d1.toNat / 2 ^ 24 = Spec.packCode .kp s ∧
      t.outFrame.d1.toNat / 2 ^ 12 % 2 ^ 12 = Spec.packCode .kd s

/-! ### The frame cache (42_cache.md) -/

/-- R220, R221, R223, R224: POLL in both modes. It stores the RX port's answers up to the first none,
at most 4, the j-th in slot WRPTR + j (CYCLIC) or j (RESTART) with the one NOW; the other slots stay;
PCOUNT is their number; the write pointer moves by it in CYCLIC mode only. -/
def Obligations.PollFillsTheCacheInArrivalOrder : Prop :=
  decode 0x60000000 = .ok .poll ∧
  ∀ s : State, ∃ c : Slots,
    exec .poll s = .next (Spec.completed { s with
      slots := c
      rx := Spec.leftover s.rx
      wrptr := Spec.wrptrAfterPoll s
      status := { s.status with pcount := BitVec.ofNat 3 (Spec.received s.rx).length } }) ∧
    (Spec.received s.rx).length ≤ 4 ∧
    (∀ (j : ℕ) (f : Frame), (Spec.received s.rx)[j]? = some f →
      c.get (Spec.pollSlot s j) = ⟨f, s.now, true⟩) ∧
    (∀ j : ℕ, (Spec.received s.rx).length ≤ j → j < 4 →
      c.get (Spec.pollSlot s j) = s.slots.get (Spec.pollSlot s j))

/-- R227: the four RDSLOT forms: a VALID slot's frame and timestamp with FOUND = 1, else ZERO_FRAME, 0
and FOUND = 0; the slot is not changed. -/
def Obligations.RdslotShowsItsSlot : Prop :=
  decode 0x70000000 = .ok .rdslot0 ∧ decode 0x71000000 = .ok .rdslot1 ∧
  decode 0x72000000 = .ok .rdslot2 ∧ decode 0x73000000 = .ok .rdslot3 ∧
  ∀ s : State, ∀ p ∈ [(Instr.rdslot0, s.slots.s0), (.rdslot1, s.slots.s1), (.rdslot2, s.slots.s2),
      (.rdslot3, s.slots.s3)],
    (p.2.valid = true → exec p.1 s = .next (Spec.lookupHit p.2 s)) ∧
    (p.2.valid = false → exec p.1 s = .next (Spec.lookupMiss s))

/-- R228, R226: FIND answers the slot of lowest index that is VALID and whose ID is ARGID.ID, and
ZERO_FRAME, 0 and FOUND = 0 when there is none. -/
def Obligations.FindShowsTheLowestMatch : Prop :=
  decode 0x80000000 = .ok .find ∧
  ∀ s : State,
    (∀ i : BitVec 2, Spec.Matches (s.slots.get i) s.argId.id →
      (∀ j : BitVec 2, j < i → ¬ Spec.Matches (s.slots.get j) s.argId.id) →
      exec .find s = .next (Spec.lookupHit (s.slots.get i) s)) ∧
    ((∀ i : BitVec 2, ¬ Spec.Matches (s.slots.get i) s.argId.id) →
      exec .find s = .next (Spec.lookupMiss s))

/-- R232, R225: the four ONSLOT forms: ONLINE is 1 exactly when the slot is VALID and its age modulo
2^32 is at most 600; nothing else but ERR changes. -/
def Obligations.OnslotComparesTheAgeWith600 : Prop :=
  decode 0x90000000 = .ok .onslot0 ∧ decode 0x91000000 = .ok .onslot1 ∧
  decode 0x92000000 = .ok .onslot2 ∧ decode 0x93000000 = .ok .onslot3 ∧
  ∀ s : State, ∀ p ∈ [(Instr.onslot0, s.slots.s0), (.onslot1, s.slots.s1), (.onslot2, s.slots.s2),
      (.onslot3, s.slots.s3)],
    ∃ b : Bool, (b = true ↔ Spec.Within s.now p.2 600) ∧
      exec p.1 s = .next (Spec.completed { s with status := { s.status with online := b } })

/-- R234, R225, R226: ONID: ONLINE is 1 exactly when some slot matches ARGID.ID and is within ARGTMO;
nothing else but ERR changes. -/
def Obligations.OnidLooksAtEveryMatchingSlot : Prop :=
  decode 0xA0000000 = .ok .onid ∧
  ∀ s : State, ∃ b : Bool,
    (b = true ↔ ∃ i : BitVec 2, Spec.Matches (s.slots.get i) s.argId.id ∧
      Spec.Within s.now (s.slots.get i) s.argTmo.toNat) ∧
    exec .onid s = .next (Spec.completed { s with status := { s.status with online := b } })

/-- R222: a cache that holds what its history of polls says holds, after any step, what the lengthened
history says: in CYCLIC mode the last frame of each residue modulo 4, in RESTART mode frame i of the
latest POLL that took more than i frames. -/
def Obligations.CacheHoldsItsHistory : Prop :=
  ∀ (s t : State) (h : Spec.History), Spec.CacheHolds h s → step s = .next t →
    Spec.CacheHolds (Spec.historyAfter h s) t

/-- R222 at reset: no frame has been stored. -/
def Obligations.ResetCacheHoldsTheEmptyHistory : Prop :=
  Spec.CacheHolds [] State.reset

/-- R222: in CYCLIC mode, once 4 frames have been stored, reading the slots from WRPTR upward, modulo 4,
gives the last 4 frames in arrival order. -/
def Obligations.CyclicSlotsGiveTheLastFourInOrder : Prop :=
  ∀ (s : State) (h : Spec.History), Spec.CacheHolds h s → s.params.wrptrMode = .cyclic →
    4 ≤ h.flatten.length → ∀ j : ℕ, j < 4 →
    ∃ x, h.flatten[h.flatten.length - 4 + j]? = some x ∧
      s.slots.get (s.wrptr + BitVec.ofNat 2 j) = ⟨x.1, x.2, true⟩

/-! ### Pseudo-instructions (30_encoding.md R119) -/

/-- R119: with a pseudo-instruction's lines as the next events, the steps of its lines give the whole
next state: the operands the lines wrote, the last command's effect on them, and for `isonline` and
`quantv` the word of their last read on the bus; so nothing is written but what the expansion writes.
`isonline`'s word is STATUS, whose bit 5 is the ONLINE that R234 gives with R225 and R226. Two points are
the model's choices: the word x that `setvel`'s second line writes is an argument, any word, and the
first line's read answers TEL_POS, the x of the host that R119 describes (log 19, DESIGN CHOICE); and
`quantv` takes all six operands of `quant`, `gen` included (log 20, DESIGN CHOICE). -/
def Obligations.PseudoInstructionsRunTheirLines : Prop :=
  ∀ (s : State) (p v kp kd t id x : Word) (r : QuantOperand) (rest : List Event),
    (s.pending = pseudoSetcmd s.params p v kp kd t id ++ rest → Spec.steps 7 s = exec .pack
      { s with arg0 := p, arg1 := v, arg2 := kp, arg3 := kd, arg4 := t, argId := Spec.argIdOf id
               cmd := 0x30000000, pending := rest, resp := .accepted }) ∧
    (s.pending = pseudoSetpos s.params p kp kd id ++ rest → Spec.steps 7 s = exec .pack
      { s with arg0 := p, arg1 := 0, arg2 := kp, arg3 := kd, arg4 := 0, argId := Spec.argIdOf id
               cmd := 0x30000000, pending := rest, resp := .accepted }) ∧
    (s.pending = pseudoSettor s.params t id ++ rest → Spec.steps 7 s = exec .pack
      { s with arg0 := 0, arg1 := 0, arg2 := 0, arg3 := 0, arg4 := t, argId := Spec.argIdOf id
               cmd := 0x30000000, pending := rest, resp := .accepted }) ∧
    (s.pending = pseudoSetvel s.params x v kd id ++ rest →
      Spec.steps 1 s = .next { s with
        pending := (pseudoSetvel s.params x v kd id).tail ++ rest, resp := .data s.tel.pos } ∧
      Spec.steps 8 s = exec .pack
        { s with arg0 := x, arg1 := v, arg2 := 0, arg3 := kd, arg4 := 0, argId := Spec.argIdOf id
                 cmd := 0x30000000, pending := rest, resp := .accepted }) ∧
    (s.pending = pseudoStart s.params id ++ rest → Spec.steps 2 s = exec .sentEnter
      { s with argId := Spec.argIdOf id, cmd := 0x40000000, pending := rest, resp := .accepted }) ∧
    (s.pending = pseudoStop s.params id ++ rest → Spec.steps 2 s = exec .sentStop
      { s with argId := Spec.argIdOf id, cmd := 0x41000000, pending := rest, resp := .accepted }) ∧
    (s.pending = pseudoRezero s.params id ++ rest → Spec.steps 2 s = exec .sentRezero
      { s with argId := Spec.argIdOf id, cmd := 0x42000000, pending := rest, resp := .accepted }) ∧
    (s.pending = pseudoIsonline s.params id ++ rest → ∃ (on : Bool) (w : Word),
      (on = true ↔ ∃ i : BitVec 2, Spec.Matches (s.slots.get i) (BitVec.ofNat 29 id.toNat) ∧
        Spec.Within s.now (s.slots.get i) 600) ∧
      exec .onid { s with argId := Spec.argIdOf id, argTmo := 600, cmd := 0xA0000000
                          pending := rest, resp := .accepted }
        = .next (Spec.completed { s with
          argId := Spec.argIdOf id, argTmo := 600, cmd := 0xA0000000
          status := { s.status with online := on }, pending := rest, resp := .accepted }) ∧
      Spec.steps 4 s = .next (Spec.completed { s with
        argId := Spec.argIdOf id, argTmo := 600, cmd := 0xA0000000
        status := { s.status with online := on }, pending := rest, resp := .data w }) ∧
      w = readReg .status (Spec.completed { s with status := { s.status with online := on } }) ∧
      w.toNat / 2 ^ 5 % 2 = on.toNat) ∧
    (s.pending = pseudoClrsticky s.params ++ rest → Spec.steps 1 s = .next { s with
      status := { s.status with sticky := false }, pending := rest, resp := .accepted }) ∧
    (s.pending = pseudoQuantv s.params r x ++ rest → ∃ u, exec (Spec.quantForm r)
      { s with arg0 := x, cmd := encode (Spec.quantForm r), resp := .accepted } = .next u ∧
      Spec.steps 3 s = .next { u with pending := rest, resp := .data (0#16 ++ u.qres) })

/-! ### Whole-machine rules -/

/-- R282: a command that raises does nothing but write ERR and STICKY; the next command runs, and
STICKY stays 1. -/
def Obligations.ARaisedErrorChangesOnlyErrAndSticky : Prop :=
  ∀ (i : Instr) (s : State), ∃ t, exec i s = .next t ∧
    (t.status.err ≠ .none → t = Spec.raised t.status.err s ∧
      ∀ j, ∃ u, exec j t = .next u ∧ u.status.sticky = true)

/-- R280, R283: the errors each command can raise once decoded; NOP, POLL, RDSLOT, FIND, ONSLOT and
ONID raise none. -/
def Obligations.EachCommandRaisesOnlyItsOwnErrors : Prop :=
  ∀ (i : Instr) (s t : State), exec i s = .next t → t.status.err ≠ .none →
    t.status.err ∈ Spec.ownErrors i

/-- R52: which command writes which flag: FOUND by RDSLOT and FIND, ONLINE by ONSLOT and ONID, PCOUNT by
POLL, TELV set by UNPACK, STICKY set by a command that raises. -/
def Obligations.FlagsAreWrittenOnlyByTheirCommands : Prop :=
  ∀ (i : Instr) (s t : State), exec i s = .next t →
    (Spec.isLookup i = false → t.status.found = s.status.found) ∧
    (Spec.isLiveness i = false → t.status.online = s.status.online) ∧
    (i ≠ .poll → t.status.pcount = s.status.pcount) ∧
    (t.status.telv ≠ s.status.telv → Spec.isUnpack i = true ∧ t.status.telv = true) ∧
    (t.status.sticky ≠ s.status.sticky → t.status.sticky = true ∧ t.status.err ≠ .none)

/-- R32, R36 to R49: commands write no operand register, and each result register, the cache and the
RX port change only by the commands that name them. -/
def Obligations.RegistersAreWrittenOnlyByTheirCommands : Prop :=
  ∀ (i : Instr) (s t : State), exec i s = .next t →
    t.cmd = s.cmd ∧ t.arg0 = s.arg0 ∧ t.arg1 = s.arg1 ∧ t.arg2 = s.arg2 ∧ t.arg3 = s.arg3 ∧
    t.arg4 = s.arg4 ∧ t.argId = s.argId ∧ t.argTmo = s.argTmo ∧ t.inFrame = s.inFrame ∧
    t.params = s.params ∧ t.now = s.now ∧ t.pending = s.pending ∧ t.resp = s.resp ∧
    (Spec.isQuant i = false → t.qres = s.qres) ∧
    (Spec.isDequant i = false → t.dres = s.dres) ∧
    (Spec.isLookup i = false → t.tsres = s.tsres) ∧
    (Spec.isBuilder i = false → Spec.isLookup i = false → t.outFrame = s.outFrame) ∧
    (Spec.isUnpack i = false → t.tel = s.tel) ∧
    (i ≠ .poll → t.slots = s.slots ∧ t.wrptr = s.wrptr ∧ t.rx = s.rx)

/-- R52: no command reads a flag: with any other STATUS st the same command writes the same everywhere
else, reports the same ERR and writes the same values to the flags it writes (FOUND by RDSLOT and FIND,
ONLINE by ONSLOT and ONID, PCOUNT by POLL, TELV = 1 by an UNPACK without an error, STICKY = 1 with an
error); every other flag is st's. -/
def Obligations.NoCommandReadsAFlag : Prop :=
  ∀ (i : Instr) (s : State) (st : Status), ∃ t,
    exec i s = .next t ∧
    exec i { s with status := st } = .next { t with
      status :=
        { err := t.status.err
          found := if Spec.isLookup i then t.status.found else st.found
          online := if Spec.isLiveness i then t.status.online else st.online
          pcount := if i = .poll then t.status.pcount else st.pcount
          sticky := if t.status.err = .none then st.sticky else true
          telv := if Spec.isUnpack i ∧ t.status.err = .none then true else st.telv } }

/-- R291, R92: a command other than POLL, ONSLOT and ONID does not depend on NOW, and a command other
than POLL does not depend on the RX port: what they hold passes through unchanged. -/
def Obligations.OtherCommandsDoNotSeeTheTimeOrTheTransport : Prop :=
  ∀ (i : Instr) (s : State) (v : Word) (q : List (Option Frame)), i ≠ .poll →
    exec i { s with rx := q } = Spec.mapNext (fun t => { t with rx := q }) (exec i s) ∧
    (Spec.isLiveness i = false →
      exec i { s with now := v } = Spec.mapNext (fun t => { t with now := v }) (exec i s))

/-- The invariant of a run (R34, R43, R45, R47, R48, R154, R190, R221) holds after reset. -/
def Obligations.ResetMeetsTheRunInvariant : Prop := Spec.Inv State.reset

/-- Every step keeps the invariant of a run: from any state that meets it, the next state meets it. -/
def Obligations.EveryStepKeepsTheRunInvariant : Prop :=
  ∀ s t : State, Spec.Inv s → step s = .next t → Spec.Inv t
end

