-- ==== Sys2Proof/Laws/Binary32.lean ====
section
/-! SUPPORT. Readings of binary32 words: the machine's integers against the spec's rationals (R11). -/

namespace Sys2Proof.Machine

open Sys2Proof

theorem expField_eq (w : Word) : expField w = Spec.expOf w := by
  simp [expField, Spec.expOf, BitVec.extractLsb'_toNat, Nat.shiftRight_eq_div_pow]

theorem fracField_eq (w : Word) : fracField w = Spec.fracOf w := by
  simp [fracField, Spec.fracOf, BitVec.extractLsb'_toNat]

theorem signOf_lt (w : Word) : Spec.signOf w < 2 := by
  have := w.isLt
  unfold Spec.signOf; omega

theorem signBit_eq (w : Word) : signBit w = decide (Spec.signOf w = 1) := by
  have h2 := signOf_lt w
  rw [Spec.signOf] at h2 ⊢
  simp only [signBit, BitVec.getLsbD, Nat.testBit_eq_decide_div_mod_eq, Nat.mod_eq_of_lt h2]

theorem value_of_isNaN {w : Word} (h : Spec.IsNaN w) : value w = .nan := by
  simp [value, expField_eq, fracField_eq, h.1, h.2]

theorem value_of_isInf {w : Word} (h : Spec.IsInf w) :
    value w = if Spec.signOf w = 1 then .negInf else .posInf := by
  simp [value, expField_eq, fracField_eq, h.1, h.2, signBit_eq]

theorem value_of_isFinite {w : Word} (h : Spec.IsFinite w) : value w = .fin (finiteVal w) := by
  simp [value, expField_eq, h]

theorem magnitude_cast (w : Word) :
    (magnitude w : ℚ) = if Spec.expOf w = 0 then (Spec.fracOf w : ℚ)
      else (2 ^ 23 + Spec.fracOf w) * 2 ^ (Spec.expOf w - 1) := by
  unfold magnitude
  rw [expField_eq, fracField_eq]
  split <;> push_cast <;> rfl

/-- The integer reading is the spec's rational, in units of 2^-149 (R11). -/
theorem val_eq (w : Word) : Spec.val w = (finiteVal w : ℚ) / 2 ^ 149 := by
  have hs : ((finiteVal w : ℤ) : ℚ) = (-1) ^ Spec.signOf w * (magnitude w : ℚ) := by
    have h2 := signOf_lt w
    have : Spec.signOf w = 0 ∨ Spec.signOf w = 1 := by omega
    rcases this with h | h <;> simp [finiteVal, signBit_eq, h]
  rw [hs, magnitude_cast, Spec.val]
  split_ifs with h
  · rw [zpow_neg, div_eq_mul_inv]; norm_cast
  · have he : ((Spec.expOf w : ℤ) - 150) = ((Spec.expOf w - 1 : ℕ) : ℤ) - 149 := by omega
    rw [he, zpow_sub₀ (by norm_num)]
    rw [zpow_natCast, show (2 : ℚ) ^ (149 : ℤ) = 2 ^ 149 from by norm_cast, mul_div_assoc', mul_assoc]

/-- Comparing readings is comparing values. -/
theorem val_lt_val {w w' : Word} : Spec.val w < Spec.val w' ↔ finiteVal w < finiteVal w' := by
  rw [val_eq, val_eq, div_lt_div_iff_of_pos_right (by positivity)]; exact_mod_cast Iff.rfl

theorem units_cast (k : ℤ) : ((units k : ℤ) : ℚ) / 2 ^ 149 = k := by
  rw [units]; push_cast; exact mul_div_cancel_right₀ _ (by positivity)

/-- The finite range: at most (2^24 - 1) * 2^253 units of 2^-149. -/
def maxFinite : ℕ := (2 ^ 24 - 1) * 2 ^ 253

theorem magnitude_le {w : Word} (h : Spec.IsFinite w) : magnitude w ≤ maxFinite := by
  have hf : fracField w < 2 ^ 23 := by rw [fracField_eq]; exact Nat.mod_lt _ (by norm_num)
  have he : expField w ≤ 254 := by
    rw [expField_eq]
    have : Spec.expOf w < 2 ^ 8 := Nat.mod_lt _ (by norm_num)
    unfold Spec.IsFinite at h
    omega
  unfold magnitude maxFinite
  split_ifs
  · calc fracField w ≤ (2 ^ 24 - 1) * 1 := by omega
      _ ≤ _ := Nat.mul_le_mul_left _ Nat.one_le_two_pow
  · exact Nat.mul_le_mul (by omega) (Nat.pow_le_pow_right (by norm_num) (by omega))

theorem finiteVal_natAbs (w : Word) : (finiteVal w).natAbs = magnitude w := by
  unfold finiteVal; split <;> simp

/-- Comparing two readings is comparing their integers. -/
theorem lt_div_units {a b : ℤ} : (a : ℚ) / 2 ^ 149 < (b : ℚ) / 2 ^ 149 ↔ a < b := by
  rw [div_lt_div_iff_of_pos_right (by positivity)]; exact_mod_cast Iff.rfl

end Sys2Proof.Machine
end

