-- ==== Sys2Proof/Laws/State.lean ====
section
/-! SUPPORT. One lemma per field of State and per named update. -/

namespace Sys2Proof.Machine

open Sys2Proof

@[simp] theorem State.clearErr_cmd (s : State) : (s.clearErr).cmd = s.cmd := rfl
@[simp] theorem State.clearErr_status (s : State) : (s.clearErr).status = { s.status with err := .none } := rfl
@[simp] theorem State.clearErr_arg0 (s : State) : (s.clearErr).arg0 = s.arg0 := rfl
@[simp] theorem State.clearErr_arg1 (s : State) : (s.clearErr).arg1 = s.arg1 := rfl
@[simp] theorem State.clearErr_arg2 (s : State) : (s.clearErr).arg2 = s.arg2 := rfl
@[simp] theorem State.clearErr_arg3 (s : State) : (s.clearErr).arg3 = s.arg3 := rfl
@[simp] theorem State.clearErr_arg4 (s : State) : (s.clearErr).arg4 = s.arg4 := rfl
@[simp] theorem State.clearErr_argId (s : State) : (s.clearErr).argId = s.argId := rfl
@[simp] theorem State.clearErr_argTmo (s : State) : (s.clearErr).argTmo = s.argTmo := rfl
@[simp] theorem State.clearErr_qres (s : State) : (s.clearErr).qres = s.qres := rfl
@[simp] theorem State.clearErr_dres (s : State) : (s.clearErr).dres = s.dres := rfl
@[simp] theorem State.clearErr_tsres (s : State) : (s.clearErr).tsres = s.tsres := rfl
@[simp] theorem State.clearErr_inFrame (s : State) : (s.clearErr).inFrame = s.inFrame := rfl
@[simp] theorem State.clearErr_outFrame (s : State) : (s.clearErr).outFrame = s.outFrame := rfl
@[simp] theorem State.clearErr_tel (s : State) : (s.clearErr).tel = s.tel := rfl
@[simp] theorem State.clearErr_slots (s : State) : (s.clearErr).slots = s.slots := rfl
@[simp] theorem State.clearErr_wrptr (s : State) : (s.clearErr).wrptr = s.wrptr := rfl
@[simp] theorem State.clearErr_params (s : State) : (s.clearErr).params = s.params := rfl
@[simp] theorem State.clearErr_now (s : State) : (s.clearErr).now = s.now := rfl
@[simp] theorem State.clearErr_rx (s : State) : (s.clearErr).rx = s.rx := rfl
@[simp] theorem State.clearErr_pending (s : State) : (s.clearErr).pending = s.pending := rfl
@[simp] theorem State.clearErr_resp (s : State) : (s.clearErr).resp = s.resp := rfl

@[simp] theorem State.setErr_cmd (e : Err) (s : State) : (s.setErr e).cmd = s.cmd := rfl
@[simp] theorem State.setErr_status (e : Err) (s : State) : (s.setErr e).status = { s.status with err := e, sticky := true } := rfl
@[simp] theorem State.setErr_arg0 (e : Err) (s : State) : (s.setErr e).arg0 = s.arg0 := rfl
@[simp] theorem State.setErr_arg1 (e : Err) (s : State) : (s.setErr e).arg1 = s.arg1 := rfl
@[simp] theorem State.setErr_arg2 (e : Err) (s : State) : (s.setErr e).arg2 = s.arg2 := rfl
@[simp] theorem State.setErr_arg3 (e : Err) (s : State) : (s.setErr e).arg3 = s.arg3 := rfl
@[simp] theorem State.setErr_arg4 (e : Err) (s : State) : (s.setErr e).arg4 = s.arg4 := rfl
@[simp] theorem State.setErr_argId (e : Err) (s : State) : (s.setErr e).argId = s.argId := rfl
@[simp] theorem State.setErr_argTmo (e : Err) (s : State) : (s.setErr e).argTmo = s.argTmo := rfl
@[simp] theorem State.setErr_qres (e : Err) (s : State) : (s.setErr e).qres = s.qres := rfl
@[simp] theorem State.setErr_dres (e : Err) (s : State) : (s.setErr e).dres = s.dres := rfl
@[simp] theorem State.setErr_tsres (e : Err) (s : State) : (s.setErr e).tsres = s.tsres := rfl
@[simp] theorem State.setErr_inFrame (e : Err) (s : State) : (s.setErr e).inFrame = s.inFrame := rfl
@[simp] theorem State.setErr_outFrame (e : Err) (s : State) : (s.setErr e).outFrame = s.outFrame := rfl
@[simp] theorem State.setErr_tel (e : Err) (s : State) : (s.setErr e).tel = s.tel := rfl
@[simp] theorem State.setErr_slots (e : Err) (s : State) : (s.setErr e).slots = s.slots := rfl
@[simp] theorem State.setErr_wrptr (e : Err) (s : State) : (s.setErr e).wrptr = s.wrptr := rfl
@[simp] theorem State.setErr_params (e : Err) (s : State) : (s.setErr e).params = s.params := rfl
@[simp] theorem State.setErr_now (e : Err) (s : State) : (s.setErr e).now = s.now := rfl
@[simp] theorem State.setErr_rx (e : Err) (s : State) : (s.setErr e).rx = s.rx := rfl
@[simp] theorem State.setErr_pending (e : Err) (s : State) : (s.setErr e).pending = s.pending := rfl
@[simp] theorem State.setErr_resp (e : Err) (s : State) : (s.setErr e).resp = s.resp := rfl

@[simp] theorem State.setFound_cmd (b : Bool) (s : State) : (s.setFound b).cmd = s.cmd := rfl
@[simp] theorem State.setFound_status (b : Bool) (s : State) : (s.setFound b).status = { s.status with found := b } := rfl
@[simp] theorem State.setFound_arg0 (b : Bool) (s : State) : (s.setFound b).arg0 = s.arg0 := rfl
@[simp] theorem State.setFound_arg1 (b : Bool) (s : State) : (s.setFound b).arg1 = s.arg1 := rfl
@[simp] theorem State.setFound_arg2 (b : Bool) (s : State) : (s.setFound b).arg2 = s.arg2 := rfl
@[simp] theorem State.setFound_arg3 (b : Bool) (s : State) : (s.setFound b).arg3 = s.arg3 := rfl
@[simp] theorem State.setFound_arg4 (b : Bool) (s : State) : (s.setFound b).arg4 = s.arg4 := rfl
@[simp] theorem State.setFound_argId (b : Bool) (s : State) : (s.setFound b).argId = s.argId := rfl
@[simp] theorem State.setFound_argTmo (b : Bool) (s : State) : (s.setFound b).argTmo = s.argTmo := rfl
@[simp] theorem State.setFound_qres (b : Bool) (s : State) : (s.setFound b).qres = s.qres := rfl
@[simp] theorem State.setFound_dres (b : Bool) (s : State) : (s.setFound b).dres = s.dres := rfl
@[simp] theorem State.setFound_tsres (b : Bool) (s : State) : (s.setFound b).tsres = s.tsres := rfl
@[simp] theorem State.setFound_inFrame (b : Bool) (s : State) : (s.setFound b).inFrame = s.inFrame := rfl
@[simp] theorem State.setFound_outFrame (b : Bool) (s : State) : (s.setFound b).outFrame = s.outFrame := rfl
@[simp] theorem State.setFound_tel (b : Bool) (s : State) : (s.setFound b).tel = s.tel := rfl
@[simp] theorem State.setFound_slots (b : Bool) (s : State) : (s.setFound b).slots = s.slots := rfl
@[simp] theorem State.setFound_wrptr (b : Bool) (s : State) : (s.setFound b).wrptr = s.wrptr := rfl
@[simp] theorem State.setFound_params (b : Bool) (s : State) : (s.setFound b).params = s.params := rfl
@[simp] theorem State.setFound_now (b : Bool) (s : State) : (s.setFound b).now = s.now := rfl
@[simp] theorem State.setFound_rx (b : Bool) (s : State) : (s.setFound b).rx = s.rx := rfl
@[simp] theorem State.setFound_pending (b : Bool) (s : State) : (s.setFound b).pending = s.pending := rfl
@[simp] theorem State.setFound_resp (b : Bool) (s : State) : (s.setFound b).resp = s.resp := rfl

@[simp] theorem State.setOnline_cmd (b : Bool) (s : State) : (s.setOnline b).cmd = s.cmd := rfl
@[simp] theorem State.setOnline_status (b : Bool) (s : State) : (s.setOnline b).status = { s.status with online := b } := rfl
@[simp] theorem State.setOnline_arg0 (b : Bool) (s : State) : (s.setOnline b).arg0 = s.arg0 := rfl
@[simp] theorem State.setOnline_arg1 (b : Bool) (s : State) : (s.setOnline b).arg1 = s.arg1 := rfl
@[simp] theorem State.setOnline_arg2 (b : Bool) (s : State) : (s.setOnline b).arg2 = s.arg2 := rfl
@[simp] theorem State.setOnline_arg3 (b : Bool) (s : State) : (s.setOnline b).arg3 = s.arg3 := rfl
@[simp] theorem State.setOnline_arg4 (b : Bool) (s : State) : (s.setOnline b).arg4 = s.arg4 := rfl
@[simp] theorem State.setOnline_argId (b : Bool) (s : State) : (s.setOnline b).argId = s.argId := rfl
@[simp] theorem State.setOnline_argTmo (b : Bool) (s : State) : (s.setOnline b).argTmo = s.argTmo := rfl
@[simp] theorem State.setOnline_qres (b : Bool) (s : State) : (s.setOnline b).qres = s.qres := rfl
@[simp] theorem State.setOnline_dres (b : Bool) (s : State) : (s.setOnline b).dres = s.dres := rfl
@[simp] theorem State.setOnline_tsres (b : Bool) (s : State) : (s.setOnline b).tsres = s.tsres := rfl
@[simp] theorem State.setOnline_inFrame (b : Bool) (s : State) : (s.setOnline b).inFrame = s.inFrame := rfl
@[simp] theorem State.setOnline_outFrame (b : Bool) (s : State) : (s.setOnline b).outFrame = s.outFrame := rfl
@[simp] theorem State.setOnline_tel (b : Bool) (s : State) : (s.setOnline b).tel = s.tel := rfl
@[simp] theorem State.setOnline_slots (b : Bool) (s : State) : (s.setOnline b).slots = s.slots := rfl
@[simp] theorem State.setOnline_wrptr (b : Bool) (s : State) : (s.setOnline b).wrptr = s.wrptr := rfl
@[simp] theorem State.setOnline_params (b : Bool) (s : State) : (s.setOnline b).params = s.params := rfl
@[simp] theorem State.setOnline_now (b : Bool) (s : State) : (s.setOnline b).now = s.now := rfl
@[simp] theorem State.setOnline_rx (b : Bool) (s : State) : (s.setOnline b).rx = s.rx := rfl
@[simp] theorem State.setOnline_pending (b : Bool) (s : State) : (s.setOnline b).pending = s.pending := rfl
@[simp] theorem State.setOnline_resp (b : Bool) (s : State) : (s.setOnline b).resp = s.resp := rfl

@[simp] theorem State.setPcount_cmd (n : Nat) (s : State) : (s.setPcount n).cmd = s.cmd := rfl
@[simp] theorem State.setPcount_status (n : Nat) (s : State) : (s.setPcount n).status = { s.status with pcount := BitVec.ofNat 3 n } := rfl
@[simp] theorem State.setPcount_arg0 (n : Nat) (s : State) : (s.setPcount n).arg0 = s.arg0 := rfl
@[simp] theorem State.setPcount_arg1 (n : Nat) (s : State) : (s.setPcount n).arg1 = s.arg1 := rfl
@[simp] theorem State.setPcount_arg2 (n : Nat) (s : State) : (s.setPcount n).arg2 = s.arg2 := rfl
@[simp] theorem State.setPcount_arg3 (n : Nat) (s : State) : (s.setPcount n).arg3 = s.arg3 := rfl
@[simp] theorem State.setPcount_arg4 (n : Nat) (s : State) : (s.setPcount n).arg4 = s.arg4 := rfl
@[simp] theorem State.setPcount_argId (n : Nat) (s : State) : (s.setPcount n).argId = s.argId := rfl
@[simp] theorem State.setPcount_argTmo (n : Nat) (s : State) : (s.setPcount n).argTmo = s.argTmo := rfl
@[simp] theorem State.setPcount_qres (n : Nat) (s : State) : (s.setPcount n).qres = s.qres := rfl
@[simp] theorem State.setPcount_dres (n : Nat) (s : State) : (s.setPcount n).dres = s.dres := rfl
@[simp] theorem State.setPcount_tsres (n : Nat) (s : State) : (s.setPcount n).tsres = s.tsres := rfl
@[simp] theorem State.setPcount_inFrame (n : Nat) (s : State) : (s.setPcount n).inFrame = s.inFrame := rfl
@[simp] theorem State.setPcount_outFrame (n : Nat) (s : State) : (s.setPcount n).outFrame = s.outFrame := rfl
@[simp] theorem State.setPcount_tel (n : Nat) (s : State) : (s.setPcount n).tel = s.tel := rfl
@[simp] theorem State.setPcount_slots (n : Nat) (s : State) : (s.setPcount n).slots = s.slots := rfl
@[simp] theorem State.setPcount_wrptr (n : Nat) (s : State) : (s.setPcount n).wrptr = s.wrptr := rfl
@[simp] theorem State.setPcount_params (n : Nat) (s : State) : (s.setPcount n).params = s.params := rfl
@[simp] theorem State.setPcount_now (n : Nat) (s : State) : (s.setPcount n).now = s.now := rfl
@[simp] theorem State.setPcount_rx (n : Nat) (s : State) : (s.setPcount n).rx = s.rx := rfl
@[simp] theorem State.setPcount_pending (n : Nat) (s : State) : (s.setPcount n).pending = s.pending := rfl
@[simp] theorem State.setPcount_resp (n : Nat) (s : State) : (s.setPcount n).resp = s.resp := rfl

@[simp] theorem State.setTelv_cmd (s : State) : (s.setTelv).cmd = s.cmd := rfl
@[simp] theorem State.setTelv_status (s : State) : (s.setTelv).status = { s.status with telv := true } := rfl
@[simp] theorem State.setTelv_arg0 (s : State) : (s.setTelv).arg0 = s.arg0 := rfl
@[simp] theorem State.setTelv_arg1 (s : State) : (s.setTelv).arg1 = s.arg1 := rfl
@[simp] theorem State.setTelv_arg2 (s : State) : (s.setTelv).arg2 = s.arg2 := rfl
@[simp] theorem State.setTelv_arg3 (s : State) : (s.setTelv).arg3 = s.arg3 := rfl
@[simp] theorem State.setTelv_arg4 (s : State) : (s.setTelv).arg4 = s.arg4 := rfl
@[simp] theorem State.setTelv_argId (s : State) : (s.setTelv).argId = s.argId := rfl
@[simp] theorem State.setTelv_argTmo (s : State) : (s.setTelv).argTmo = s.argTmo := rfl
@[simp] theorem State.setTelv_qres (s : State) : (s.setTelv).qres = s.qres := rfl
@[simp] theorem State.setTelv_dres (s : State) : (s.setTelv).dres = s.dres := rfl
@[simp] theorem State.setTelv_tsres (s : State) : (s.setTelv).tsres = s.tsres := rfl
@[simp] theorem State.setTelv_inFrame (s : State) : (s.setTelv).inFrame = s.inFrame := rfl
@[simp] theorem State.setTelv_outFrame (s : State) : (s.setTelv).outFrame = s.outFrame := rfl
@[simp] theorem State.setTelv_tel (s : State) : (s.setTelv).tel = s.tel := rfl
@[simp] theorem State.setTelv_slots (s : State) : (s.setTelv).slots = s.slots := rfl
@[simp] theorem State.setTelv_wrptr (s : State) : (s.setTelv).wrptr = s.wrptr := rfl
@[simp] theorem State.setTelv_params (s : State) : (s.setTelv).params = s.params := rfl
@[simp] theorem State.setTelv_now (s : State) : (s.setTelv).now = s.now := rfl
@[simp] theorem State.setTelv_rx (s : State) : (s.setTelv).rx = s.rx := rfl
@[simp] theorem State.setTelv_pending (s : State) : (s.setTelv).pending = s.pending := rfl
@[simp] theorem State.setTelv_resp (s : State) : (s.setTelv).resp = s.resp := rfl

@[simp] theorem State.clearSticky_cmd (s : State) : (s.clearSticky).cmd = s.cmd := rfl
@[simp] theorem State.clearSticky_status (s : State) : (s.clearSticky).status = { s.status with sticky := false } := rfl
@[simp] theorem State.clearSticky_arg0 (s : State) : (s.clearSticky).arg0 = s.arg0 := rfl
@[simp] theorem State.clearSticky_arg1 (s : State) : (s.clearSticky).arg1 = s.arg1 := rfl
@[simp] theorem State.clearSticky_arg2 (s : State) : (s.clearSticky).arg2 = s.arg2 := rfl
@[simp] theorem State.clearSticky_arg3 (s : State) : (s.clearSticky).arg3 = s.arg3 := rfl
@[simp] theorem State.clearSticky_arg4 (s : State) : (s.clearSticky).arg4 = s.arg4 := rfl
@[simp] theorem State.clearSticky_argId (s : State) : (s.clearSticky).argId = s.argId := rfl
@[simp] theorem State.clearSticky_argTmo (s : State) : (s.clearSticky).argTmo = s.argTmo := rfl
@[simp] theorem State.clearSticky_qres (s : State) : (s.clearSticky).qres = s.qres := rfl
@[simp] theorem State.clearSticky_dres (s : State) : (s.clearSticky).dres = s.dres := rfl
@[simp] theorem State.clearSticky_tsres (s : State) : (s.clearSticky).tsres = s.tsres := rfl
@[simp] theorem State.clearSticky_inFrame (s : State) : (s.clearSticky).inFrame = s.inFrame := rfl
@[simp] theorem State.clearSticky_outFrame (s : State) : (s.clearSticky).outFrame = s.outFrame := rfl
@[simp] theorem State.clearSticky_tel (s : State) : (s.clearSticky).tel = s.tel := rfl
@[simp] theorem State.clearSticky_slots (s : State) : (s.clearSticky).slots = s.slots := rfl
@[simp] theorem State.clearSticky_wrptr (s : State) : (s.clearSticky).wrptr = s.wrptr := rfl
@[simp] theorem State.clearSticky_params (s : State) : (s.clearSticky).params = s.params := rfl
@[simp] theorem State.clearSticky_now (s : State) : (s.clearSticky).now = s.now := rfl
@[simp] theorem State.clearSticky_rx (s : State) : (s.clearSticky).rx = s.rx := rfl
@[simp] theorem State.clearSticky_pending (s : State) : (s.clearSticky).pending = s.pending := rfl
@[simp] theorem State.clearSticky_resp (s : State) : (s.clearSticky).resp = s.resp := rfl

@[simp] theorem State.setOut_cmd (f : FrameRegs) (s : State) : (s.setOut f).cmd = s.cmd := rfl
@[simp] theorem State.setOut_status (f : FrameRegs) (s : State) : (s.setOut f).status = s.status := rfl
@[simp] theorem State.setOut_arg0 (f : FrameRegs) (s : State) : (s.setOut f).arg0 = s.arg0 := rfl
@[simp] theorem State.setOut_arg1 (f : FrameRegs) (s : State) : (s.setOut f).arg1 = s.arg1 := rfl
@[simp] theorem State.setOut_arg2 (f : FrameRegs) (s : State) : (s.setOut f).arg2 = s.arg2 := rfl
@[simp] theorem State.setOut_arg3 (f : FrameRegs) (s : State) : (s.setOut f).arg3 = s.arg3 := rfl
@[simp] theorem State.setOut_arg4 (f : FrameRegs) (s : State) : (s.setOut f).arg4 = s.arg4 := rfl
@[simp] theorem State.setOut_argId (f : FrameRegs) (s : State) : (s.setOut f).argId = s.argId := rfl
@[simp] theorem State.setOut_argTmo (f : FrameRegs) (s : State) : (s.setOut f).argTmo = s.argTmo := rfl
@[simp] theorem State.setOut_qres (f : FrameRegs) (s : State) : (s.setOut f).qres = s.qres := rfl
@[simp] theorem State.setOut_dres (f : FrameRegs) (s : State) : (s.setOut f).dres = s.dres := rfl
@[simp] theorem State.setOut_tsres (f : FrameRegs) (s : State) : (s.setOut f).tsres = s.tsres := rfl
@[simp] theorem State.setOut_inFrame (f : FrameRegs) (s : State) : (s.setOut f).inFrame = s.inFrame := rfl
@[simp] theorem State.setOut_outFrame (f : FrameRegs) (s : State) : (s.setOut f).outFrame = f := rfl
@[simp] theorem State.setOut_tel (f : FrameRegs) (s : State) : (s.setOut f).tel = s.tel := rfl
@[simp] theorem State.setOut_slots (f : FrameRegs) (s : State) : (s.setOut f).slots = s.slots := rfl
@[simp] theorem State.setOut_wrptr (f : FrameRegs) (s : State) : (s.setOut f).wrptr = s.wrptr := rfl
@[simp] theorem State.setOut_params (f : FrameRegs) (s : State) : (s.setOut f).params = s.params := rfl
@[simp] theorem State.setOut_now (f : FrameRegs) (s : State) : (s.setOut f).now = s.now := rfl
@[simp] theorem State.setOut_rx (f : FrameRegs) (s : State) : (s.setOut f).rx = s.rx := rfl
@[simp] theorem State.setOut_pending (f : FrameRegs) (s : State) : (s.setOut f).pending = s.pending := rfl
@[simp] theorem State.setOut_resp (f : FrameRegs) (s : State) : (s.setOut f).resp = s.resp := rfl

@[simp] theorem State.setQres_cmd (c : BitVec 16) (s : State) : (s.setQres c).cmd = s.cmd := rfl
@[simp] theorem State.setQres_status (c : BitVec 16) (s : State) : (s.setQres c).status = s.status := rfl
@[simp] theorem State.setQres_arg0 (c : BitVec 16) (s : State) : (s.setQres c).arg0 = s.arg0 := rfl
@[simp] theorem State.setQres_arg1 (c : BitVec 16) (s : State) : (s.setQres c).arg1 = s.arg1 := rfl
@[simp] theorem State.setQres_arg2 (c : BitVec 16) (s : State) : (s.setQres c).arg2 = s.arg2 := rfl
@[simp] theorem State.setQres_arg3 (c : BitVec 16) (s : State) : (s.setQres c).arg3 = s.arg3 := rfl
@[simp] theorem State.setQres_arg4 (c : BitVec 16) (s : State) : (s.setQres c).arg4 = s.arg4 := rfl
@[simp] theorem State.setQres_argId (c : BitVec 16) (s : State) : (s.setQres c).argId = s.argId := rfl
@[simp] theorem State.setQres_argTmo (c : BitVec 16) (s : State) : (s.setQres c).argTmo = s.argTmo := rfl
@[simp] theorem State.setQres_qres (c : BitVec 16) (s : State) : (s.setQres c).qres = c := rfl
@[simp] theorem State.setQres_dres (c : BitVec 16) (s : State) : (s.setQres c).dres = s.dres := rfl
@[simp] theorem State.setQres_tsres (c : BitVec 16) (s : State) : (s.setQres c).tsres = s.tsres := rfl
@[simp] theorem State.setQres_inFrame (c : BitVec 16) (s : State) : (s.setQres c).inFrame = s.inFrame := rfl
@[simp] theorem State.setQres_outFrame (c : BitVec 16) (s : State) : (s.setQres c).outFrame = s.outFrame := rfl
@[simp] theorem State.setQres_tel (c : BitVec 16) (s : State) : (s.setQres c).tel = s.tel := rfl
@[simp] theorem State.setQres_slots (c : BitVec 16) (s : State) : (s.setQres c).slots = s.slots := rfl
@[simp] theorem State.setQres_wrptr (c : BitVec 16) (s : State) : (s.setQres c).wrptr = s.wrptr := rfl
@[simp] theorem State.setQres_params (c : BitVec 16) (s : State) : (s.setQres c).params = s.params := rfl
@[simp] theorem State.setQres_now (c : BitVec 16) (s : State) : (s.setQres c).now = s.now := rfl
@[simp] theorem State.setQres_rx (c : BitVec 16) (s : State) : (s.setQres c).rx = s.rx := rfl
@[simp] theorem State.setQres_pending (c : BitVec 16) (s : State) : (s.setQres c).pending = s.pending := rfl
@[simp] theorem State.setQres_resp (c : BitVec 16) (s : State) : (s.setQres c).resp = s.resp := rfl

@[simp] theorem State.setDres_cmd (w : Word) (s : State) : (s.setDres w).cmd = s.cmd := rfl
@[simp] theorem State.setDres_status (w : Word) (s : State) : (s.setDres w).status = s.status := rfl
@[simp] theorem State.setDres_arg0 (w : Word) (s : State) : (s.setDres w).arg0 = s.arg0 := rfl
@[simp] theorem State.setDres_arg1 (w : Word) (s : State) : (s.setDres w).arg1 = s.arg1 := rfl
@[simp] theorem State.setDres_arg2 (w : Word) (s : State) : (s.setDres w).arg2 = s.arg2 := rfl
@[simp] theorem State.setDres_arg3 (w : Word) (s : State) : (s.setDres w).arg3 = s.arg3 := rfl
@[simp] theorem State.setDres_arg4 (w : Word) (s : State) : (s.setDres w).arg4 = s.arg4 := rfl
@[simp] theorem State.setDres_argId (w : Word) (s : State) : (s.setDres w).argId = s.argId := rfl
@[simp] theorem State.setDres_argTmo (w : Word) (s : State) : (s.setDres w).argTmo = s.argTmo := rfl
@[simp] theorem State.setDres_qres (w : Word) (s : State) : (s.setDres w).qres = s.qres := rfl
@[simp] theorem State.setDres_dres (w : Word) (s : State) : (s.setDres w).dres = w := rfl
@[simp] theorem State.setDres_tsres (w : Word) (s : State) : (s.setDres w).tsres = s.tsres := rfl
@[simp] theorem State.setDres_inFrame (w : Word) (s : State) : (s.setDres w).inFrame = s.inFrame := rfl
@[simp] theorem State.setDres_outFrame (w : Word) (s : State) : (s.setDres w).outFrame = s.outFrame := rfl
@[simp] theorem State.setDres_tel (w : Word) (s : State) : (s.setDres w).tel = s.tel := rfl
@[simp] theorem State.setDres_slots (w : Word) (s : State) : (s.setDres w).slots = s.slots := rfl
@[simp] theorem State.setDres_wrptr (w : Word) (s : State) : (s.setDres w).wrptr = s.wrptr := rfl
@[simp] theorem State.setDres_params (w : Word) (s : State) : (s.setDres w).params = s.params := rfl
@[simp] theorem State.setDres_now (w : Word) (s : State) : (s.setDres w).now = s.now := rfl
@[simp] theorem State.setDres_rx (w : Word) (s : State) : (s.setDres w).rx = s.rx := rfl
@[simp] theorem State.setDres_pending (w : Word) (s : State) : (s.setDres w).pending = s.pending := rfl
@[simp] theorem State.setDres_resp (w : Word) (s : State) : (s.setDres w).resp = s.resp := rfl

@[simp] theorem State.setTsres_cmd (w : Word) (s : State) : (s.setTsres w).cmd = s.cmd := rfl
@[simp] theorem State.setTsres_status (w : Word) (s : State) : (s.setTsres w).status = s.status := rfl
@[simp] theorem State.setTsres_arg0 (w : Word) (s : State) : (s.setTsres w).arg0 = s.arg0 := rfl
@[simp] theorem State.setTsres_arg1 (w : Word) (s : State) : (s.setTsres w).arg1 = s.arg1 := rfl
@[simp] theorem State.setTsres_arg2 (w : Word) (s : State) : (s.setTsres w).arg2 = s.arg2 := rfl
@[simp] theorem State.setTsres_arg3 (w : Word) (s : State) : (s.setTsres w).arg3 = s.arg3 := rfl
@[simp] theorem State.setTsres_arg4 (w : Word) (s : State) : (s.setTsres w).arg4 = s.arg4 := rfl
@[simp] theorem State.setTsres_argId (w : Word) (s : State) : (s.setTsres w).argId = s.argId := rfl
@[simp] theorem State.setTsres_argTmo (w : Word) (s : State) : (s.setTsres w).argTmo = s.argTmo := rfl
@[simp] theorem State.setTsres_qres (w : Word) (s : State) : (s.setTsres w).qres = s.qres := rfl
@[simp] theorem State.setTsres_dres (w : Word) (s : State) : (s.setTsres w).dres = s.dres := rfl
@[simp] theorem State.setTsres_tsres (w : Word) (s : State) : (s.setTsres w).tsres = w := rfl
@[simp] theorem State.setTsres_inFrame (w : Word) (s : State) : (s.setTsres w).inFrame = s.inFrame := rfl
@[simp] theorem State.setTsres_outFrame (w : Word) (s : State) : (s.setTsres w).outFrame = s.outFrame := rfl
@[simp] theorem State.setTsres_tel (w : Word) (s : State) : (s.setTsres w).tel = s.tel := rfl
@[simp] theorem State.setTsres_slots (w : Word) (s : State) : (s.setTsres w).slots = s.slots := rfl
@[simp] theorem State.setTsres_wrptr (w : Word) (s : State) : (s.setTsres w).wrptr = s.wrptr := rfl
@[simp] theorem State.setTsres_params (w : Word) (s : State) : (s.setTsres w).params = s.params := rfl
@[simp] theorem State.setTsres_now (w : Word) (s : State) : (s.setTsres w).now = s.now := rfl
@[simp] theorem State.setTsres_rx (w : Word) (s : State) : (s.setTsres w).rx = s.rx := rfl
@[simp] theorem State.setTsres_pending (w : Word) (s : State) : (s.setTsres w).pending = s.pending := rfl
@[simp] theorem State.setTsres_resp (w : Word) (s : State) : (s.setTsres w).resp = s.resp := rfl

@[simp] theorem State.setTel_cmd (t : Telemetry) (s : State) : (s.setTel t).cmd = s.cmd := rfl
@[simp] theorem State.setTel_status (t : Telemetry) (s : State) : (s.setTel t).status = s.status := rfl
@[simp] theorem State.setTel_arg0 (t : Telemetry) (s : State) : (s.setTel t).arg0 = s.arg0 := rfl
@[simp] theorem State.setTel_arg1 (t : Telemetry) (s : State) : (s.setTel t).arg1 = s.arg1 := rfl
@[simp] theorem State.setTel_arg2 (t : Telemetry) (s : State) : (s.setTel t).arg2 = s.arg2 := rfl
@[simp] theorem State.setTel_arg3 (t : Telemetry) (s : State) : (s.setTel t).arg3 = s.arg3 := rfl
@[simp] theorem State.setTel_arg4 (t : Telemetry) (s : State) : (s.setTel t).arg4 = s.arg4 := rfl
@[simp] theorem State.setTel_argId (t : Telemetry) (s : State) : (s.setTel t).argId = s.argId := rfl
@[simp] theorem State.setTel_argTmo (t : Telemetry) (s : State) : (s.setTel t).argTmo = s.argTmo := rfl
@[simp] theorem State.setTel_qres (t : Telemetry) (s : State) : (s.setTel t).qres = s.qres := rfl
@[simp] theorem State.setTel_dres (t : Telemetry) (s : State) : (s.setTel t).dres = s.dres := rfl
@[simp] theorem State.setTel_tsres (t : Telemetry) (s : State) : (s.setTel t).tsres = s.tsres := rfl
@[simp] theorem State.setTel_inFrame (t : Telemetry) (s : State) : (s.setTel t).inFrame = s.inFrame := rfl
@[simp] theorem State.setTel_outFrame (t : Telemetry) (s : State) : (s.setTel t).outFrame = s.outFrame := rfl
@[simp] theorem State.setTel_tel (t : Telemetry) (s : State) : (s.setTel t).tel = t := rfl
@[simp] theorem State.setTel_slots (t : Telemetry) (s : State) : (s.setTel t).slots = s.slots := rfl
@[simp] theorem State.setTel_wrptr (t : Telemetry) (s : State) : (s.setTel t).wrptr = s.wrptr := rfl
@[simp] theorem State.setTel_params (t : Telemetry) (s : State) : (s.setTel t).params = s.params := rfl
@[simp] theorem State.setTel_now (t : Telemetry) (s : State) : (s.setTel t).now = s.now := rfl
@[simp] theorem State.setTel_rx (t : Telemetry) (s : State) : (s.setTel t).rx = s.rx := rfl
@[simp] theorem State.setTel_pending (t : Telemetry) (s : State) : (s.setTel t).pending = s.pending := rfl
@[simp] theorem State.setTel_resp (t : Telemetry) (s : State) : (s.setTel t).resp = s.resp := rfl

@[simp] theorem storeFrame_cmd (t : Word) (n : Nat) (f : Frame) (s : State) : (storeFrame t n f s).cmd = s.cmd := rfl
@[simp] theorem storeFrame_status (t : Word) (n : Nat) (f : Frame) (s : State) : (storeFrame t n f s).status = s.status := rfl
@[simp] theorem storeFrame_arg0 (t : Word) (n : Nat) (f : Frame) (s : State) : (storeFrame t n f s).arg0 = s.arg0 := rfl
@[simp] theorem storeFrame_arg1 (t : Word) (n : Nat) (f : Frame) (s : State) : (storeFrame t n f s).arg1 = s.arg1 := rfl
@[simp] theorem storeFrame_arg2 (t : Word) (n : Nat) (f : Frame) (s : State) : (storeFrame t n f s).arg2 = s.arg2 := rfl
@[simp] theorem storeFrame_arg3 (t : Word) (n : Nat) (f : Frame) (s : State) : (storeFrame t n f s).arg3 = s.arg3 := rfl
@[simp] theorem storeFrame_arg4 (t : Word) (n : Nat) (f : Frame) (s : State) : (storeFrame t n f s).arg4 = s.arg4 := rfl
@[simp] theorem storeFrame_argId (t : Word) (n : Nat) (f : Frame) (s : State) : (storeFrame t n f s).argId = s.argId := rfl
@[simp] theorem storeFrame_argTmo (t : Word) (n : Nat) (f : Frame) (s : State) : (storeFrame t n f s).argTmo = s.argTmo := rfl
@[simp] theorem storeFrame_qres (t : Word) (n : Nat) (f : Frame) (s : State) : (storeFrame t n f s).qres = s.qres := rfl
@[simp] theorem storeFrame_dres (t : Word) (n : Nat) (f : Frame) (s : State) : (storeFrame t n f s).dres = s.dres := rfl
@[simp] theorem storeFrame_tsres (t : Word) (n : Nat) (f : Frame) (s : State) : (storeFrame t n f s).tsres = s.tsres := rfl
@[simp] theorem storeFrame_inFrame (t : Word) (n : Nat) (f : Frame) (s : State) : (storeFrame t n f s).inFrame = s.inFrame := rfl
@[simp] theorem storeFrame_outFrame (t : Word) (n : Nat) (f : Frame) (s : State) : (storeFrame t n f s).outFrame = s.outFrame := rfl
@[simp] theorem storeFrame_tel (t : Word) (n : Nat) (f : Frame) (s : State) : (storeFrame t n f s).tel = s.tel := rfl
@[simp] theorem storeFrame_slots (t : Word) (n : Nat) (f : Frame) (s : State) : (storeFrame t n f s).slots = s.slots.set (targetSlot s n) ⟨f, t, true⟩ := rfl
@[simp] theorem storeFrame_wrptr (t : Word) (n : Nat) (f : Frame) (s : State) : (storeFrame t n f s).wrptr = nextWrptr s := rfl
@[simp] theorem storeFrame_params (t : Word) (n : Nat) (f : Frame) (s : State) : (storeFrame t n f s).params = s.params := rfl
@[simp] theorem storeFrame_now (t : Word) (n : Nat) (f : Frame) (s : State) : (storeFrame t n f s).now = s.now := rfl
@[simp] theorem storeFrame_rx (t : Word) (n : Nat) (f : Frame) (s : State) : (storeFrame t n f s).rx = s.rx := rfl
@[simp] theorem storeFrame_pending (t : Word) (n : Nat) (f : Frame) (s : State) : (storeFrame t n f s).pending = s.pending := rfl
@[simp] theorem storeFrame_resp (t : Word) (n : Nat) (f : Frame) (s : State) : (storeFrame t n f s).resp = s.resp := rfl

@[simp] theorem hardwareReset_cmd (s : State) : (hardwareReset s).cmd = State.reset.cmd := rfl
@[simp] theorem hardwareReset_status (s : State) : (hardwareReset s).status = State.reset.status := rfl
@[simp] theorem hardwareReset_arg0 (s : State) : (hardwareReset s).arg0 = State.reset.arg0 := rfl
@[simp] theorem hardwareReset_arg1 (s : State) : (hardwareReset s).arg1 = State.reset.arg1 := rfl
@[simp] theorem hardwareReset_arg2 (s : State) : (hardwareReset s).arg2 = State.reset.arg2 := rfl
@[simp] theorem hardwareReset_arg3 (s : State) : (hardwareReset s).arg3 = State.reset.arg3 := rfl
@[simp] theorem hardwareReset_arg4 (s : State) : (hardwareReset s).arg4 = State.reset.arg4 := rfl
@[simp] theorem hardwareReset_argId (s : State) : (hardwareReset s).argId = State.reset.argId := rfl
@[simp] theorem hardwareReset_argTmo (s : State) : (hardwareReset s).argTmo = State.reset.argTmo := rfl
@[simp] theorem hardwareReset_qres (s : State) : (hardwareReset s).qres = State.reset.qres := rfl
@[simp] theorem hardwareReset_dres (s : State) : (hardwareReset s).dres = State.reset.dres := rfl
@[simp] theorem hardwareReset_tsres (s : State) : (hardwareReset s).tsres = State.reset.tsres := rfl
@[simp] theorem hardwareReset_inFrame (s : State) : (hardwareReset s).inFrame = State.reset.inFrame := rfl
@[simp] theorem hardwareReset_outFrame (s : State) : (hardwareReset s).outFrame = State.reset.outFrame := rfl
@[simp] theorem hardwareReset_tel (s : State) : (hardwareReset s).tel = State.reset.tel := rfl
@[simp] theorem hardwareReset_slots (s : State) : (hardwareReset s).slots = State.reset.slots := rfl
@[simp] theorem hardwareReset_wrptr (s : State) : (hardwareReset s).wrptr = State.reset.wrptr := rfl
@[simp] theorem hardwareReset_params (s : State) : (hardwareReset s).params = s.params := rfl
@[simp] theorem hardwareReset_now (s : State) : (hardwareReset s).now = s.now := rfl
@[simp] theorem hardwareReset_rx (s : State) : (hardwareReset s).rx = s.rx := rfl
@[simp] theorem hardwareReset_pending (s : State) : (hardwareReset s).pending = s.pending := rfl
@[simp] theorem hardwareReset_resp (s : State) : (hardwareReset s).resp = s.resp := rfl

end Sys2Proof.Machine
end

