-- ==== Sys2Proof/Laws/Cache.lean ====
section
/-! SUPPORT. The cache slots, the comparators and POLL's loop (42_cache.md). -/

namespace Sys2Proof.Machine

open Sys2Proof

@[simp] theorem Slots.get_zero (c : Slots) : c.get 0#2 = c.s0 := rfl
@[simp] theorem Slots.get_one (c : Slots) : c.get 1#2 = c.s1 := rfl
@[simp] theorem Slots.get_two (c : Slots) : c.get 2#2 = c.s2 := rfl
@[simp] theorem Slots.get_three (c : Slots) : c.get 3#2 = c.s3 := rfl

/-- A slot index is one of four. -/
theorem slotIndex_cases (i : BitVec 2) : i = 0 ∨ i = 1 ∨ i = 2 ∨ i = 3 := by
  revert i; decide

@[simp] theorem Slots.get_set_same (c : Slots) (i : BitVec 2) (x : Slot) : (c.set i x).get i = x := by
  rcases slotIndex_cases i with rfl | rfl | rfl | rfl <;> rfl

theorem Slots.get_set_ne (c : Slots) {i j : BitVec 2} (x : Slot) (h : j ≠ i) :
    (c.set i x).get j = c.get j := by
  rcases slotIndex_cases i with rfl | rfl | rfl | rfl <;>
    rcases slotIndex_cases j with rfl | rfl | rfl | rfl <;> first | rfl | exact absurd rfl h

/-- The comparator is the spec's, on the age modulo 2^32 (R225). -/
theorem within_iff (now : Word) (x : Slot) (t : Word) :
    within now x t = true ↔ Spec.Within now x t.toNat := by
  have h1 := now.isLt
  have h2 := x.ts.isLt
  have e : (age now x).toNat = Spec.ageOf now x := by
    simp only [age, Spec.ageOf, BitVec.toNat_sub]; omega
  simp [within, Spec.Within, BitVec.le_def, e]

/-- The identifier match is the spec's (R226). -/
theorem idMatch_iff (x : Slot) (q : BitVec 29) : idMatch x q = true ↔ Spec.Matches x q := by
  simp [idMatch, Spec.Matches]

/-- The lowest matching slot (R228). -/
theorem firstMatch_some {c : Slots} {q : BitVec 29} {i : BitVec 2} (h : Spec.Matches (c.get i) q)
    (hl : ∀ j, j < i → ¬ Spec.Matches (c.get j) q) : firstMatch c q = some (c.get i) := by
  simp only [← idMatch_iff, Bool.not_eq_true] at h hl
  rcases slotIndex_cases i with rfl | rfl | rfl | rfl
  · simp_all [firstMatch]
  · have h0 := hl 0 (by decide)
    simp_all [firstMatch]
  · have h0 := hl 0 (by decide)
    have h1 := hl 1 (by decide)
    simp_all [firstMatch]
  · have h0 := hl 0 (by decide)
    have h1 := hl 1 (by decide)
    have h2 := hl 2 (by decide)
    simp_all [firstMatch]

theorem firstMatch_none {c : Slots} {q : BitVec 29} (h : ∀ i, ¬ Spec.Matches (c.get i) q) :
    firstMatch c q = none := by
  simp only [← idMatch_iff, Bool.not_eq_true] at h
  have h0 := h 0
  have h1 := h 1
  have h2 := h 2
  have h3 := h 3
  simp_all [firstMatch]

/-- A lookup answers a slot of the cache. -/
theorem firstMatch_mem {c : Slots} {q : BitVec 29} {x : Slot} (h : firstMatch c q = some x) :
    ∃ i, x = c.get i ∧ Spec.Matches (c.get i) q := by
  unfold firstMatch at h
  split_ifs at h with h0 h1 h2 h3
  · exact ⟨0, by simpa using h.symm, (idMatch_iff _ _).1 h0⟩
  · exact ⟨1, by simpa using h.symm, (idMatch_iff _ _).1 h1⟩
  · exact ⟨2, by simpa using h.symm, (idMatch_iff _ _).1 h2⟩
  · exact ⟨3, by simpa using h.symm, (idMatch_iff _ _).1 h3⟩

/-- Some slot matches and is within the timeout (R234). -/
theorem anyOnline_iff (now : Word) (c : Slots) (q : BitVec 29) (t : Word) :
    anyOnline now c q t = true ↔
      ∃ i, Spec.Matches (c.get i) q ∧ Spec.Within now (c.get i) t.toNat := by
  simp only [anyOnline, Bool.or_eq_true, Bool.and_eq_true, idMatch_iff, within_iff]
  constructor
  · rintro (((h | h) | h) | h)
    exacts [⟨0, h⟩, ⟨1, h⟩, ⟨2, h⟩, ⟨3, h⟩]
  · rintro ⟨i, h⟩
    rcases slotIndex_cases i with rfl | rfl | rfl | rfl
    exacts [.inl (.inl (.inl h)), .inl (.inl (.inr h)), .inl (.inr h), .inr h]

/-- Storing a list of frames one after another, the first as the n-th of its POLL. -/
def storeAll (t : Word) : ℕ → List Frame → State → State
  | _, [], s => s
  | n, f :: fs, s => storeAll t (n + 1) fs (storeFrame t n f s)

/-- The answers that a loop of at most `fuel` receives stores. -/
def takeFrames : ℕ → List (Option Frame) → List Frame
  | fuel + 1, some f :: rest => f :: takeFrames fuel rest
  | _, _ => []

/-- The answers that a loop of at most `fuel` receives leaves. -/
def restAnswers : ℕ → List (Option Frame) → List (Option Frame)
  | fuel + 1, some _ :: rest => restAnswers fuel rest
  | _ + 1, none :: rest => rest
  | _, q => q

theorem takeFrames_length (fuel : ℕ) (q : List (Option Frame)) : (takeFrames fuel q).length ≤ fuel := by
  induction fuel generalizing q with
  | zero => simp [takeFrames]
  | succ k ih =>
    rcases q with _ | ⟨_ | f, q⟩
    · simp [takeFrames]
    · simp [takeFrames]
    · simpa [takeFrames] using ih q

/-- The frames a POLL stores are the spec's (R220, R224). -/
theorem takeFrames_four (q : List (Option Frame)) : takeFrames 4 q = Spec.received q := by
  rcases q with _ | ⟨_ | a, _ | ⟨_ | b, _ | ⟨_ | c, _ | ⟨_ | d, q⟩⟩⟩⟩ <;> rfl

theorem restAnswers_four (q : List (Option Frame)) : restAnswers 4 q = Spec.leftover q := by
  rcases q with _ | ⟨_ | a, _ | ⟨_ | b, _ | ⟨_ | c, _ | ⟨_ | d, q⟩⟩⟩⟩ <;> rfl

/-- Receiving touches nothing but the RX port. -/
theorem storeFrame_rx_comm (t : Word) (n : ℕ) (f : Frame) (s : State) (q : List (Option Frame)) :
    storeFrame t n f { s with rx := q } = { storeFrame t n f s with rx := q } := rfl

theorem storeAll_rx (t : Word) (n : ℕ) (fs : List Frame) (s : State) (q : List (Option Frame)) :
    storeAll t n fs { s with rx := q } = { storeAll t n fs s with rx := q } := by
  induction fs generalizing n s with
  | nil => rfl
  | cons f fs ih => simp only [storeAll, storeFrame_rx_comm, ih]

/-- All that POLL's loop does: it stores the answers up to the first none and leaves the rest (R220). -/
theorem drain_eq (t : Word) (fuel n : ℕ) (s : State) :
    drain t fuel n s = (n + (takeFrames fuel s.rx).length,
      { storeAll t n (takeFrames fuel s.rx) s with rx := restAnswers fuel s.rx }) := by
  induction fuel generalizing n s with
  | zero => simp [drain, takeFrames, restAnswers, storeAll]
  | succ k ih =>
    rcases h : s.rx with _ | ⟨_ | f, q⟩
    · simp only [drain, tryReceive, h, takeFrames, restAnswers, storeAll, List.length_nil, Nat.add_zero]
      rw [← h]
    · simp only [drain, tryReceive, h, takeFrames, restAnswers, storeAll, List.length_nil, Nat.add_zero]
    · simp only [drain, tryReceive, h, takeFrames, restAnswers, storeAll, List.length_cons, ih,
        storeFrame_rx_comm, storeAll_rx]
      simp only [Prod.mk.injEq]
      exact ⟨by omega, trivial⟩

/-- The n-th frame's slot counts up with n. -/
theorem targetSlot_storeFrame (t : Word) (n : ℕ) (f : Frame) (s : State) (s0 : State) (k : ℕ)
    (h : targetSlot s k = Spec.pollSlot s0 k) (hp : s.params = s0.params) :
    targetSlot (storeFrame t n f s) (k + 1) = Spec.pollSlot s0 (k + 1) := by
  unfold targetSlot Spec.pollSlot at *
  simp only [storeFrame_params, storeFrame_wrptr, hp] at h ⊢
  unfold nextWrptr
  rw [hp]
  cases hm : s0.params.wrptrMode with
  | cyclic =>
    rw [hm] at h
    simp only at h ⊢
    rw [h, BitVec.add_assoc, BitVec.ofNat_add]
    rfl
  | restart => rfl

/-- Different frames of one POLL go to different slots (R221). -/
theorem pollSlot_inj (s : State) {j k : ℕ} (hj : j < 4) (hk : k < 4)
    (h : Spec.pollSlot s j = Spec.pollSlot s k) : j = k := by
  have h' : BitVec.ofNat 2 j = BitVec.ofNat 2 k := by
    unfold Spec.pollSlot at h
    cases hm : s.params.wrptrMode <;> rw [hm] at h <;> simp only at h
    · exact (BitVec.add_right_inj _).1 h
    · exact h
  have := congrArg BitVec.toNat h'
  simp only [BitVec.toNat_ofNat] at this
  omega

/-- Storing frames touches only the slots and the write pointer. -/
theorem storeAll_eq (t : Word) (n : ℕ) (fs : List Frame) (s : State) :
    storeAll t n fs s =
      { s with slots := (storeAll t n fs s).slots, wrptr := (storeAll t n fs s).wrptr } := by
  induction fs generalizing n s with
  | nil => rfl
  | cons f fs ih =>
    rw [storeAll, ih]
    rfl

/-- The write pointer after storing frames (R48, R220). -/
theorem storeAll_wrptr (t : Word) (n : ℕ) (fs : List Frame) (s : State) :
    (storeAll t n fs s).wrptr = match s.params.wrptrMode with
      | .cyclic => s.wrptr + BitVec.ofNat 2 fs.length
      | .restart => s.wrptr := by
  induction fs generalizing n s with
  | nil => cases h : s.params.wrptrMode <;> simp [storeAll]
  | cons f fs ih =>
    rw [storeAll, ih]
    simp only [storeFrame_params, storeFrame_wrptr, nextWrptr, List.length_cons]
    cases s.params.wrptrMode with
    | cyclic =>
      simp only
      rw [BitVec.add_assoc, Nat.add_comm, BitVec.ofNat_add]
      rfl
    | restart => rfl

/-- The slots after storing the frames of a POLL from its n-th on (R220, R221). -/
theorem storeAll_slots (t : Word) (s0 : State) (n : ℕ) (fs : List Frame) (s : State)
    (ht : targetSlot s n = Spec.pollSlot s0 n) (hp : s.params = s0.params) (hn : n + fs.length ≤ 4)
    {j : ℕ} (hj : j < 4) :
    (storeAll t n fs s).slots.get (Spec.pollSlot s0 j) =
      if h : n ≤ j ∧ j < n + fs.length then ⟨fs[j - n], t, true⟩
      else s.slots.get (Spec.pollSlot s0 j) := by
  induction fs generalizing n s with
  | nil => rw [dif_neg (by simp)]; rfl
  | cons f fs ih =>
    simp only [List.length_cons] at hn
    rw [storeAll, ih (n + 1) _ (targetSlot_storeFrame t n f s s0 n ht hp) (by simpa using hp)
      (by omega)]
    by_cases h1 : n + 1 ≤ j ∧ j < n + 1 + fs.length
    · rw [dif_pos h1, dif_pos ⟨by omega, by simp only [List.length_cons]; omega⟩]
      have : j - n = j - (n + 1) + 1 := by omega
      simp only [this, List.getElem_cons_succ]
    · rw [dif_neg h1, storeFrame_slots, ht]
      by_cases h2 : j = n
      · subst h2
        rw [Slots.get_set_same, dif_pos ⟨le_refl _, by simp only [List.length_cons]; omega⟩]
        simp
      · rw [Slots.get_set_ne _ _ (fun h => h2 (pollSlot_inj s0 hj (by omega) h)), dif_neg]
        simp only [List.length_cons]; omega

/-- All that POLL does (R220). -/
theorem execPoll_eq (s : State) :
    execPoll s = .next (({ storeAll s.now 0 (Spec.received s.rx) s with
      rx := Spec.leftover s.rx }.setPcount (Spec.received s.rx).length).clearErr) := by
  unfold execPoll maxPerPoll
  simp only [drain_eq, takeFrames_four, restAnswers_four, Nat.zero_add]
  rfl

theorem received_length (q : List (Option Frame)) : (Spec.received q).length ≤ 4 := by
  rw [← takeFrames_four]; exact takeFrames_length 4 q

/-- The slots after a POLL (R220, R221). -/
theorem poll_slots (s : State) {j : ℕ} (hj : j < 4) :
    (storeAll s.now 0 (Spec.received s.rx) s).slots.get (Spec.pollSlot s j) =
      if h : j < (Spec.received s.rx).length then ⟨(Spec.received s.rx)[j], s.now, true⟩
      else s.slots.get (Spec.pollSlot s j) := by
  have h0 : targetSlot s 0 = Spec.pollSlot s 0 := by
    unfold targetSlot Spec.pollSlot
    cases s.params.wrptrMode
    · simp
    · rfl
  rw [storeAll_slots s.now s 0 _ s h0 rfl (by simpa using received_length s.rx) hj]
  by_cases h : j < (Spec.received s.rx).length
  · rw [dif_pos ⟨Nat.zero_le _, by omega⟩, dif_pos h]; rfl
  · rw [dif_neg (by omega), dif_neg h]

/-- Storing frames looks at no event, bus response or CMD. -/
theorem storeAll_host (t : Word) (n : ℕ) (fs : List Frame) (s : State) (q : List Event)
    (b : BusResponse) (w : Word) :
    storeAll t n fs { s with pending := q, resp := b, cmd := w }
      = { storeAll t n fs s with pending := q, resp := b, cmd := w } := by
  induction fs generalizing n s with
  | nil => rfl
  | cons f fs ih => simp only [storeAll]; rw [← ih]; rfl

/-- Every slot is the j-th target of a POLL for some j < 4. -/
theorem exists_pollSlot (s : State) (i : BitVec 2) : ∃ j, j < 4 ∧ i = Spec.pollSlot s j := by
  unfold Spec.pollSlot
  cases s.params.wrptrMode with
  | cyclic =>
    refine ⟨(i - s.wrptr).toNat, (i - s.wrptr).isLt, ?_⟩
    simp only
    rw [BitVec.ofNat_toNat, BitVec.setWidth_eq, BitVec.add_comm, BitVec.sub_add_cancel]
  | restart => exact ⟨i.toNat, i.isLt, by simp⟩

/-- Storing frames leaves a VALID slot VALID. -/
theorem storeAll_valid (t : Word) (n : ℕ) (fs : List Frame) (s : State) (i : BitVec 2)
    (h : (s.slots.get i).valid = true) :
    ((storeAll t n fs s).slots.get i).valid = true := by
  induction fs generalizing n s with
  | nil => exact h
  | cons f fs ih =>
    apply ih
    rw [storeFrame_slots]
    by_cases hi : i = targetSlot s n
    · subst hi; rw [Slots.get_set_same]
    · rw [Slots.get_set_ne _ _ hi]; exact h

end Sys2Proof.Machine
end

