-- ==== Sys2Proof/Laws/Decode.lean ====
section
/-! SUPPORT. The fields of a command word and what the decoder's table answers (R110 to R113). -/

namespace Sys2Proof

theorem opField_toNat (w : Word) : (opField w).toNat = w.toNat / 2 ^ 28 := by
  have := w.isLt
  simp only [opField, BitVec.extractLsb'_toNat, Nat.shiftRight_eq_div_pow]
  omega

theorem selField_toNat (w : Word) : (selField w).toNat = w.toNat / 2 ^ 24 % 2 ^ 4 := by
  simp only [selField, BitVec.extractLsb'_toNat, Nat.shiftRight_eq_div_pow]

theorem rsvField_toNat (w : Word) : (rsvField w).toNat = w.toNat % 2 ^ 24 := by
  simp [rsvField, BitVec.extractLsb'_toNat]

/-- A concatenation as a number. -/
theorem append_toNat {m n : ℕ} (x : BitVec m) (y : BitVec n) :
    (x ++ y).toNat = x.toNat * 2 ^ n + y.toNat := by
  rw [BitVec.toNat_append, ← Nat.shiftLeft_add_eq_or_of_lt y.isLt, Nat.shiftLeft_eq]

/-- A word is its fields. -/
theorem word_eq_fields (w : Word) : w = opField w ++ selField w ++ rsvField w := by
  apply BitVec.eq_of_toNat_eq
  rw [append_toNat, append_toNat, opField_toNat, selField_toNat, rsvField_toNat]
  have := w.isLt
  omega

/-- The table answers a command only at the command's own OP and SEL (R112, R113). -/
theorem commandOf_some {o n : ℕ} {i : Instr} (h : commandOf o n = some i) :
    o = i.op.toNat ∧ n = i.sel.toNat := by
  unfold commandOf at h
  split at h <;> first | (cases h; exact ⟨rfl, rfl⟩) | cases h

/-- Every command stands in the table at its OP and SEL. -/
theorem commandOf_self (i : Instr) : commandOf i.op.toNat i.sel.toNat = some i := by
  cases i <;> rfl

/-- Every command's OP is one of 0x0 to 0xA. -/
theorem Instr.op_le (i : Instr) : ¬ 0xA < i.op := by
  cases i <;> decide

/-- What a successful decode says about a word. -/
theorem decode_ok {w : Word} {i : Instr} (h : decode w = .ok i) :
    rsvField w = 0 ∧ opField w = i.op ∧ selField w = i.sel := by
  unfold decode at h
  split at h
  · cases h
  · rename_i h0
    split at h
    · cases h
    · split at h
      · rename_i j hj
        cases h
        obtain ⟨e1, e2⟩ := commandOf_some hj
        exact ⟨not_not.1 h0, BitVec.eq_of_toNat_eq e1, BitVec.eq_of_toNat_eq e2⟩
      · cases h

end Sys2Proof
end

