-- ==== Sys2Proof/Laws/Rne32.lean ====
section
/-! SUPPORT. The machine's rounding is the spec's rne32 on the whole finite range (R11). -/

namespace Sys2Proof.Machine

open Sys2Proof

/-- A rounded quotient is within half of the exact one. -/
theorem roundHalfEven_near (a d : ℕ) (hd : 0 < d) :
    2 * a ≤ 2 * (roundHalfEven a d * d) + d ∧ 2 * (roundHalfEven a d * d) ≤ 2 * a + d := by
  have h := Nat.div_add_mod' a d
  have hm := Nat.mod_lt a hd
  unfold roundHalfEven
  split_ifs with h1 h2
  · constructor <;> omega
  · rw [Nat.add_mul]; constructor <;> omega
  · have : a / d % 2 = 0 ∨ a / d % 2 = 1 := by omega
    rcases this with h0 | h0 <;> rw [h0, Nat.add_mul] <;> constructor <;> omega

/-- At a tie the rounded quotient is even. -/
theorem roundHalfEven_tie (a d : ℕ) (hd : 0 < d)
    (h : 2 * a = 2 * (roundHalfEven a d * d) + d ∨ 2 * (roundHalfEven a d * d) = 2 * a + d) :
    roundHalfEven a d % 2 = 0 := by
  have e := Nat.div_add_mod' a d
  have hm := Nat.mod_lt a hd
  revert h
  unfold roundHalfEven
  split_ifs with h1 h2
  · intro h; omega
  · rw [Nat.add_mul]; intro h; omega
  · intro _; omega

theorem gridStep_spec (t : ℕ) :
    t < 2 ^ (24 + gridStep t) ∧ (gridStep t = 0 ∨ 2 ^ (23 + gridStep t) ≤ t) := by
  unfold gridStep
  rcases Nat.eq_zero_or_pos t with rfl | ht
  · simp
  · have hu : t < 2 ^ (Nat.log2 t + 1) := Nat.lt_log2_self
    have hl : 2 ^ Nat.log2 t ≤ t := Nat.log2_self_le (by omega)
    constructor
    · exact lt_of_lt_of_le hu (Nat.pow_le_pow_right (by norm_num) (by omega))
    · by_cases h : Nat.log2 t ≤ 23
      · left; omega
      · right; rw [show 23 + (Nat.log2 t - 23) = Nat.log2 t from by omega]; exact hl

/-- The significand and step of a rounded magnitude: a 24-bit significand (or its carry), normal
unless the step is 0, nearest among all binary32 magnitudes, even at a tie. -/
theorem rne_core (a d : ℕ) (hd : 0 < d) (sh m : ℕ) (hsh : sh = gridStep (a / d))
    (hm : m = roundHalfEven a (d * 2 ^ sh)) :
    m ≤ 2 ^ 24 ∧ (sh = 0 ∨ 2 ^ 23 ≤ m) ∧
    ∀ f k : ℕ, f < 2 ^ 24 → |(m * 2 ^ sh : ℚ) - a / d| ≤ |(f * 2 ^ k : ℚ) - a / d| ∧
      (f * 2 ^ k ≠ m * 2 ^ sh → |(f * 2 ^ k : ℚ) - a / d| = |(m * 2 ^ sh : ℚ) - a / d| →
        m % 2 = 0) := by
  obtain ⟨hlt, hge⟩ := gridStep_spec (a / d)
  rw [← hsh] at hlt hge
  have hD : 0 < d * 2 ^ sh := by positivity
  obtain ⟨n1, n2⟩ := roundHalfEven_near a _ hD
  have tie := roundHalfEven_tie a _ hD
  rw [← hm] at n1 n2 tie
  set D := d * 2 ^ sh with hDdef
  -- a < 2^24 D, and 2^23 D ≤ a when the step is not 0
  have hA : a < 2 ^ 24 * D := by
    have h1 : a < 2 ^ (24 + sh) * d := (Nat.div_lt_iff_lt_mul hd).1 hlt
    rw [hDdef]; rw [pow_add] at h1; nlinarith [h1]
  have hB : sh = 0 ∨ 2 ^ 23 * D ≤ a := by
    rcases hge with h | h
    · exact .inl h
    · right
      have h1 := (Nat.le_div_iff_mul_le hd).1 h
      rw [hDdef]; rw [pow_add] at h1; nlinarith [h1]
  have hDq : (0 : ℚ) < D := by exact_mod_cast hD
  have hdq : (0 : ℚ) < d := by exact_mod_cast hd
  have hpq : (0 : ℚ) < 2 ^ sh := by positivity
  have hDcast : (D : ℚ) = d * 2 ^ sh := by rw [hDdef]; push_cast; ring
  -- R = a / D, and a / d = R * 2^sh
  have hR : (a : ℚ) / d = a / D * 2 ^ sh := by rw [hDcast]; field_simp
  have q1 : |(m : ℚ) - a / D| ≤ 1 / 2 := by
    have c1 : (2 * a : ℚ) ≤ 2 * (m * D) + D := by exact_mod_cast n1
    have c2 : (2 * (m * D) : ℚ) ≤ 2 * a + D := by exact_mod_cast n2
    have : (a : ℚ) / D * D = a := by field_simp
    rw [abs_le]; constructor <;> nlinarith
  have int_near : ∀ n : ℕ, |(m : ℚ) - a / D| ≤ |(n : ℚ) - a / D| ∧
      (n ≠ m → |(n : ℚ) - a / D| = |(m : ℚ) - a / D| → m % 2 = 0) := by
    intro n
    by_cases hn : n = m
    · subst hn; exact ⟨le_refl _, fun h => absurd rfl h⟩
    · have hdist : (1 : ℚ) ≤ |(n : ℚ) - m| := by
        have : (1 : ℤ) ≤ |(n : ℤ) - m| := Int.one_le_abs (by omega)
        exact_mod_cast this
      have htri : |(n : ℚ) - m| ≤ |(n : ℚ) - a / D| + |(m : ℚ) - a / D| := by
        have := abs_sub_le (n : ℚ) (a / D) m
        rwa [abs_sub_comm (a / D : ℚ) m] at this
      refine ⟨by linarith, fun _ heq => tie ?_⟩
      have hhalf : |(m : ℚ) - a / D| = 1 / 2 := by linarith
      have hmul : (a : ℚ) / D * D = a := by field_simp
      rcases abs_eq (by norm_num : (0:ℚ) ≤ 1/2) |>.1 hhalf with h | h
      · right
        have : (2 * (m * D) : ℚ) = 2 * a + D := by linear_combination (2 * (D:ℚ)) * h + 2 * hmul
        exact_mod_cast this
      · left
        have : (2 * a : ℚ) = 2 * (m * D) + D := by linear_combination (-2 * (D:ℚ)) * h - 2 * hmul
        exact_mod_cast this
  have scale : ∀ x : ℚ, |x * 2 ^ sh - a / d| = |x - a / D| * 2 ^ sh := by
    intro x
    rw [hR, ← sub_mul, abs_mul, abs_of_pos hpq]
  refine ⟨?_, ?_, ?_⟩
  · by_contra h
    have : 2 ^ 24 + 1 ≤ m := by omega
    nlinarith [Nat.mul_le_mul_right D this]
  · rcases hB with h | h
    · exact .inl h
    · right
      by_contra h'
      have : m + 1 ≤ 2 ^ 23 := by omega
      nlinarith [Nat.mul_le_mul_right D this]
  · intro f k hf
    rcases Nat.lt_or_ge k sh with hk | hk
    · -- a finer grid point lies below 2^23 * 2^sh, which is itself no farther
      have hpos : sh ≠ 0 := by omega
      have hB' := hB.resolve_left hpos
      have h23 : (2 ^ 23 : ℚ) ≤ a / D := by
        rw [le_div_iff₀ hDq]; exact_mod_cast hB'
      have hfk : (f * 2 ^ k : ℚ) < 2 ^ 23 * 2 ^ sh := by
        have h1 : f * 2 ^ k < 2 ^ 24 * 2 ^ k := by
          exact Nat.mul_lt_mul_of_pos_right hf (by positivity)
        have h2 : 2 ^ 24 * 2 ^ k ≤ 2 ^ 23 * 2 ^ sh := by
          have : 2 ^ (k + 1) ≤ 2 ^ sh := Nat.pow_le_pow_right (by norm_num) hk
          rw [pow_succ] at this; omega
        exact_mod_cast lt_of_lt_of_le h1 h2
      have near := (int_near (2 ^ 23)).1
      have hAge : (2 ^ 23 * 2 ^ sh : ℚ) ≤ a / d := by
        rw [hR]; exact mul_le_mul_of_nonneg_right h23 hpq.le
      have s1 : |(m * 2 ^ sh : ℚ) - a / d| ≤ |(2 ^ 23 * 2 ^ sh : ℚ) - a / d| := by
        rw [scale, scale]
        refine mul_le_mul_of_nonneg_right ?_ hpq.le
        exact_mod_cast near
      have s2 : |(2 ^ 23 * 2 ^ sh : ℚ) - a / d| < |(f * 2 ^ k : ℚ) - a / d| := by
        rw [abs_of_nonpos (by linarith), abs_of_neg (by linarith)]; linarith
      exact ⟨by linarith, fun _ h => absurd h (by linarith [lt_of_le_of_lt s1 s2])⟩
    · obtain ⟨j, rfl⟩ := Nat.exists_eq_add_of_le hk
      have hc : (f * 2 ^ (sh + j) : ℚ) = ((f * 2 ^ j : ℕ) : ℚ) * 2 ^ sh := by
        push_cast; rw [pow_add]; ring
      have near := int_near (f * 2 ^ j)
      rw [hc, scale, scale]
      refine ⟨mul_le_mul_of_nonneg_right near.1 hpq.le, fun hne heq => near.2 ?_ ?_⟩
      · intro h; apply hne; rw [← h, pow_add]; ring
      · exact mul_right_cancel₀ hpq.ne' heq

/-- A finite word's magnitude is a significand below 2^24 times a power of 2. -/
theorem magnitude_form (w : Word) : ∃ f k : ℕ, f < 2 ^ 24 ∧ magnitude w = f * 2 ^ k := by
  have hf : fracField w < 2 ^ 23 := by rw [fracField_eq]; exact Nat.mod_lt _ (by norm_num)
  unfold magnitude
  split_ifs
  · exact ⟨fracField w, 0, by omega, by simp⟩
  · exact ⟨2 ^ 23 + fracField w, expField w - 1, by omega, rfl⟩

/-- The fields of a word put together from a sign and 31 low bits. -/
theorem signed_word_fields (neg : Bool) (b : ℕ) (hb : b < 2 ^ 31) (w : Word)
    (hw : w = (if neg then 0x80000000#32 else 0#32) ||| BitVec.ofNat 32 b) :
    Spec.signOf w = neg.toNat ∧ Spec.expOf w = b / 2 ^ 23 ∧ Spec.fracOf w = b % 2 ^ 23 := by
  have hn : w.toNat = neg.toNat * 2 ^ 31 + b := by
    subst hw
    have h31 : b % 2 ^ 32 = b := Nat.mod_eq_of_lt (by omega)
    cases neg
    · simp; omega
    · simp only [if_true, BitVec.toNat_or, BitVec.toNat_ofNat, h31, Bool.toNat_true]
      have := Nat.two_pow_add_eq_or_of_lt hb 1
      norm_num at this ⊢
      exact this.symm
  have hneg : neg.toNat ≤ 1 := by cases neg <;> simp
  refine ⟨?_, ?_, ?_⟩ <;> simp only [Spec.signOf, Spec.expOf, Spec.fracOf, hn] <;> omega

/-- The fields that a significand and a step give; a significand of 2^24 carries. -/
theorem step_fields (sh m : ℕ) (h24 : m ≤ 2 ^ 24) (h23 : sh = 0 ∨ 2 ^ 23 ≤ m) (b : ℕ)
    (hb : b = sh * 2 ^ 23 + m) :
    (if b / 2 ^ 23 = 0 then b % 2 ^ 23 else (2 ^ 23 + b % 2 ^ 23) * 2 ^ (b / 2 ^ 23 - 1))
      = m * 2 ^ sh ∧ b % 2 ^ 23 % 2 = m % 2 := by
  subst hb
  have hp : sh * 2 ^ 23 + m % 2 ^ 23 + m / 2 ^ 23 * 2 ^ 23 = sh * 2 ^ 23 + m := by omega
  have hm : (sh * 2 ^ 23 + m) % 2 ^ 23 = m % 2 ^ 23 := by omega
  have hd : (sh * 2 ^ 23 + m) / 2 ^ 23 = sh + m / 2 ^ 23 := by omega
  rw [hm, hd]
  refine ⟨?_, by omega⟩
  rcases Nat.lt_or_ge m (2 ^ 23) with h | h
  · have h0 : sh = 0 := by omega
    subst h0
    have : m / 2 ^ 23 = 0 := by omega
    rw [if_pos (by omega), pow_zero, mul_one, Nat.mod_eq_of_lt h]
  · rcases Nat.lt_or_ge m (2 ^ 24) with h' | h'
    · have h1 : m / 2 ^ 23 = 1 := by omega
      have h2 : m % 2 ^ 23 = m - 2 ^ 23 := by omega
      rw [if_neg (by omega), h1, h2, Nat.add_sub_cancel, Nat.add_sub_cancel' h]
    · have h1 : m / 2 ^ 23 = 2 := by omega
      have h2 : m % 2 ^ 23 = 0 := by omega
      have h3 : m = 2 ^ 24 := by omega
      rw [if_neg (by omega), h1, h2, h3, show sh + 2 - 1 = sh + 1 from rfl, pow_succ]
      ring

theorem rneMagnitude_lt (a d : ℕ) (hd : 0 < d) (h : a ≤ maxFinite * d) :
    rneMagnitude a d < 255 * 2 ^ 23 := by
  obtain ⟨hlt, hge⟩ := gridStep_spec (a / d)
  obtain ⟨h24, -, -⟩ := rne_core a d hd _ _ rfl rfl
  have ht : a / d ≤ maxFinite := by
    rw [Nat.div_le_iff_le_mul_add_pred hd]; rw [mul_comm d]; omega
  have hsh : gridStep (a / d) ≤ 253 := by
    rcases hge with h0 | h0
    · omega
    · by_contra hc
      have h1 : 2 ^ 254 ≤ 2 ^ gridStep (a / d) := Nat.pow_le_pow_right (by norm_num) (by omega)
      have h2 : maxFinite < 2 ^ 23 * 2 ^ gridStep (a / d) :=
        lt_of_lt_of_le (by norm_num [maxFinite]) (Nat.mul_le_mul_left _ h1)
      rw [pow_add] at h0
      exact absurd (h0.trans ht) (not_le.2 h2)
  unfold rneMagnitude
  rcases Nat.lt_or_ge (gridStep (a / d)) 253 with hs | hs
  · omega
  · have h253 : gridStep (a / d) = 253 := by omega
    rw [h253] at h24 ⊢
    have : roundHalfEven a (d * 2 ^ 253) ≤ 2 ^ 24 - 1 := by
      have hD : 0 < d * 2 ^ 253 := by positivity
      have n2 := (roundHalfEven_near a _ hD).2
      by_contra hc
      have hge : 2 ^ 24 ≤ roundHalfEven a (d * 2 ^ 253) := by omega
      have h1 := Nat.mul_le_mul_right (d * 2 ^ 253) hge
      have h2 : a ≤ (2 ^ 24 - 1) * (d * 2 ^ 253) := by
        calc a ≤ maxFinite * d := h
          _ = _ := by unfold maxFinite; ring
      omega
    omega

/-- rne32 is the spec's rne32 on the finite range (R11). -/
theorem rne32_spec (num : ℤ) (den : ℕ) (hd : 0 < den) (h : num.natAbs ≤ maxFinite * den) :
    Spec.Rne32 ((num : ℚ) / den / 2 ^ 149) (rne32 num den) := by
  set a := num.natAbs with ha
  set sh := gridStep (a / den) with hsh
  set m := roundHalfEven a (den * 2 ^ sh) with hm
  obtain ⟨h24, h23, near⟩ := rne_core a den hd sh m hsh hm
  have hlt : sh * 2 ^ 23 + m < 255 * 2 ^ 23 := rneMagnitude_lt a den hd h
  have hw : rne32 num den = (if decide (num < 0) then 0x80000000#32 else 0#32)
      ||| BitVec.ofNat 32 (sh * 2 ^ 23 + m) := by
    simp only [rne32, decide_eq_true_eq]; rfl
  obtain ⟨fs, fe, ff⟩ := signed_word_fields (decide (num < 0)) (sh * 2 ^ 23 + m) (by omega) _ hw
  obtain ⟨hmag, hpar⟩ := step_fields sh m h24 h23 _ rfl
  have hmagw : magnitude (rne32 num den) = m * 2 ^ sh := by
    rw [magnitude, expField_eq, fracField_eq, fe, ff, hmag]
  have hfin : Spec.IsFinite (rne32 num den) := by
    rw [Spec.IsFinite, fe]; omega
  -- in units: the result's value u and the exact X
  have hp : (0 : ℚ) < 2 ^ 149 := by positivity
  have scale : ∀ w' : Word, |Spec.val w' - (num : ℚ) / den / 2 ^ 149|
      = |(finiteVal w' : ℚ) - num / den| / 2 ^ 149 := by
    intro w'
    rw [val_eq, ← sub_div, abs_div, abs_of_pos hp]
  have habs : |(num : ℚ) / den| = a / den := by
    rw [abs_div, abs_of_pos (by exact_mod_cast hd : (0:ℚ) < den), ha, Nat.cast_natAbs]; push_cast; rfl
  have hu : |(finiteVal (rne32 num den) : ℚ) - num / den| = |(m * 2 ^ sh : ℚ) - a / den| := by
    have hdq : (0:ℚ) < den := by exact_mod_cast hd
    rcases lt_or_ge num 0 with hn | hn
    · have e1 : (finiteVal (rne32 num den) : ℚ) = -(m * 2 ^ sh) := by
        simp [finiteVal, signBit_eq, fs, hn, hmagw]
      have e2 : (num : ℚ) / den = -(a / den) := by
        rw [← habs, abs_of_neg (div_neg_of_neg_of_pos (by exact_mod_cast hn) hdq), neg_neg]
      rw [e1, e2, ← abs_neg]; congr 1; ring
    · have e1 : (finiteVal (rne32 num den) : ℚ) = m * 2 ^ sh := by
        simp [finiteVal, signBit_eq, fs, not_lt.2 hn, hmagw]
      have e2 : (num : ℚ) / den = a / den := by
        rw [← habs, abs_of_nonneg (div_nonneg (by exact_mod_cast hn) hdq.le)]
      rw [e1, e2]
  have hg : ∀ w' : Word, |(finiteVal w' : ℚ)| = magnitude w' := by
    intro w'; unfold finiteVal; split <;> simp
  have rev : ∀ w' : Word, |(magnitude w' : ℚ) - a / den| ≤ |(finiteVal w' : ℚ) - num / den| := by
    intro w'; rw [← hg, ← habs]; exact abs_abs_sub_abs_le_abs_sub _ _
  refine ⟨hfin, ?_, ?_, ?_⟩
  · intro w' _
    rw [scale, scale]
    refine div_le_div_of_nonneg_right ?_ hp.le
    obtain ⟨f, k, hf, hfk⟩ := magnitude_form w'
    have h1 := (near f k hf).1
    have h2 := rev w'
    rw [hfk] at h2; push_cast at h2
    rw [hu]; linarith
  · intro w' _ hne heq
    rw [ff, hpar]
    rw [scale, scale, div_left_inj' hp.ne', hu] at heq
    obtain ⟨f, k, hf, hfk⟩ := magnitude_form w'
    have h1 := near f k hf
    have h2 := rev w'
    have hfkq : (magnitude w' : ℚ) = f * 2 ^ k := by rw [hfk]; push_cast; rfl
    rw [hfkq] at h2
    by_cases hmm : f * 2 ^ k = m * 2 ^ sh
    · -- same magnitude, other sign: then the exact value is 0
      exfalso
      have hww : (magnitude w' : ℚ) = magnitude (rne32 num den) := by
        rw [hfk, hmagw]; exact_mod_cast hmm
      have hopp : (finiteVal w' : ℚ) = -finiteVal (rne32 num den) := by
        have hne' : finiteVal w' ≠ finiteVal (rne32 num den) := by
          intro hc; apply hne; rw [val_eq, val_eq, hc]
        have : magnitude w' = magnitude (rne32 num den) := by exact_mod_cast hww
        unfold finiteVal at hne' ⊢
        rw [this] at hne' ⊢
        split_ifs at hne' ⊢ <;> simp_all
      have hne0 : (finiteVal (rne32 num den) : ℚ) ≠ 0 := by
        intro hc; apply hne; rw [val_eq, val_eq, hopp, hc]; simp
      rw [← hu, hopp] at heq
      have hX : (num : ℚ) / den = 0 := by
        rcases abs_eq_abs.1 heq with e | e
        · exfalso; apply hne0; linarith
        · linarith
      have hnum : num = 0 := by
        have hdq : (den : ℚ) ≠ 0 := by exact_mod_cast hd.ne'
        rcases div_eq_zero_iff.1 hX with e | e
        · exact_mod_cast e
        · exact absurd e hdq
      apply hne0
      subst hnum
      simp [finiteVal, signBit_eq, hmagw, hm, ha, roundHalfEven, hd]
    · refine h1.2 hmm ?_
      linarith [h1.1]
  · intro hq
    have hnum : num = 0 := by
      have hdq : (den : ℚ) ≠ 0 := by exact_mod_cast hd.ne'
      rcases div_eq_zero_iff.1 hq with e | e
      · rcases div_eq_zero_iff.1 e with e | e
        · exact_mod_cast e
        · exact absurd e hdq
      · exact absurd e hp.ne'
    subst hnum
    simp [rne32, rneMagnitude, gridStep, roundHalfEven, hd]

end Sys2Proof.Machine
end

