-- ==== Sys2Proof/Laws/Quantizer.lean ====
section
/-! SUPPORT. The quantizer's arithmetic against the spec's formulas (R142, R146, R148), and what each
command of the quantizer can do. -/

namespace Sys2Proof.Machine

open Sys2Proof

/-- roundHalfUp is the spec's floor(q + 1/2) (R11). -/
theorem roundHalfUp_eq (num den : ℤ) (h : 0 < den) :
    roundHalfUp num den = ⌊(num : ℚ) / den + 1 / 2⌋ := by
  have hd : (0 : ℚ) < den := by exact_mod_cast h
  have : (num : ℚ) / den + 1 / 2 = ((2 * num + den : ℤ) : ℚ) / ((2 * den : ℤ) : ℚ) := by
    push_cast; field_simp
  rw [this, roundHalfUp]
  have h2 : (0:ℤ) < 2 * den := by omega
  obtain ⟨m, hm⟩ : ∃ m : ℕ, 2 * den = m := ⟨(2 * den).toNat, by omega⟩
  rw [hm]
  exact_mod_cast (Rat.floor_intCast_div_natCast (2 * num + den) m).symm

/-- The rational a reading stands for. -/
theorem quantize_eq (v : ℤ) (r : QRange) (h : r.min < r.max) :
    quantize v r = Spec.quantize ((v : ℚ) / 2 ^ 149) ((r.min : ℚ) / 2 ^ 149)
      ((r.max : ℚ) / 2 ^ 149) r.width.bits := by
  have hd : 0 < r.max - r.min := by omega
  have hc : ((r.width.maxCode : ℕ) : ℚ) = 2 ^ r.width.bits - 1 := by
    cases r.width <;> norm_num [Width.maxCode, Width.bits]
  have hq : (0 : ℚ) < r.max - r.min := by exact_mod_cast hd
  rw [quantize, roundHalfUp_eq _ _ hd, Spec.quantize, Spec.qexact]
  congr 2
  push_cast
  rw [hc]
  field_simp

/-- The rational bounds of a machine range. -/
theorem range_min (n : RangeName) : ((rangeOf n).min : ℚ) / 2 ^ 149 = Spec.rangeMin n := by
  cases n <;> simp only [rangeOf, Spec.rangeMin, units_cast] <;> norm_num

theorem range_max (n : RangeName) : ((rangeOf n).max : ℚ) / 2 ^ 149 = Spec.rangeMax n := by
  cases n <;> simp only [rangeOf, Spec.rangeMax, units_cast] <;> norm_num

theorem range_bits (n : RangeName) : (rangeOf n).width.bits = Spec.rangeBits n := by
  cases n <;> rfl

theorem range_lt (n : RangeName) : (rangeOf n).min < (rangeOf n).max := by
  cases n <;> decide

/-- On a fixed range the machine's code is the spec's (R142). -/
theorem quantize_range (v : ℤ) (n : RangeName) :
    quantize v (rangeOf n) =
      Spec.quantize ((v : ℚ) / 2 ^ 149) (Spec.rangeMin n) (Spec.rangeMax n) (Spec.rangeBits n) := by
  rw [quantize_eq _ _ (range_lt n), range_min, range_max, range_bits]

/-- A dequantized word is the spec's rne32 of the exact result, whatever the finite bounds (R146, R148). -/
theorem dequantizeWord_spec (c : ℕ) (r : QRange) (hc : c ≤ r.width.maxCode)
    (h1 : r.min.natAbs ≤ maxFinite) (h2 : r.max.natAbs ≤ maxFinite) :
    Spec.Rne32 (Spec.dequantize c ((r.min : ℚ) / 2 ^ 149) ((r.max : ℚ) / 2 ^ 149) r.width.bits)
      (dequantizeWord c r) := by
  have hM : 0 < r.width.maxCode := by cases r.width <;> decide
  have hbits : ((r.width.maxCode : ℕ) : ℚ) = 2 ^ r.width.bits - 1 := by
    cases r.width <;> norm_num [Width.maxCode, Width.bits]
  have hb : (dequantizeNum c r).natAbs ≤ maxFinite * r.width.maxCode := by
    obtain ⟨k, hk⟩ := Nat.exists_eq_add_of_le hc
    have e : dequantizeNum c r = c * r.max + k * r.min := by
      rw [dequantizeNum, hk]; push_cast; ring
    rw [e]
    calc (c * r.max + k * r.min : ℤ).natAbs ≤ c * r.max.natAbs + k * r.min.natAbs := by
          refine (Int.natAbs_add_le _ _).trans ?_
          simp [Int.natAbs_mul]
      _ ≤ c * maxFinite + k * maxFinite :=
          Nat.add_le_add (Nat.mul_le_mul_left _ h2) (Nat.mul_le_mul_left _ h1)
      _ = maxFinite * r.width.maxCode := by rw [hk]; ring
  have h := rne32_spec (dequantizeNum c r) r.width.maxCode hM hb
  have e : ((dequantizeNum c r : ℤ) : ℚ) / r.width.maxCode / 2 ^ 149
      = Spec.dequantize c ((r.min : ℚ) / 2 ^ 149) ((r.max : ℚ) / 2 ^ 149) r.width.bits := by
    have hMq : ((r.width.maxCode : ℕ) : ℚ) ≠ 0 := by exact_mod_cast hM.ne'
    rw [Spec.dequantize, ← hbits, dequantizeNum]
    push_cast
    field_simp
  rw [e] at h
  exact h

/-- The same on a fixed range. -/
theorem dequantizeWord_range (c : ℕ) (n : RangeName) (hc : c ≤ (rangeOf n).width.maxCode) :
    Spec.Rne32 (Spec.dequantize c (Spec.rangeMin n) (Spec.rangeMax n) (Spec.rangeBits n))
      (dequantizeWord c (rangeOf n)) := by
  have h := dequantizeWord_spec c (rangeOf n) hc (by cases n <;> decide) (by cases n <;> decide)
  rwa [range_min, range_max, range_bits] at h

/-- What the general form's checks answer (R149, R150): a finite pair of bounds in order, and a defined width. -/
theorem generalRange_ok {s : State} {r : QRange} (h : generalRange s = .ok r) :
    value s.arg1 = .fin r.min ∧ value s.arg2 = .fin r.max ∧ widthOf s.arg3 = some r.width ∧
      r.min < r.max := by
  unfold generalRange at h
  split at h
  · rename_i mn mx e1 e2
    split at h
    · cases h
    · rename_i b e3
      split at h
      · cases h
      · rename_i hlt
        cases h
        exact ⟨e1, e2, e3, not_le.1 hlt⟩
  · cases h

/-- What the end of QUANT can do. -/
theorem quantInto_cases (v : Value) (r : QRange) (s : State) :
    (v = .nan ∧ quantInto v r s = .next (s.setErr .nonfinite)) ∨
    (quantInto v r s = .next (s.setErr .outrange)) ∨
    (∃ n, v = .fin n ∧ r.min ≤ n ∧ n ≤ r.max ∧
      quantInto v r s = .next (s.setQres (BitVec.ofInt 16 (quantize n r))).clearErr) := by
  cases v with
  | nan => exact .inl ⟨rfl, rfl⟩
  | negInf => exact .inr (.inl rfl)
  | posInf => exact .inr (.inl rfl)
  | fin n =>
    by_cases h : n < r.min ∨ r.max < n
    · exact .inr (.inl (by simp only [quantInto, if_pos h]; rfl))
    · refine .inr (.inr ⟨n, rfl, by omega, by omega, ?_⟩)
      simp only [quantInto, if_neg h]; rfl

/-- What the end of DEQUANT can do. -/
theorem dequantInto_cases (r : QRange) (s : State) :
    (r.width.maxCode < s.arg0.toNat ∧ dequantInto r s = .next (s.setErr .badcode)) ∨
    (s.arg0.toNat ≤ r.width.maxCode ∧
      dequantInto r s = .next (s.setDres (dequantizeWord s.arg0.toNat r)).clearErr) := by
  unfold dequantInto
  split_ifs with h
  · exact .inl ⟨h, rfl⟩
  · exact .inr ⟨not_lt.1 h, rfl⟩

/-- The dispatch of the QUANT forms. -/
theorem exec_quantInstr (n : RangeName) (s : State) : exec (Spec.quantInstr n) s = quantFixed n s := by
  cases n <;> rfl

/-- The dispatch of the DEQUANT forms. -/
theorem exec_dequantInstr (n : RangeName) (s : State) : exec (Spec.dequantInstr n) s = dequantFixed n s := by
  cases n <;> rfl

/-- The NaN test is the spec's (R11). -/
theorem isNaN_iff (w : Word) : isNaN w = true ↔ Spec.IsNaN w := by
  unfold isNaN
  constructor
  · intro h
    by_contra hn
    rcases eq_or_ne (Spec.expOf w) 0xFF with he | he
    · have : Spec.IsInf w := ⟨he, by by_contra hf; exact hn ⟨he, hf⟩⟩
      rw [value_of_isInf this] at h
      split at h <;> simp at h
    · rw [value_of_isFinite he] at h; simp at h
  · intro h; rw [value_of_isNaN h]; rfl

/-- The widths a word can name (R141). -/
theorem widthOf_cases (w : Word) :
    (widthOf w = none ∧ w.toNat ≠ 12 ∧ w.toNat ≠ 16) ∨
    (widthOf w = some .w12 ∧ w.toNat = 12) ∨ (widthOf w = some .w16 ∧ w.toNat = 16) := by
  unfold widthOf
  split
  · rename_i h; subst h; exact .inr (.inl ⟨rfl, rfl⟩)
  · split
    · rename_i h; subst h; exact .inr (.inr ⟨rfl, rfl⟩)
    · rename_i h1 h2
      refine .inl ⟨rfl, fun h => h1 (BitVec.eq_of_toNat_eq h), fun h => h2 (BitVec.eq_of_toNat_eq h)⟩

/-- A NaN or infinite bound of the general form raises NONFINITE (R149, R150). -/
theorem generalRange_nonfinite (s : State)
    (h : ¬ Spec.IsFinite s.arg1 ∨ ¬ Spec.IsFinite s.arg2) : generalRange s = .error .nonfinite := by
  have key : ∀ w : Word, ¬ Spec.IsFinite w → ∀ n, value w ≠ .fin n := by
    intro w hw n hn
    have he : Spec.expOf w = 0xFF := not_not.1 hw
    rw [value, expField_eq, if_pos he] at hn
    split at hn
    · cases hn
    · split at hn <;> cases hn
  unfold generalRange
  rcases h with h | h
  · split
    · rename_i e1 e2; exact absurd e1 (key _ h _)
    · rfl
  · split
    · rename_i e1 e2; exact absurd e2 (key _ h _)
    · rfl

/-- With finite bounds the general form checks the width and then the span (R149, R150). -/
theorem generalRange_finite (s : State) (h1 : Spec.IsFinite s.arg1) (h2 : Spec.IsFinite s.arg2) :
    generalRange s = match widthOf s.arg3 with
    | none => .error .badwidth
    | some b =>
      if finiteVal s.arg2 ≤ finiteVal s.arg1 then .error .badspan
      else .ok ⟨b, finiteVal s.arg1, finiteVal s.arg2⟩ := by
  cases h : widthOf s.arg3 <;> simp only [generalRange, value_of_isFinite h1, value_of_isFinite h2, h]

/-- The end of QUANT is the end of the spec's pseudocode (R149). -/
theorem quantInto_spec (w : Word) (r : QRange) (mn mx : ℚ) (b : ℕ) (s : State) (hlt : r.min < r.max)
    (h1 : (r.min : ℚ) / 2 ^ 149 = mn) (h2 : (r.max : ℚ) / 2 ^ 149 = mx) (h3 : r.width.bits = b) :
    Spec.QuantCases w mn mx b s (quantInto (value w) r s) := by
  subst h1 h2 h3
  refine ⟨?_, ?_, ?_, ?_⟩
  · intro h; rw [value_of_isNaN h]; rfl
  · intro h; rw [value_of_isInf h]; split <;> rfl
  · intro h h'; rw [value_of_isFinite h]
    rw [val_eq, lt_div_units, lt_div_units] at h'
    simp only [quantInto, if_pos h']; rfl
  · intro h h1 h2; rw [value_of_isFinite h]
    rw [val_eq, ← not_lt, lt_div_units] at h1 h2
    simp only [quantInto, if_neg (not_or.2 ⟨h1, h2⟩)]
    rw [quantize_eq _ _ hlt, ← val_eq]; rfl

/-- The end of DEQUANT is the end of the spec's pseudocode (R150). -/
theorem dequantInto_spec (r : QRange) (mn mx : ℚ) (b : ℕ) (s : State)
    (h1 : (r.min : ℚ) / 2 ^ 149 = mn) (h2 : (r.max : ℚ) / 2 ^ 149 = mx) (h3 : r.width.bits = b)
    (l1 : r.min.natAbs ≤ maxFinite) (l2 : r.max.natAbs ≤ maxFinite) :
    Spec.DequantCases s.arg0.toNat mn mx b s (dequantInto r s) := by
  subst h1 h2 h3
  have hm : r.width.maxCode = 2 ^ r.width.bits - 1 := rfl
  rw [Spec.DequantCases, ← hm]
  refine ⟨?_, ?_⟩
  · intro h; unfold dequantInto; rw [if_pos h]; rfl
  · intro h
    refine ⟨dequantizeWord s.arg0.toNat r, dequantizeWord_spec _ _ h l1 l2, ?_⟩
    unfold dequantInto; rw [if_neg (not_lt.2 h)]; rfl

/-- Every fixed range has min < max. -/
theorem range_ltq (n : RangeName) : Spec.rangeMin n < Spec.rangeMax n := by
  cases n <;> norm_num [Spec.rangeMin, Spec.rangeMax]

/-- Every fixed range has 1 to 16 bits. -/
theorem rangeBits_le (n : RangeName) : 0 < Spec.rangeBits n ∧ Spec.rangeBits n ≤ 16 := by cases n <;> decide

/-- `quant gen` with legal bounds and width ends as R149's pseudocode does over them. -/
theorem execQuantGen_spec {s : State} {r : QRange} (h : generalRange s = .ok r) :
    Spec.QuantCases s.arg0 ((r.min : ℚ) / 2 ^ 149) ((r.max : ℚ) / 2 ^ 149) r.width.bits s
      (execQuantGen s) := by
  have hc := quantInto_spec s.arg0 r _ _ _ s (generalRange_ok h).2.2.2 rfl rfl rfl
  have e : execQuantGen s = quantInto (value s.arg0) r s := by
    unfold execQuantGen
    rw [h]
    split
    · rename_i hn; rw [value_of_isNaN ((isNaN_iff _).1 hn)]; rfl
    · rfl
  rwa [e]

/-- A legal range of the general form passes its checks (R149). -/
theorem generalRange_legal {s : State} (h1 : Spec.IsFinite s.arg1) (h2 : Spec.IsFinite s.arg2)
    (hlt : Spec.val s.arg1 < Spec.val s.arg2) (hb : s.arg3.toNat = 12 ∨ s.arg3.toNat = 16) :
    ∃ r, generalRange s = .ok r ∧ (r.min : ℚ) / 2 ^ 149 = Spec.val s.arg1 ∧
      (r.max : ℚ) / 2 ^ 149 = Spec.val s.arg2 ∧ r.width.bits = s.arg3.toNat := by
  have hm : ¬ finiteVal s.arg2 ≤ finiteVal s.arg1 := by
    rw [val_eq, val_eq, lt_div_units] at hlt
    exact not_le.2 hlt
  rcases widthOf_cases s.arg3 with ⟨-, h, h'⟩ | ⟨h, h'⟩ | ⟨h, h'⟩
  · omega
  · exact ⟨⟨.w12, finiteVal s.arg1, finiteVal s.arg2⟩, by
      rw [generalRange_finite s h1 h2, h]; exact if_neg hm, (val_eq _).symm, (val_eq _).symm, h'.symm⟩
  · exact ⟨⟨.w16, finiteVal s.arg1, finiteVal s.arg2⟩, by
      rw [generalRange_finite s h1 h2, h]; exact if_neg hm, (val_eq _).symm, (val_eq _).symm, h'.symm⟩

/-- Every QUANT form over its legal range (R149, R143): the end of the pseudocode, and a proper range. -/
theorem quantForm_spec {q : QuantOperand} {s : State} {mn mx : ℚ} {b : ℕ}
    (h : Spec.QuantRange q s mn mx b) :
    Spec.QuantCases s.arg0 mn mx b s (exec (Spec.quantForm q) s) ∧ mn < mx ∧ (b = 12 ∨ b = 16) := by
  cases q with
  | range n =>
    obtain ⟨rfl, rfl, rfl⟩ := h
    refine ⟨?_, range_ltq n, by cases n <;> decide⟩
    rw [Spec.quantForm, exec_quantInstr]
    exact quantInto_spec _ _ _ _ _ s (range_lt n) (range_min n) (range_max n) (range_bits n)
  | gen =>
    obtain ⟨h1, h2, hlt, hb, rfl, rfl, rfl⟩ := h
    obtain ⟨r, hr, e1, e2, e3⟩ := generalRange_legal h1 h2 hlt hb
    have := execQuantGen_spec hr
    rw [e1, e2, e3] at this
    exact ⟨this, hlt, hb⟩

/-- 2^b - 1 as an integer. -/
theorem two_pow_sub (b : ℕ) : ((2 ^ b - 1 : ℕ) : ℤ) = 2 ^ b - 1 := by
  have := Nat.one_le_two_pow (n := b)
  push_cast [Nat.cast_sub this]; rfl

/-- Rounding an integer half up gives it back. -/
theorem floor_half (k : ℤ) : ⌊(k : ℚ) + 1/2⌋ = k := by
  rw [Int.floor_eq_iff]; constructor <;> norm_num

/-- The code of a value in range fits its width (R143). -/
theorem quantize_bounds {v mn mx : ℚ} {b : ℕ} (h1 : mn ≤ v) (h2 : v ≤ mx) (hlt : mn < mx) :
    0 ≤ Spec.quantize v mn mx b ∧ Spec.quantize v mn mx b ≤ 2 ^ b - 1 := by
  have hd : 0 < mx - mn := by linarith
  have hp : (1 : ℚ) ≤ 2 ^ b := one_le_pow₀ (by norm_num)
  have q0 : 0 ≤ Spec.qexact v mn mx b := div_nonneg (mul_nonneg (by linarith) (by linarith)) hd.le
  have q1 : Spec.qexact v mn mx b ≤ 2 ^ b - 1 := by
    unfold Spec.qexact
    rw [div_le_iff₀ hd]
    nlinarith
  unfold Spec.quantize
  constructor
  · apply Int.floor_nonneg.2; linarith
  · rw [← Int.lt_add_one_iff, Int.floor_lt]; push_cast; linarith

/-- The code grows with the value (R143). -/
theorem quantize_mono {v w mn mx : ℚ} {b : ℕ} (h : v ≤ w) (hlt : mn < mx) :
    Spec.quantize v mn mx b ≤ Spec.quantize w mn mx b := by
  have hd : 0 < mx - mn := by linarith
  have hp : (1 : ℚ) ≤ 2 ^ b := one_le_pow₀ (by norm_num)
  apply Int.floor_le_floor
  unfold Spec.qexact
  have : (v - mn) * (2 ^ b - 1) ≤ (w - mn) * (2 ^ b - 1) := by nlinarith
  linarith [div_le_div_of_nonneg_right this hd.le]

/-- The code of min is 0 (R143). -/
theorem quantize_min {mn mx : ℚ} {b : ℕ} : Spec.quantize mn mn mx b = 0 := by
  unfold Spec.quantize Spec.qexact
  norm_num

/-- The code of max is 2^b - 1 (R143). -/
theorem quantize_max {mn mx : ℚ} {b : ℕ} (hlt : mn < mx) : Spec.quantize mx mn mx b = 2 ^ b - 1 := by
  unfold Spec.quantize Spec.qexact
  have hd : mx - mn ≠ 0 := by linarith
  rw [mul_div_cancel_left₀ _ hd]
  exact_mod_cast floor_half (2 ^ b - 1)

/-- A code that fits is kept by QRES. -/
theorem ofInt16_toNat {k : ℤ} (h0 : 0 ≤ k) {b : ℕ} (hb : b ≤ 16) (h : k ≤ 2 ^ b - 1) :
    ((BitVec.ofInt 16 k).toNat : ℤ) = k := by
  have : (2:ℤ) ^ b ≤ 2 ^ 16 := pow_le_pow_right₀ (by norm_num) hb
  rw [BitVec.toNat_ofInt]; omega

/-- rne32 stays between finite bounds (R148). -/
theorem rne_between {q lo hi : ℚ} {w a b : Word} (h : Spec.Rne32 q w) (ha : Spec.IsFinite a)
    (hb : Spec.IsFinite b)    (ea : Spec.val a = lo) (eb : Spec.val b = hi) (h1 : lo ≤ q) (h2 : q ≤ hi) :
    lo ≤ Spec.val w ∧ Spec.val w ≤ hi := by
  have n1 := h.2.1 a ha
  have n2 := h.2.1 b hb
  rw [ea] at n1; rw [eb] at n2
  rw [abs_sub_comm lo, abs_of_nonneg (by linarith : 0 ≤ q - lo)] at n1
  rw [abs_of_nonneg (by linarith : 0 ≤ hi - q)] at n2
  rw [abs_le] at n1 n2
  constructor <;> linarith [n1.1, n1.2, n2.1, n2.2]

/-- A dequantized code lies in the range (R146). -/
theorem dequantize_between {c b : ℕ} {mn mx : ℚ} (hlt : mn < mx) (hb : 0 < b) (hc : c ≤ 2 ^ b - 1) :
    mn ≤ Spec.dequantize c mn mx b ∧ Spec.dequantize c mn mx b ≤ mx := by
  have hp : (1 : ℚ) < 2 ^ b := one_lt_pow₀ (by norm_num) (by omega)
  have hp' : (0 : ℚ) < 2 ^ b - 1 := by linarith
  have hcq : (c : ℚ) ≤ 2 ^ b - 1 := by
    have : ((2 ^ b - 1 : ℕ) : ℚ) = 2 ^ b - 1 := by
      have := Nat.one_le_two_pow (n := b)
      push_cast [Nat.cast_sub this]; rfl
    rw [← this]; exact_mod_cast hc
  have hd : 0 < mx - mn := by linarith
  unfold Spec.dequantize
  have h0 : 0 ≤ (c : ℚ) * (mx - mn) / (2 ^ b - 1) :=
    div_nonneg (mul_nonneg (Nat.cast_nonneg _) hd.le) hp'.le
  have h1 : (c : ℚ) * (mx - mn) / (2 ^ b - 1) ≤ mx - mn := by
    rw [div_le_iff₀ hp']; nlinarith
  constructor <;> linarith

/-- The binary32 word of a range's min. -/
theorem minWord_val (n : RangeName) :
    Spec.IsFinite (Spec.minWord n) ∧ Spec.val (Spec.minWord n) = Spec.rangeMin n := by
  refine ⟨by cases n <;> decide, ?_⟩
  rw [val_eq, ← range_min]; congr 2; cases n <;> decide

/-- The binary32 word of a range's max. -/
theorem maxWord_val (n : RangeName) :
    Spec.IsFinite (Spec.maxWord n) ∧ Spec.val (Spec.maxWord n) = Spec.rangeMax n := by
  refine ⟨by cases n <;> decide, ?_⟩
  rw [val_eq, ← range_max]; congr 2; cases n <;> decide

end Sys2Proof.Machine
end

