-- ==== Sys2Proof/Laws/Exec.lean ====
section
/-! SUPPORT. What each command can do, said once: the inversion lemmas of the shared operations and of
`exec`. -/

namespace Sys2Proof.Machine

open Sys2Proof

@[simp] theorem complete_eq (s : State) : complete s = .next s.clearErr := rfl

@[simp] theorem raiseError_eq (e : Err) (s : State) : raiseError e s = .next (s.setErr e) := rfl

/-- The statement terms are the machine's updates. -/
theorem setErr_eq_raised (e : Err) (s : State) : s.setErr e = Spec.raised e s := rfl

theorem clearErr_eq_completed (s : State) : s.clearErr = Spec.completed s := rfl

/-- PACK and SENT check the header as the spec does (R183). -/
theorem headerOk_iff (s : State) : headerOk s.argId = true ↔ Spec.HeaderLegal s := by
  simp [headerOk, Spec.HeaderLegal, BitVec.le_def]

/-- A lookup's two results (R227, R228). -/
theorem lookupResult_cases (x : Option Slot) (s : State) :
    (∃ y, x = some y ∧ lookupResult x s = .next (Spec.lookupHit y s)) ∨
    (x = none ∧ lookupResult x s = .next (Spec.lookupMiss s)) := by
  cases x with
  | none => exact .inr ⟨rfl, rfl⟩
  | some y => exact .inl ⟨y, rfl, rfl⟩

/-- What RDSLOT can do (R227). -/
theorem readSlot_eq (i : BitVec 2) (s : State) :
    readSlot i s = if (s.slots.get i).valid then .next (Spec.lookupHit (s.slots.get i) s)
      else .next (Spec.lookupMiss s) := by
  unfold readSlot
  split <;> rfl

/-- What SENT can do (R186). -/
theorem sentFrame_eq (b : Byte) (s : State) :
    sentFrame b s = if headerOk s.argId
      then .next (s.setOut (builtFrame s.argId 0xFFFFFFFF (0xFFFFFF#24 ++ b))).clearErr
      else .next (s.setErr .badid) := by
  unfold sentFrame; split <;> rfl

/-- What UNPACK can do (R190). -/
theorem unpackFrame_eq (f : FrameRegs) (s : State) :
    unpackFrame f s = if f.len ≠ 8 then .next (s.setErr .length)
      else .next ((s.setTel (telemetryOf f.d0 f.d1)).setTelv).clearErr := by
  unfold unpackFrame; split <;> rfl

/-- What PACK can do (R182). -/
theorem execPack_cases (s : State) :
    (packedPayload s = none ∧ execPack s = .next (s.setErr .nonfinite)) ∨
    (∃ w, packedPayload s = some w ∧ headerOk s.argId = false ∧
      execPack s = .next (s.setErr .badid)) ∨
    (∃ w, packedPayload s = some w ∧ headerOk s.argId = true ∧
      execPack s = .next (s.setOut (builtFrame s.argId (w.extractLsb' 32 32)
        (w.extractLsb' 0 32))).clearErr) := by
  unfold execPack
  cases h : packedPayload s with
  | none => exact .inl ⟨rfl, rfl⟩
  | some w =>
    cases hh : headerOk s.argId with
    | false => exact .inr (.inl ⟨w, rfl, rfl, by simp⟩)
    | true => exact .inr (.inr ⟨w, rfl, rfl, by simp⟩)

/-- What QUANT's general form can do (R149). -/
theorem execQuantGen_cases (s : State) :
    (∃ e ∈ [Err.nonfinite, .badwidth, .badspan, .outrange], execQuantGen s = .next (s.setErr e)) ∨
    (∃ c, execQuantGen s = .next (s.setQres c).clearErr) := by
  unfold execQuantGen
  split
  · exact .inl ⟨.nonfinite, by simp, rfl⟩
  · cases h : generalRange s with
    | error e =>
      refine .inl ⟨e, ?_, rfl⟩
      unfold generalRange at h
      repeat (first | split at h | (cases h; simp))
    | ok r =>
      rcases quantInto_cases (value s.arg0) r s with ⟨_, h⟩ | h | ⟨n, _, _, _, h⟩
      · exact .inl ⟨.nonfinite, by simp, h⟩
      · exact .inl ⟨.outrange, by simp, h⟩
      · exact .inr ⟨_, h⟩

/-- What QUANT's fixed forms can do (R149). -/
theorem quantFixed_cases (n : RangeName) (s : State) :
    (∃ e ∈ [Err.nonfinite, .outrange], quantFixed n s = .next (s.setErr e)) ∨
    (∃ c, quantFixed n s = .next (s.setQres c).clearErr) := by
  unfold quantFixed
  rcases quantInto_cases (value s.arg0) (rangeOf n) s with ⟨_, h⟩ | h | ⟨m, _, _, _, h⟩
  · exact .inl ⟨.nonfinite, by simp, h⟩
  · exact .inl ⟨.outrange, by simp, h⟩
  · exact .inr ⟨_, h⟩

/-- What DEQUANT's general form can do (R150). -/
theorem execDequantGen_cases (s : State) :
    (∃ e ∈ [Err.nonfinite, .badwidth, .badspan, .badcode],
      execDequantGen s = .next (s.setErr e)) ∨
    (∃ r, generalRange s = .ok r ∧ s.arg0.toNat ≤ r.width.maxCode ∧
      execDequantGen s = .next (s.setDres (dequantizeWord s.arg0.toNat r)).clearErr) := by
  unfold execDequantGen
  cases h : generalRange s with
  | error e =>
    refine .inl ⟨e, ?_, rfl⟩
    unfold generalRange at h
    repeat (first | split at h | (cases h; simp))
  | ok r =>
    rcases dequantInto_cases r s with ⟨_, h'⟩ | ⟨hc, h'⟩
    · exact .inl ⟨.badcode, by simp, h'⟩
    · exact .inr ⟨r, rfl, hc, h'⟩

/-- What DEQUANT's fixed forms can do (R150). -/
theorem dequantFixed_cases (n : RangeName) (s : State) :
    (dequantFixed n s = .next (s.setErr .badcode)) ∨
    (s.arg0.toNat ≤ (rangeOf n).width.maxCode ∧
      dequantFixed n s = .next (s.setDres (dequantizeWord s.arg0.toNat (rangeOf n))).clearErr) := by
  rcases dequantInto_cases (rangeOf n) s with ⟨_, h⟩ | ⟨hc, h⟩
  · exact .inl h
  · exact .inr ⟨hc, h⟩

/-- The kinds of effect a command can have, each with the commands that have it. A computed word stands
as a variable with an equation, so that comparing fields never unfolds the arithmetic. -/
inductive Effect (i : Instr) (s : State) : State → Prop where
  /-- An error of the command's own. -/
  | raised (e : Err) (h : e ∈ Spec.ownErrors i) (hn : e ≠ .none) : Effect i s (s.setErr e)
  | nop (h : i = .nop) : Effect i s s.clearErr
  | quant (h : Spec.isQuant i = true) (c : BitVec 16) : Effect i s (s.setQres c).clearErr
  | dequant (h : Spec.isDequant i = true) (c : ℕ) (r : QRange) (hc : c ≤ r.width.maxCode)
      (h1 : r.min.natAbs ≤ maxFinite) (h2 : r.max.natAbs ≤ maxFinite) (w : Word)
      (hw : w = dequantizeWord c r) : Effect i s (s.setDres w).clearErr
  | build (h : Spec.isBuilder i = true) (d0 d1 : Word) :
      Effect i s (s.setOut (builtFrame s.argId d0 d1)).clearErr
  | unpack (h : Spec.isUnpack i = true) (d0 d1 : Word) (x : Telemetry) (hx : x = telemetryOf d0 d1) :
      Effect i s ((s.setTel x).setTelv).clearErr
  | poll (h : i = .poll) : Effect i s
      (({ storeAll s.now 0 (Spec.received s.rx) s with
        rx := Spec.leftover s.rx }.setPcount (Spec.received s.rx).length).clearErr)
  | hit (h : Spec.isLookup i = true) (k : BitVec 2) : Effect i s (Spec.lookupHit (s.slots.get k) s)
  | miss (h : Spec.isLookup i = true) : Effect i s (Spec.lookupMiss s)
  | liveness (h : Spec.isLiveness i = true) (b : Bool) : Effect i s (s.setOnline b).clearErr

/-- The bounds of the general form are finite values. -/
theorem generalRange_bounds {s : State} {r : QRange} (h : generalRange s = .ok r) :
    r.min.natAbs ≤ maxFinite ∧ r.max.natAbs ≤ maxFinite := by
  obtain ⟨h1, h2, -, -⟩ := generalRange_ok h
  have key : ∀ (w : Word) (n : ℤ), value w = .fin n → n.natAbs ≤ maxFinite := by
    intro w n hv
    have hf : Spec.IsFinite w := by
      intro he
      rw [value, expField_eq, if_pos he] at hv
      split at hv
      · cases hv
      · split at hv <;> cases hv
    rw [value_of_isFinite hf] at hv
    cases hv
    rw [finiteVal_natAbs]
    exact magnitude_le hf
  exact ⟨key _ _ h1, key _ _ h2⟩

/-- Every command completes with one of its effects. -/
theorem exec_effect (i : Instr) (s : State) : ∃ t, exec i s = .next t ∧ Effect i s t := by
  have quant : ∀ n, (∀ e ∈ [Err.nonfinite, .outrange], e ∈ Spec.ownErrors i) →
      Spec.isQuant i = true → ∃ t, quantFixed n s = .next t ∧ Effect i s t := by
    intro n he hi
    rcases quantFixed_cases n s with ⟨e, hm, h⟩ | ⟨c, h⟩
    · exact ⟨_, h, .raised e (he e hm) (by rintro rfl; simp at hm)⟩
    · exact ⟨_, h, .quant hi c⟩
  have dequant : ∀ n, Err.badcode ∈ Spec.ownErrors i →
      Spec.isDequant i = true → ∃ t, dequantFixed n s = .next t ∧ Effect i s t := by
    intro n he hi
    rcases dequantFixed_cases n s with h | ⟨hc, h⟩
    · exact ⟨_, h, .raised _ he (by decide)⟩
    · exact ⟨_, h, .dequant hi _ _ hc (by cases n <;> decide) (by cases n <;> decide) _ rfl⟩
  have sent : ∀ b, Err.badid ∈ Spec.ownErrors i → Spec.isBuilder i = true →
      ∃ t, sentFrame b s = .next t ∧ Effect i s t := by
    intro b he hi
    rw [sentFrame_eq]
    split
    · exact ⟨_, rfl, .build hi _ _⟩
    · exact ⟨_, rfl, .raised _ he (by decide)⟩
  have unpack : ∀ f, Err.length ∈ Spec.ownErrors i → Spec.isUnpack i = true →
      ∃ t, unpackFrame f s = .next t ∧ Effect i s t := by
    intro f he hi
    rw [unpackFrame_eq]
    split
    · exact ⟨_, rfl, .raised _ he (by decide)⟩
    · exact ⟨_, rfl, .unpack hi _ _ _ rfl⟩
  have rdslot : ∀ k, Spec.isLookup i = true → ∃ t, readSlot k s = .next t ∧ Effect i s t := by
    intro k hi
    rw [readSlot_eq]
    split
    · exact ⟨_, rfl, .hit hi k⟩
    · exact ⟨_, rfl, .miss hi⟩
  cases i with
  | nop => exact ⟨_, rfl, .nop rfl⟩
  | quantPos => exact quant .pos (by decide) rfl
  | quantVel => exact quant .vel (by decide) rfl
  | quantKp => exact quant .kp (by decide) rfl
  | quantKd => exact quant .kd (by decide) rfl
  | quantTor => exact quant .tor (by decide) rfl
  | quantGen =>
    rcases execQuantGen_cases s with ⟨e, hm, h⟩ | ⟨c, h⟩
    · exact ⟨_, h, .raised e (by simpa [Spec.ownErrors, Spec.isQuant] using hm)
        (by rintro rfl; simp at hm)⟩
    · exact ⟨_, h, .quant rfl c⟩
  | dequantPos => exact dequant .pos (by decide) rfl
  | dequantVel => exact dequant .vel (by decide) rfl
  | dequantKp => exact dequant .kp (by decide) rfl
  | dequantKd => exact dequant .kd (by decide) rfl
  | dequantTor => exact dequant .tor (by decide) rfl
  | dequantGen =>
    rcases execDequantGen_cases s with ⟨e, hm, h⟩ | ⟨r, hr, hc, h⟩
    · exact ⟨_, h, .raised e (by simpa [Spec.ownErrors, Spec.isQuant, Spec.isDequant] using hm)
        (by rintro rfl; simp at hm)⟩
    · exact ⟨_, h, .dequant rfl _ r hc (generalRange_bounds hr).1
        (generalRange_bounds hr).2 _ rfl⟩
  | pack =>
    rcases execPack_cases s with ⟨_, h⟩ | ⟨w, _, _, h⟩ | ⟨w, _, _, h⟩
    · exact ⟨_, h, .raised _ (by decide) (by decide)⟩
    · exact ⟨_, h, .raised _ (by decide) (by decide)⟩
    · exact ⟨_, h, .build rfl _ _⟩
  | sentEnter => exact sent _ (by decide) rfl
  | sentStop => exact sent _ (by decide) rfl
  | sentRezero => exact sent _ (by decide) rfl
  | unpackIf => exact unpack _ (by decide) rfl
  | unpackOf => exact unpack _ (by decide) rfl
  | poll => exact ⟨_, execPoll_eq s, .poll rfl⟩
  | rdslot0 => exact rdslot 0 rfl
  | rdslot1 => exact rdslot 1 rfl
  | rdslot2 => exact rdslot 2 rfl
  | rdslot3 => exact rdslot 3 rfl
  | find =>
    rcases lookupResult_cases (firstMatch s.slots s.argId.id) s with ⟨y, hy, h⟩ | ⟨_, h⟩
    · obtain ⟨k, rfl, -⟩ := firstMatch_mem hy
      exact ⟨_, h, .hit rfl k⟩
    · exact ⟨_, h, .miss rfl⟩
  | onslot0 => exact ⟨_, rfl, .liveness rfl _⟩
  | onslot1 => exact ⟨_, rfl, .liveness rfl _⟩
  | onslot2 => exact ⟨_, rfl, .liveness rfl _⟩
  | onslot3 => exact ⟨_, rfl, .liveness rfl _⟩
  | onid => exact ⟨_, rfl, .liveness rfl _⟩

/-- What a command's next state can be. -/
theorem exec_next {i : Instr} {s t : State} (h : exec i s = .next t) : Effect i s t := by
  obtain ⟨t', h', he⟩ := exec_effect i s
  rw [h'] at h
  cases h
  exact he

end Sys2Proof.Machine
end

