-- ==== Sys2Proof/Laws/HostAccess.lean ====
section
/-! SUPPORT. The register window and the step: where registers stand, what an access does, and what
any step can do. -/

namespace Sys2Proof.Machine

open Sys2Proof

/-- The map answers the register at each register's offset (R80). -/
@[simp] theorem regAt_regOffset (r : Reg) : regAt (regOffset r) = some r := by
  cases r <;> rfl

theorem regOffset_lt (r : Reg) : regOffset r < 256 := by
  cases r <;> decide

/-- And nothing else (R80, R84). -/
theorem regAt_some {n : ℕ} {r : Reg} (h : regAt n = some r) : n = regOffset r := by
  unfold regAt at h
  split at h <;> first | (cases h; rfl) | cases h

/-- A register stands exactly at the multiples of 4 up to 0x64 (R83). -/
theorem regAt_isSome_iff (n : ℕ) : (regAt n).isSome = true ↔ n % 4 = 0 ∧ n ≤ 0x64 := by
  constructor
  · intro h
    obtain ⟨r, hr⟩ := Option.isSome_iff_exists.1 h
    rw [regAt_some hr]
    cases r <;> decide
  · rintro ⟨h1, h2⟩
    obtain ⟨k, rfl⟩ : ∃ k, n = 4 * k := ⟨n / 4, by omega⟩
    have : k ≤ 25 := by omega
    interval_cases k <;> rfl

@[simp] theorem selected_base (p : Params) {off : ℕ} (h : off < 256) :
    selected p (p.qfcBase + off) = true := by
  simp only [selected, Params.qfcBase, beq_iff_eq]
  omega

@[simp] theorem offsetOf_base (p : Params) {off : ℕ} (h : off < 256) :
    offsetOf (p.qfcBase + off) = off := by
  simp only [offsetOf, Params.qfcBase]
  omega

/-- Reading a register looks at no event and no bus response. -/
@[simp] theorem readReg_pending (r : Reg) (s : State) (q : List Event) (b : BusResponse) :
    readReg r { s with pending := q, resp := b } = readReg r s := by
  cases r <;> rfl

theorem step_cons {s : State} {e : Event} {rest : List Event} (h : s.pending = e :: rest) :
    step s = runEvent e { s with pending := rest } := by
  simp only [step, h]

theorem step_nil {s : State} (h : s.pending = []) : step s = .next s := by
  simp only [step, h]

/-- A legal read (R262). -/
theorem step_read {s : State} {r : Reg} {rest : List Event}
    (h : s.pending = .access (.read (s.params.qfcBase + regOffset r) 4) :: rest) :
    step s = .next { s with pending := rest, resp := .data (readReg r s) } := by
  have hr := regOffset_lt r
  rw [step_cons h, runEvent, busAccess]
  simp only [Access.addr, Access.width, selected_base _ hr, accessedReg, offsetOf_base _ hr,
    regAt_regOffset, if_true]
  cases r <;> rfl

/-- A legal write (R261). -/
theorem step_write {s : State} {r : Reg} {v : Word} {rest : List Event}
    (h : s.pending = .access (.write (s.params.qfcBase + regOffset r) 4 v) :: rest) :
    step s = writeReg r v { s with pending := rest, resp := .accepted } := by
  have hr := regOffset_lt r
  rw [step_cons h, runEvent, busAccess]
  simp only [Access.addr, Access.width, selected_base _ hr, accessedReg, offsetOf_base _ hr,
    regAt_regOffset, if_true]

/-- What a register write other than CMD's can change. -/
theorem writeReg_next {r : Reg} {v : Word} {s t : State} (hr : r ≠ .cmd) (h : writeReg r v s = .next t) :
    ∃ a0 a1 a2 a3 a4 ai tm fr b, t = { s with
      arg0 := a0, arg1 := a1, arg2 := a2, arg3 := a3, arg4 := a4, argId := ai, argTmo := tm
      inFrame := fr, status := { s.status with sticky := b } } ∧
      (b = s.status.sticky ∨ (r = .status ∧ v.getLsbD 15 = true)) := by
  cases r <;> first
    | exact absurd rfl hr
    | (simp only [writeReg] at h
       split at h <;> (cases h)
       · exact ⟨_, _, _, _, _, _, _, _, _, rfl, .inr ⟨rfl, ‹_›⟩⟩
       · exact ⟨_, _, _, _, _, _, _, _, _, rfl, .inl rfl⟩)
    | (simp only [writeReg] at h; cases h; exact ⟨_, _, _, _, _, _, _, _, _, rfl, .inl rfl⟩)

/-- What a write to CMD does: the command it encodes, or the error of the word (R110, R111). -/
theorem writeCmd_next {v : Word} {s t : State} (h : writeReg .cmd v s = .next t) :
    (∃ i, decode v = .ok i ∧ Effect i { s with cmd := v } t) ∨
    (∃ e, e ≠ Err.none ∧ t = ({ s with cmd := v } : State).setErr e) := by
  simp only [writeReg, writeCmd, runWord] at h
  split at h
  · rename_i i hi
    exact .inl ⟨i, hi, exec_next h⟩
  · cases h; exact .inr ⟨.illegal, by decide, rfl⟩
  · cases h; exact .inr ⟨.badsel, by decide, rfl⟩

/-- What any step can do: idle, an input of a port, a reset, a read or an access of another device, a
register write, or a command. -/
theorem step_next {s t : State} (h : step s = .next t) :
    (s.pending = [] ∧ t = s) ∨
    ∃ e rest, s.pending = e :: rest ∧
      ((∃ v, e = .time v ∧ t = { s with pending := rest, now := v }) ∨
       (∃ r, e = .receive r ∧ t = { s with pending := rest, rx := s.rx ++ [r] }) ∨
       (e = .reset ∧ t = hardwareReset { s with pending := rest }) ∨
       (∃ a, e = .access a ∧ Spec.isPoll s.params e = false ∧
          ∃ b, t = { s with pending := rest, resp := b }) ∨
       (∃ r v, e = .access (.write (s.params.qfcBase + regOffset r) 4 v) ∧
          writeReg r v { s with pending := rest, resp := .accepted } = .next t)) := by
  cases hp : s.pending with
  | nil => rw [step_nil hp] at h; cases h; exact .inl ⟨rfl, rfl⟩
  | cons e rest =>
    refine .inr ⟨e, rest, rfl, ?_⟩
    rw [step_cons hp] at h
    cases e with
    | time v => cases h; exact .inl ⟨v, rfl, rfl⟩
    | receive r => cases h; exact .inr (.inl ⟨r, rfl, rfl⟩)
    | reset => cases h; exact .inr (.inr (.inl ⟨rfl, rfl⟩))
    | access a =>
      simp only [runEvent, busAccess] at h
      split at h
      · rename_i hsel
        split at h
        · cases h
        · rename_i r hr
          have hw : a.width = 4 := by
            by_contra hw; simp [accessedReg, hw] at hr
          rw [accessedReg, if_pos hw] at hr
          have ho := regAt_some hr
          have haddr : a.addr = s.params.qfcBase + regOffset r := by
            simp only [selected, beq_iff_eq] at hsel
            simp only [offsetOf] at ho
            simp only [Params.qfcBase]
            omega
          cases a with
          | read addr width =>
            cases h
            exact .inr (.inr (.inr (.inl ⟨_, rfl, by simp [Spec.isPoll], _, rfl⟩)))
          | write addr width v =>
            simp only [Access.addr, Access.width] at haddr hw
            subst haddr hw
            exact .inr (.inr (.inr (.inr ⟨r, v, rfl, h⟩)))
      · rename_i hsel
        cases h
        refine .inr (.inr (.inr (.inl ⟨a, rfl, ?_, _, rfl⟩)))
        cases a with
        | read => simp [Spec.isPoll]
        | write addr width v =>
          simp only [Spec.isPoll, beq_eq_false_iff_ne, ne_eq, Event.access.injEq, Access.write.injEq,
            not_and]
          intro ha
          exfalso
          apply hsel
          have h0 := selected_base s.params (off := 0) (by decide)
          rw [Nat.add_zero] at h0
          subst ha
          exact h0

/-- Which register writes are a POLL. -/
theorem isPoll_write (p : Params) (r : Reg) (v : Word) :
    Spec.isPoll p (.access (.write (p.qfcBase + regOffset r) 4 v)) = true ↔
      r = .cmd ∧ v = 0x60000000 := by
  simp only [Spec.isPoll, beq_iff_eq, Event.access.injEq, Access.write.injEq]
  constructor
  · rintro ⟨h, -, rfl⟩
    have : regOffset r = 0 := by omega
    refine ⟨?_, rfl⟩
    cases r <;> first | rfl | cases this
  · rintro ⟨rfl, rfl⟩; simp [regOffset]

/-- Only one word decodes to POLL. -/
theorem decode_poll {v : Word} (h : decode v = .ok .poll) : v = 0x60000000 := by
  obtain ⟨h1, h2, h3⟩ := decode_ok h
  rw [word_eq_fields v, h1, h2, h3]; rfl

/-- A register write that is no POLL adds nothing to the history. -/
theorem historyAfter_write {s : State} {r : Reg} {v : Word} {rest : List Event}
    (hp : s.pending = .access (.write (s.params.qfcBase + regOffset r) 4 v) :: rest)
    (h : r = .cmd → v ≠ 0x60000000) (x : Spec.History) : Spec.historyAfter x s = x := by
  have hn : ¬ Spec.isPoll s.params (.access (.write (s.params.qfcBase + regOffset r) 4 v)) = true := by
    rw [isPoll_write]; exact fun hh => h hh.1 hh.2
  simp only [Spec.historyAfter, hp]
  rw [if_neg (by simp), if_neg hn]

/-- A command other than POLL changes no slot and no write pointer. -/
theorem Effect.cache {i : Instr} {s t : State} (he : Effect i s t) (hi : i ≠ .poll) :
    t.params = s.params ∧ t.slots = s.slots ∧ t.wrptr = s.wrptr := by
  cases he with
  | poll h => exact absurd h hi
  | _ => exact ⟨rfl, rfl, rfl⟩

/-- What a step does to the cache, and what it adds to the history. -/
theorem step_cache {s t : State} (h : step s = .next t) :
    t.params = s.params ∧
    ((t.slots = s.slots ∧ t.wrptr = s.wrptr ∧ ∀ x, Spec.historyAfter x s = x) ∨
     (t.slots = State.reset.slots ∧ t.wrptr = 0 ∧ ∀ x, Spec.historyAfter x s = []) ∨
     (t.slots = (storeAll s.now 0 (Spec.received s.rx) s).slots ∧
      t.wrptr = (storeAll s.now 0 (Spec.received s.rx) s).wrptr ∧
      ∀ x, Spec.historyAfter x s = x ++ [(Spec.received s.rx).map (fun f => (f, s.now))])) := by
  rcases step_next h with ⟨hp, rfl⟩ | ⟨e, rest, hp, h⟩
  · exact ⟨rfl, .inl ⟨rfl, rfl, fun x => by simp only [Spec.historyAfter, hp]⟩⟩
  rcases h with ⟨v, rfl, rfl⟩ | ⟨r, rfl, rfl⟩ | ⟨rfl, rfl⟩ | ⟨a, rfl, ha, b, rfl⟩ | ⟨r, v, rfl, hw⟩
  · exact ⟨rfl, .inl ⟨rfl, rfl, fun x => by simp [Spec.historyAfter, hp, Spec.isPoll]⟩⟩
  · exact ⟨rfl, .inl ⟨rfl, rfl, fun x => by simp [Spec.historyAfter, hp, Spec.isPoll]⟩⟩
  · exact ⟨rfl, .inr (.inl ⟨rfl, rfl, fun x => by simp [Spec.historyAfter, hp]⟩)⟩
  · exact ⟨rfl, .inl ⟨rfl, rfl, fun x => by simp [Spec.historyAfter, hp, ha]⟩⟩
  · by_cases hc : r = .cmd
    · subst hc
      by_cases hv : v = 0x60000000
      · subst hv
        have ht : writeReg .cmd 0x60000000 { s with pending := rest, resp := .accepted }
            = execPoll { s with pending := rest, resp := .accepted, cmd := 0x60000000 } := rfl
        rw [ht, execPoll_eq] at hw
        simp only [storeAll_host] at hw
        cases hw
        refine ⟨?_, .inr (.inr ⟨rfl, rfl, fun x => ?_⟩)⟩
        · rw [storeAll_eq]; rfl
        · have hm : Spec.isPoll s.params
              (.access (.write (s.params.qfcBase + regOffset .cmd) 4 0x60000000)) = true := by
            rw [isPoll_write]; exact ⟨rfl, rfl⟩
          simp only [Spec.historyAfter, hp]
          rw [if_neg (by simp)]
          exact if_pos hm
      · have hx := historyAfter_write hp (fun _ => hv)
        rcases writeCmd_next hw with ⟨i, hi, he⟩ | ⟨e, _, rfl⟩
        · obtain ⟨e1, e2, e3⟩ := he.cache (fun hi' => hv (decode_poll (hi' ▸ hi)))
          exact ⟨e1, .inl ⟨e2, e3, hx⟩⟩
        · exact ⟨rfl, .inl ⟨rfl, rfl, hx⟩⟩
    · have hx := historyAfter_write hp (fun h => absurd h hc)
      obtain ⟨_, _, _, _, _, _, _, _, _, rfl, _⟩ := writeReg_next hc hw
      exact ⟨rfl, .inl ⟨rfl, rfl, hx⟩⟩

/-- A run of n + 1 steps begins with one. -/
theorem steps_cons (n : ℕ) {s t : State} (h : step s = .next t) :
    Spec.steps (n + 1) s = Spec.steps n t := by
  rw [Spec.steps, h]

/-- A run of one step. -/
theorem steps_one (s : State) : Spec.steps 1 s = step s := by
  rw [Spec.steps]; cases step s <;> rfl

/-- A write to ARGID stores the fields of the word (R37). -/
theorem argIdOf_eq (w : Word) : (⟨w.extractLsb' 0 29, w.getLsbD 31⟩ : ArgId) = Spec.argIdOf w := by
  unfold Spec.argIdOf
  have x29 : w.extractLsb' 0 29 = BitVec.ofNat 29 w.toNat := by
    apply BitVec.eq_of_toNat_eq; simp
  have x31 : w.getLsbD 31 = decide (2^31 ≤ w.toNat) := by
    have := w.isLt
    simp only [BitVec.getLsbD, Nat.testBit_eq_decide_div_mod_eq]
    congr 1; simp; omega
  rw [x29, x31]

/-- A run that begins with a register write. -/
theorem steps_wr (n : ℕ) (r : Reg) (v : Word) (s : State) (rest : List Event)
    (h : s.pending = wr s.params r v :: rest) {t : State}
    (ht : writeReg r v { s with pending := rest, resp := .accepted } = .next t) :
    Spec.steps (n + 1) s = Spec.steps n t := steps_cons n ((step_write h).trans ht)

/-- A step that writes a command to CMD (R110). -/
theorem step_cmd (i : Instr) (s : State) (rest : List Event) (h : s.pending = cmd s.params i :: rest) :
    step s = exec i { s with pending := rest, resp := .accepted, cmd := encode i } := by
  rw [step_write (r := .cmd) h]
  have : decode (encode i) = .ok i := by cases i <;> rfl
  simp only [writeReg, writeCmd, runWord, this]

/-- A QUANT form passes the events still to come through. -/
theorem quantForm_pending (q : QuantOperand) (s : State) (rest : List Event) :
    exec (Spec.quantForm q) { s with pending := rest }
      = Spec.mapNext (fun t => { t with pending := rest }) (exec (Spec.quantForm q) s) := by
  have into : ∀ x r, quantInto x r { s with pending := rest }
      = Spec.mapNext (fun t => { t with pending := rest }) (quantInto x r s) := by
    intro x r
    unfold quantInto
    repeat' split
    all_goals rfl
  cases q with
  | range n => rw [Spec.quantForm, exec_quantInstr, exec_quantInstr]; exact into _ _
  | gen =>
    show execQuantGen _ = Spec.mapNext _ (execQuantGen _)
    unfold execQuantGen
    rw [show generalRange { s with pending := rest } = generalRange s from rfl]
    repeat' split
    · rfl
    · rfl
    · exact into _ _

end Sys2Proof.Machine
end

