-- ==== Sys2Proof/Laws/Packer.lean ====
section
/-! SUPPORT. PACK's codes and payload and UNPACK's telemetry against the spec's formulas (R153, R181,
R182, R190). -/

namespace Sys2Proof.Machine

open Sys2Proof

/-- A NaN input has no code (R153). -/
theorem clampedCode_none {n : RangeName} {w : Word} (h : Spec.IsNaN w) : clampedCode n w = none := by
  rw [clampedCode, value_of_isNaN h]; rfl

/-- The code of any other input is the spec's (R153, R182). -/
theorem clampedCode_some (n : RangeName) {w : Word} (h : ¬ Spec.IsNaN w) :
    clampedCode n w = some (Spec.quantize (Spec.clampWord w (Spec.rangeMin n) (Spec.rangeMax n))
      (Spec.rangeMin n) (Spec.rangeMax n) (Spec.rangeBits n)) := by
  unfold clampedCode Spec.clampWord
  by_cases hi : Spec.IsInf w
  · rw [value_of_isInf hi, if_pos hi]
    split
    · simp only [clampValue, Option.map_some, quantize_range, range_min]
    · simp only [clampValue, Option.map_some, quantize_range, range_max]
  · have hf : Spec.IsFinite w := fun he => by
      by_cases hz : Spec.fracOf w = 0
      · exact hi ⟨he, hz⟩
      · exact h ⟨he, hz⟩
    rw [value_of_isFinite hf, if_neg hi]
    simp only [clampValue, Option.map_some, quantize_range, val_eq, ← range_min, ← range_max, lt_div_units]
    congr 2
    split_ifs <;> rfl

/-- A clamped value lies between its bounds (R11). -/
theorem clampWord_mem (w : Word) {lo hi : ℚ} (h : lo ≤ hi) :
    lo ≤ Spec.clampWord w lo hi ∧ Spec.clampWord w lo hi ≤ hi := by
  unfold Spec.clampWord
  split_ifs <;> constructor <;> linarith

/-- PACK's code is the spec's, and fits its field (R143, R182). -/
theorem packCode_eq (n : RangeName) (s : State) :
    ((Spec.packCode n s : ℕ) : ℤ) = Spec.quantize (Spec.packValue n s) (Spec.rangeMin n)
      (Spec.rangeMax n) (Spec.rangeBits n) ∧
    Spec.packCode n s < 2 ^ Spec.rangeBits n := by
  have hlt : Spec.rangeMin n < Spec.rangeMax n := range_ltq n
  obtain ⟨h1, h2⟩ := clampWord_mem (Spec.packInput n s) hlt.le
  obtain ⟨q0, q1⟩ := quantize_bounds h1 h2 hlt
  unfold Spec.packCode
  have e : ((Spec.quantize (Spec.packValue n s) (Spec.rangeMin n) (Spec.rangeMax n)
      (Spec.rangeBits n)).toNat : ℤ) = _ := Int.toNat_of_nonneg q0
  refine ⟨e, ?_⟩
  have := two_pow_sub (Spec.rangeBits n)
  have := Nat.one_le_two_pow (n := Spec.rangeBits n)
  unfold Spec.packValue at e ⊢
  omega

/-- A field of the payload holds its code. -/
theorem ofInt_packCode (n : RangeName) (s : State) (b : ℕ) (hb : b = Spec.rangeBits n) :
    (BitVec.ofInt b (Spec.quantize (Spec.packValue n s) (Spec.rangeMin n) (Spec.rangeMax n)
      (Spec.rangeBits n))).toNat = Spec.packCode n s := by
  obtain ⟨h1, h2⟩ := packCode_eq n s
  subst hb
  rw [BitVec.toNat_ofInt, ← h1]
  norm_cast
  rw [Nat.mod_eq_of_lt h2]

/-- Without a NaN the payload is W (R181, R182). -/
theorem packedPayload_some {s : State} (h : Spec.NoNaNInput s) :
    ∃ w, packedPayload s = some w ∧ w.toNat = Spec.packWord s := by
  unfold packedPayload
  have a := clampedCode_some .pos (h .pos)
  have b := clampedCode_some .vel (h .vel)
  have c := clampedCode_some .kp (h .kp)
  have d := clampedCode_some .kd (h .kd)
  have e := clampedCode_some .tor (h .tor)
  simp only [Spec.packInput] at a b c d e
  rw [a, b, c, d, e]
  refine ⟨_, rfl, ?_⟩
  simp only [append_toNat]
  have := ofInt_packCode .pos s 16 rfl
  have := ofInt_packCode .vel s 12 rfl
  have := ofInt_packCode .kp s 12 rfl
  have := ofInt_packCode .kd s 12 rfl
  have := ofInt_packCode .tor s 12 rfl
  simp only [Spec.packValue, Spec.packInput] at *
  unfold Spec.packWord
  omega

/-- With a NaN there is no payload (R182). -/
theorem packedPayload_none {s : State} (h : ∃ n, Spec.IsNaN (Spec.packInput n s)) :
    packedPayload s = none := by
  obtain ⟨n, h⟩ := h
  have hn := clampedCode_none (n := n) h
  unfold packedPayload
  cases n <;> simp only [Spec.packInput] at hn <;> rw [hn] <;> (split <;> first | rfl | simp_all)

/-- The telemetry of a payload in the spec's codes (R190). -/
theorem telemetryOf_eq (d0 d1 : Word) : telemetryOf d0 d1 =
    { pos := dequantizeWord (Spec.statusCodes d0 d1).1 (rangeOf .pos)
      vel := dequantizeWord (Spec.statusCodes d0 d1).2.1 (rangeOf .vel)
      tor := dequantizeWord (Spec.statusCodes d0 d1).2.2 (rangeOf .tor)
      rawPos := BitVec.ofNat 16 (Spec.statusCodes d0 d1).1
      rawVel := BitVec.ofNat 12 (Spec.statusCodes d0 d1).2.1
      rawTor := BitVec.ofNat 12 (Spec.statusCodes d0 d1).2.2 } := by
  have l0 := d0.isLt
  have l1 := d1.isLt
  have e0 : (d0 ++ d1 : BitVec 64).toNat = d0.toNat * 2 ^ 32 + d1.toNat := append_toNat _ _
  have w1 : ((d0 ++ d1 : BitVec 64).extractLsb' 48 16).toNat = (Spec.statusCodes d0 d1).1 := by
    rw [BitVec.extractLsb'_toNat, e0, Nat.shiftRight_eq_div_pow]; simp only [Spec.statusCodes]; omega
  have w2 : ((d0 ++ d1 : BitVec 64).extractLsb' 36 12).toNat = (Spec.statusCodes d0 d1).2.1 := by
    rw [BitVec.extractLsb'_toNat, e0, Nat.shiftRight_eq_div_pow]; simp only [Spec.statusCodes]; omega
  have w3 : ((d0 ++ d1 : BitVec 64).extractLsb' 0 12).toNat = (Spec.statusCodes d0 d1).2.2 := by
    rw [BitVec.extractLsb'_toNat, e0, Nat.shiftRight_eq_div_pow]; simp only [Spec.statusCodes]; omega
  simp only [telemetryOf, ← w1, ← w2, ← w3, BitVec.ofNat_toNat, BitVec.setWidth_eq]

/-- The status codes fit their fields. -/
theorem statusCodes_lt (d0 d1 : Word) :
    (Spec.statusCodes d0 d1).1 < 2 ^ 16 ∧ (Spec.statusCodes d0 d1).2.1 < 2 ^ 12 ∧
    (Spec.statusCodes d0 d1).2.2 < 2 ^ 12 := by
  have := d0.isLt
  have := d1.isLt
  refine ⟨?_, ?_, ?_⟩ <;> simp only [Spec.statusCodes] <;> omega

/-- UNPACK's updates in the terms of the statements. -/
theorem setTel_completed (x : Telemetry) (s : State) :
    (Host.Outcome.next ((s.setTel x).setTelv).clearErr : Result)
      = .next (Spec.completed { s with tel := x, status := { s.status with telv := true } }) := rfl

/-- The telemetry words are rne32 of the dequantized raw codes (R190). -/
theorem raw_rne (d0 d1 : Word) (x : Telemetry) (h : x = telemetryOf d0 d1) :
    Spec.Rne32 (Spec.dequantize x.rawPos.toNat (-40) 40 16) x.pos ∧
    Spec.Rne32 (Spec.dequantize x.rawVel.toNat (-50) 50 12) x.vel ∧
    Spec.Rne32 (Spec.dequantize x.rawTor.toNat (-25) 25 12) x.tor := by
  have e1 : x.pos = dequantizeWord x.rawPos.toNat (rangeOf .pos) := by rw [h, telemetryOf]
  have e2 : x.vel = dequantizeWord x.rawVel.toNat (rangeOf .vel) := by rw [h, telemetryOf]
  have e3 : x.tor = dequantizeWord x.rawTor.toNat (rangeOf .tor) := by rw [h, telemetryOf]
  rw [e1, e2, e3]
  have l1 := x.rawPos.isLt
  have l2 := x.rawVel.isLt
  have l3 := x.rawTor.isLt
  exact ⟨dequantizeWord_range _ .pos (Nat.le_sub_one_of_lt l1),
    dequantizeWord_range _ .vel (Nat.le_sub_one_of_lt l2),
    dequantizeWord_range _ .tor (Nat.le_sub_one_of_lt l3)⟩

end Sys2Proof.Machine
end

