-- ==== Sys2Proof/Laws/PerInstr.lean ====
section
/-! SUPPORT. The per-instruction family Encoding: a command's encoding is the word R117 lists for it,
and it is a legal word. -/

namespace Sys2Proof.Laws.Encoding

open Sys2Proof

/-- The encoder's word is the listed word, and it is legal (R115, R117). -/
def Statement (i : Instr) : Prop := encode i = i.listedWord ∧ i.wf = true

theorem nop : Statement .nop := by unfold Statement; decide

theorem quantPos : Statement .quantPos := by unfold Statement; decide

theorem quantVel : Statement .quantVel := by unfold Statement; decide

theorem quantKp : Statement .quantKp := by unfold Statement; decide

theorem quantKd : Statement .quantKd := by unfold Statement; decide

theorem quantTor : Statement .quantTor := by unfold Statement; decide

theorem quantGen : Statement .quantGen := by unfold Statement; decide

theorem dequantPos : Statement .dequantPos := by unfold Statement; decide

theorem dequantVel : Statement .dequantVel := by unfold Statement; decide

theorem dequantKp : Statement .dequantKp := by unfold Statement; decide

theorem dequantKd : Statement .dequantKd := by unfold Statement; decide

theorem dequantTor : Statement .dequantTor := by unfold Statement; decide

theorem dequantGen : Statement .dequantGen := by unfold Statement; decide

theorem pack : Statement .pack := by unfold Statement; decide

theorem sentEnter : Statement .sentEnter := by unfold Statement; decide

theorem sentStop : Statement .sentStop := by unfold Statement; decide

theorem sentRezero : Statement .sentRezero := by unfold Statement; decide

theorem unpackIf : Statement .unpackIf := by unfold Statement; decide

theorem unpackOf : Statement .unpackOf := by unfold Statement; decide

theorem poll : Statement .poll := by unfold Statement; decide

theorem rdslot0 : Statement .rdslot0 := by unfold Statement; decide

theorem rdslot1 : Statement .rdslot1 := by unfold Statement; decide

theorem rdslot2 : Statement .rdslot2 := by unfold Statement; decide

theorem rdslot3 : Statement .rdslot3 := by unfold Statement; decide

theorem find : Statement .find := by unfold Statement; decide

theorem onslot0 : Statement .onslot0 := by unfold Statement; decide

theorem onslot1 : Statement .onslot1 := by unfold Statement; decide

theorem onslot2 : Statement .onslot2 := by unfold Statement; decide

theorem onslot3 : Statement .onslot3 := by unfold Statement; decide

theorem onid : Statement .onid := by unfold Statement; decide

end Sys2Proof.Laws.Encoding
end

