-- ==== Sys2Proof/Tests/Slice0.lean ====
section
/-! SUPPORT. The model's own tests. Decoding: each command's word written out bit by bit from R110 and
R117. WellFormed: for each check, a term it refuses. Steps: expected results from
spec/95_test_vectors.md (the vector's id stands in the docstring) or from the rule named. Witnesses:
for each statement with hypotheses, a state and operands that meet them. -/

namespace Sys2Proof.Tests

open Sys2Proof Sys2Proof.Machine

/-! ### Helpers -/

/-- The outcome is a next state that passes the check. -/
def nextIs (o : Result) (check : State → Bool) : Bool :=
  match o with
  | .next t => check t
  | _ => false

/-- One step from `s` on the host's write of a word to CMD passes the check. -/
def onCmd (w : Nat) (s : State) (check : State → Bool) : Bool :=
  nextIs (step (s.withFetchWord 32 w)) check

/-- One step from `s` on an event passes the check. -/
def onEvent (e : Event) (s : State) (check : State → Bool) : Bool :=
  nextIs (step { s with pending := [e] }) check

/-- STATUS as a number. -/
def statusOf (s : State) : Nat := (readReg .status s).toNat

/-- The reset state with operands in ARG0 to ARG4. -/
def args (a0 a1 a2 a3 a4 : Word) : State :=
  { State.reset with arg0 := a0, arg1 := a1, arg2 := a2, arg3 := a3, arg4 := a4 }

/-- The reset state with an identifier in ARGID. -/
def withId (id : BitVec 29) (ext : Bool) (s : State) : State := { s with argId := ⟨id, ext⟩ }

/-- Frame A of the test vectors (2.4). -/
def frameA : Frame := ⟨1, false, false, 8, ⟨0x80, 0x00, 0x80, 0x00, 0x00, 0x00, 0x08, 0x00⟩⟩

/-- Frame B of the test vectors (2.4). -/
def frameB : Frame := ⟨2, false, false, 8, ⟨0x9F, 0xFF, 0x80, 0x01, 0x9A, 0x33, 0x38, 0x00⟩⟩

/-- Frame D of the test vectors (2.4). -/
def frameD : Frame := ⟨4, false, false, 0, Payload.zero⟩

/-- Frame E of the test vectors (2.4). -/
def frameE : Frame := ⟨1, false, false, 8, ⟨0x7F, 0xFF, 0x7F, 0xF0, 0x00, 0x00, 0x07, 0xFF⟩⟩

/-- Frame F of the test vectors (2.4). -/
def frameF : Frame := ⟨2, false, true, 3, Payload.zero⟩

/-- Slots E@1200, B@1000, unwritten, D@1200, at NOW, with ARGID.ID. -/
def cacheState (now : Word) (id : BitVec 29) : State :=
  { State.reset with
    slots := ⟨⟨frameE, 1200, true⟩, ⟨frameB, 1000, true⟩, Slot.empty, ⟨frameD, 1200, true⟩⟩
    now := now
    argId := ⟨id, false⟩ }

/-- The reset state in RESTART mode. -/
def restartReset : State := { State.reset with params := { State.reset.params with wrptrMode := .restart } }

/-! ### Decoding (R110, R117) -/

theorem test_decode_nop : decode 0b00000000000000000000000000000000 = .ok .nop := by decide

theorem test_decode_quantPos : decode 0b00010000000000000000000000000000 = .ok .quantPos := by decide

theorem test_decode_quantVel : decode 0b00010001000000000000000000000000 = .ok .quantVel := by decide

theorem test_decode_quantKp : decode 0b00010010000000000000000000000000 = .ok .quantKp := by decide

theorem test_decode_quantKd : decode 0b00010011000000000000000000000000 = .ok .quantKd := by decide

theorem test_decode_quantTor : decode 0b00010100000000000000000000000000 = .ok .quantTor := by decide

theorem test_decode_quantGen : decode 0b00011111000000000000000000000000 = .ok .quantGen := by decide

theorem test_decode_dequantPos : decode 0b00100000000000000000000000000000 = .ok .dequantPos := by decide

theorem test_decode_dequantVel : decode 0b00100001000000000000000000000000 = .ok .dequantVel := by decide

theorem test_decode_dequantKp : decode 0b00100010000000000000000000000000 = .ok .dequantKp := by decide

theorem test_decode_dequantKd : decode 0b00100011000000000000000000000000 = .ok .dequantKd := by decide

theorem test_decode_dequantTor : decode 0b00100100000000000000000000000000 = .ok .dequantTor := by decide

theorem test_decode_dequantGen : decode 0b00101111000000000000000000000000 = .ok .dequantGen := by decide

theorem test_decode_pack : decode 0b00110000000000000000000000000000 = .ok .pack := by decide

theorem test_decode_sentEnter : decode 0b01000000000000000000000000000000 = .ok .sentEnter := by decide

theorem test_decode_sentStop : decode 0b01000001000000000000000000000000 = .ok .sentStop := by decide

theorem test_decode_sentRezero : decode 0b01000010000000000000000000000000 = .ok .sentRezero := by decide

theorem test_decode_unpackIf : decode 0b01010000000000000000000000000000 = .ok .unpackIf := by decide

theorem test_decode_unpackOf : decode 0b01010001000000000000000000000000 = .ok .unpackOf := by decide

theorem test_decode_poll : decode 0b01100000000000000000000000000000 = .ok .poll := by decide

theorem test_decode_rdslot0 : decode 0b01110000000000000000000000000000 = .ok .rdslot0 := by decide

theorem test_decode_rdslot1 : decode 0b01110001000000000000000000000000 = .ok .rdslot1 := by decide

theorem test_decode_rdslot2 : decode 0b01110010000000000000000000000000 = .ok .rdslot2 := by decide

theorem test_decode_rdslot3 : decode 0b01110011000000000000000000000000 = .ok .rdslot3 := by decide

theorem test_decode_find : decode 0b10000000000000000000000000000000 = .ok .find := by decide

theorem test_decode_onslot0 : decode 0b10010000000000000000000000000000 = .ok .onslot0 := by decide

theorem test_decode_onslot1 : decode 0b10010001000000000000000000000000 = .ok .onslot1 := by decide

theorem test_decode_onslot2 : decode 0b10010010000000000000000000000000 = .ok .onslot2 := by decide

theorem test_decode_onslot3 : decode 0b10010011000000000000000000000000 = .ok .onslot3 := by decide

theorem test_decode_onid : decode 0b10100000000000000000000000000000 = .ok .onid := by decide

/-- X1, X2, X3, X4 of the vectors: ILLEGAL for RSV, OP 0xB, OP 0xC, and RSV before SEL. -/
theorem test_decode_illegal :
    [decode 0x10000001, decode 0xB0000000, decode 0xC5000000, decode 0x1F000001]
      = [.error .illegal, .error .illegal, .error .illegal, .error .illegal] := by decide

/-- X5, X6, H11 of the vectors: BADSEL. -/
theorem test_decode_badsel :
    [decode 0x15000000, decode 0x74000000, decode 0x0F000000]
      = [.error .badsel, .error .badsel, .error .badsel] := by decide

theorem test_decodeTableWord :
    [decodeTableWord 32 0x1F000000, decodeTableWord 32 0x00000000, decodeTableWord 32 0xB0000000]
      = [some .quantGen, some .nop, none] := by decide

/-- The next step after `withFetchWord` runs the word. -/
theorem test_withFetchWord : onCmd 0x51000000 { State.reset with outFrame := ⟨5, 8, false, false, 0, 0⟩ }
    (fun t => t.cmd == 0x51000000 && t.status.telv && t.pending == []) = true := by decide

/-! ### WellFormed: each check refuses an ill-formed term -/

theorem test_wf_rsvZero : CommandWord.rsvZero 0x10000001 = false ∧
    CommandWord.wf 0x10000001 = false := by decide

theorem test_wf_opLegal : CommandWord.opLegal 0xB0000000 = false ∧
    CommandWord.wf 0xB0000000 = false := by decide

theorem test_wf_selLegal : CommandWord.selLegal 0x15000000 = false ∧
    CommandWord.selLegal 0x43000000 = false ∧ CommandWord.selLegal 0x52000000 = false ∧
    CommandWord.selLegal 0x74000000 = false ∧ CommandWord.selLegal 0x0F000000 = false ∧
    CommandWord.wf 0x15000000 = false := by decide

theorem test_wf_legal_word : CommandWord.wf 0x1F000000 = true ∧ Instr.wf .onid = true := by decide

theorem test_wf_inWindow : Access.inWindow State.reset.params (.read 0x100 4) = false ∧
    Access.wf State.reset.params (.read 0x100 4) = false := by decide

theorem test_wf_widthOk : Access.widthOk (.write 0x08 2 0) = false ∧
    Access.wf State.reset.params (.write 0x08 2 0) = false := by decide

theorem test_wf_aligned : Access.aligned State.reset.params (.read 0x02 4) = false ∧
    Access.wf State.reset.params (.read 0x02 4) = false := by decide

theorem test_wf_mapped : Access.mapped State.reset.params (.read 0x68 4) = false ∧
    Access.wf State.reset.params (.read 0x68 4) = false := by decide

theorem test_wf_legal_access : Access.wf State.reset.params (.read 0x64 4) = true := by decide

/-! ### Commands -/

/-- H10. -/
theorem test_nop :
    onCmd 0x00000000 { State.reset with status := ⟨.badwidth, false, false, 0, true, false⟩ }
      (fun t => statusOf t == 0x00008000) = true := by decide

/-- Q6, a tie that rounds up. -/
theorem test_quantPos :
    onCmd 0x10000000 (args 0xC2000000 0 0 0 0)
      (fun t => t.qres == 0x199A && statusOf t == 0) = true := by decide

/-- Q9, one ulp above max. -/
theorem test_quantPos_above_max :
    onCmd 0x10000000 (args 0x42200001 0 0 0 0)
      (fun t => t.qres == 0 && statusOf t == 0x00008004) = true := by decide

/-- Q13, a tie that rounds up. -/
theorem test_quantVel :
    onCmd 0x11000000 (args 0x00000000 0 0 0 0)
      (fun t => t.qres == 0x0800 && statusOf t == 0) = true := by decide

/-- Q17. -/
theorem test_quantVel_rounds_down :
    onCmd 0x11000000 (args 0x3F800000 0 0 0 0)
      (fun t => t.qres == 0x0828 && statusOf t == 0) = true := by decide

/-- Q18, a tie that rounds up. -/
theorem test_quantKp :
    onCmd 0x12000000 (args 0x42480000 0 0 0 0)
      (fun t => t.qres == 0x019A && statusOf t == 0) = true := by decide

/-- Q21, -0 is the min. -/
theorem test_quantKp_minus_zero :
    onCmd 0x12000000 (args 0x80000000 0 0 0 0)
      (fun t => t.qres == 0x0000 && statusOf t == 0) = true := by decide

/-- Q23. -/
theorem test_quantKd :
    onCmd 0x13000000 (args 0x3F800000 0 0 0 0)
      (fun t => t.qres == 0x0333 && statusOf t == 0) = true := by decide

/-- Q26. -/
theorem test_quantKd_max :
    onCmd 0x13000000 (args 0x40A00000 0 0 0 0)
      (fun t => t.qres == 0x0FFF && statusOf t == 0) = true := by decide

/-- Q31, a tie of a negative value. -/
theorem test_quantTor :
    onCmd 0x14000000 (args 0xC1200000 0 0 0 0)
      (fun t => t.qres == 0x04CD && statusOf t == 0) = true := by decide

/-- Q32. -/
theorem test_quantTor_collision :
    onCmd 0x14000000 (args 0x41C7AE14 0 0 0 0)
      (fun t => t.qres == 0x0FFC && statusOf t == 0) = true := by decide

/-- QG4, a tie. -/
theorem test_quantGen :
    onCmd 0x1F000000 (args 0x40400000 0xBF800000 0x40E00000 12 0)
      (fun t => t.qres == 0x0800 && statusOf t == 0) = true := by decide

/-- QG9, NONFINITE before BADWIDTH. -/
theorem test_quantGen_order :
    onCmd 0x1F000000 (args 0x3F000000 0x7FC00000 0x3F800000 8 0)
      (fun t => t.qres == 0 && statusOf t == 0x00008003) = true := by decide

/-- DQ3. -/
theorem test_dequantPos :
    onCmd 0x20000000 (args 32767 0 0 0 0)
      (fun t => t.dres == 0xBA2000A0 && statusOf t == 0) = true := by decide

/-- DQ7. -/
theorem test_dequantPos_not_masked :
    onCmd 0x20000000 (args 0xFFFFFFFF 0 0 0 0)
      (fun t => t.dres == 0 && statusOf t == 0x00008007) = true := by decide

/-- DQ9. -/
theorem test_dequantVel :
    onCmd 0x21000000 (args 2048 0 0 0 0)
      (fun t => t.dres == 0x3C480C81 && statusOf t == 0) = true := by decide

/-- DQ11. -/
theorem test_dequantVel_badcode :
    onCmd 0x21000000 (args 4096 0 0 0 0)
      (fun t => t.dres == 0 && statusOf t == 0x00008007) = true := by decide

/-- DQ13. -/
theorem test_dequantKp :
    onCmd 0x22000000 (args 410 0 0 0 0)
      (fun t => t.dres == 0x42483E84 && statusOf t == 0) = true := by decide

/-- DQ12, +0.0. -/
theorem test_dequantKp_zero :
    onCmd 0x22000000 (args 0 0 0 0 0)
      (fun t => t.dres == 0x00000000 && statusOf t == 0) = true := by decide

/-- DQ16. -/
theorem test_dequantKd :
    onCmd 0x23000000 (args 410 0 0 0 0)
      (fun t => t.dres == 0x3F002803 && statusOf t == 0) = true := by decide

/-- DQ15. -/
theorem test_dequantKd_one :
    onCmd 0x23000000 (args 819 0 0 0 0)
      (fun t => t.dres == 0x3F800000 && statusOf t == 0) = true := by decide

/-- DQ18. -/
theorem test_dequantTor :
    onCmd 0x24000000 (args 1 0 0 0 0)
      (fun t => t.dres == 0xC1C7E6FE && statusOf t == 0) = true := by decide

/-- DQ19. -/
theorem test_dequantTor_high :
    onCmd 0x24000000 (args 4092 0 0 0 0)
      (fun t => t.dres == 0x41C7B4FB && statusOf t == 0) = true := by decide

/-- DG4. -/
theorem test_dequantGen :
    onCmd 0x2F000000 (args 2048 0xBF800000 0x40E00000 12 0)
      (fun t => t.dres == 0x40401001 && statusOf t == 0) = true := by decide

/-- DG9, BADWIDTH before BADSPAN and BADCODE. -/
theorem test_dequantGen_order :
    onCmd 0x2F000000 (args 65536 0 0 0 0)
      (fun t => t.dres == 0 && statusOf t == 0x00008005) = true := by decide

/-- PK9. -/
theorem test_pack :
    onCmd 0x30000000 (withId 0x141 false (args 0x3F800000 0xBF800000 0x42C80000 0x3F000000 0xC0000000))
      (fun t => t.outFrame == ⟨0x141, 8, false, false, 0x83337D73, 0x3319A75C⟩ && statusOf t == 0) = true := by decide

/-- PK14, NONFINITE before BADID. -/
theorem test_pack_order :
    onCmd 0x30000000 (withId 0x900 false (args 0x7FC00000 0 0 0 0))
      (fun t => t.outFrame == FrameRegs.zero && statusOf t == 0x00008003) = true := by decide

/-- S1. -/
theorem test_sentEnter :
    onCmd 0x40000000 (withId 1 false State.reset)
      (fun t => t.outFrame == ⟨1, 8, false, false, 0xFFFFFFFF, 0xFFFFFFFC⟩ && statusOf t == 0) = true := by decide

/-- S5. -/
theorem test_sentEnter_badid :
    onCmd 0x40000000 (withId 0x1000 false State.reset)
      (fun t => t.outFrame == FrameRegs.zero && statusOf t == 0x00008009) = true := by decide

/-- S2. -/
theorem test_sentStop :
    onCmd 0x41000000 (withId 2 false State.reset)
      (fun t => t.outFrame == ⟨2, 8, false, false, 0xFFFFFFFF, 0xFFFFFFFD⟩ && statusOf t == 0) = true := by decide

/-- S3, an extended identifier. -/
theorem test_sentRezero :
    onCmd 0x42000000 (withId 0x01ABCDE0 true State.reset)
      (fun t => t.outFrame == ⟨0x01ABCDE0, 8, true, false, 0xFFFFFFFF, 0xFFFFFFFE⟩ && statusOf t == 0) = true := by decide

/-- U1. -/
theorem test_unpackIf :
    onCmd 0x50000000 { State.reset with inFrame := ⟨5, 8, false, false, 0x01234567, 0x89ABCDEF⟩ }
      (fun t => readReg .telPos t == 0xC21E943F && readReg .telVel t == 0xC1B72672
        && readReg .telTor t == 0x41946CC7 && readReg .telRaw0 t == 0x04560123
        && readReg .telRaw1 t == 0x00000DEF && statusOf t == 0x00010000) = true := by decide

/-- P3: LEN 7. -/
theorem test_unpackIf_length :
    onCmd 0x50000000 { State.reset with inFrame := ⟨0, 7, false, false, 0, 0⟩ }
      (fun t => t.tel == ⟨0, 0, 0, 0, 0, 0⟩ && statusOf t == 0x00008008) = true := by decide

/-- P1. -/
theorem test_unpackOf :
    onCmd 0x51000000 { State.reset with outFrame := ⟨1, 8, false, false, 0x9FFF8001, 0x9A333800⟩ }
      (fun t => t.tel == ⟨0x411FFE20, 0x3C480C81, 0x3BC80C81, 0x9FFF, 0x800, 0x800⟩
        && t.outFrame == ⟨1, 8, false, false, 0x9FFF8001, 0x9A333800⟩) = true := by decide

/-- K1, CYCLIC. -/
theorem test_poll :
    onCmd 0x60000000 { State.reset with now := 1000, rx := [some frameA, some frameB, none] }
      (fun t => t.slots == ⟨⟨frameA, 1000, true⟩, ⟨frameB, 1000, true⟩, Slot.empty, Slot.empty⟩
        && statusOf t == 0x00001C80 && t.rx == []) = true := by decide

/-- K2, RESTART: the second POLL starts at slot 0 again. -/
theorem test_poll_restart :
    onCmd 0x60000000 { restartReset with
        slots := ⟨⟨frameA, 1000, true⟩, ⟨frameB, 1000, true⟩, Slot.empty, Slot.empty⟩
        now := 1200, rx := [some frameF, none, some frameE] }
      (fun t => t.slots == ⟨⟨frameF, 1200, true⟩, ⟨frameB, 1000, true⟩, Slot.empty, Slot.empty⟩
        && statusOf t == 0x00001840 && t.rx == [some frameE]) = true := by decide

/-- K3. -/
theorem test_rdslot0 :
    onCmd 0x70000000 (cacheState 1200 0)
      (fun t => t.outFrame == ⟨1, 8, false, false, 0x7FFF7FF0, 0x000007FF⟩ && t.tsres == 1200 && t.status.found) = true := by decide

/-- K4. -/
theorem test_rdslot1 :
    onCmd 0x71000000 (cacheState 1200 0)
      (fun t => t.outFrame == ⟨2, 8, false, false, 0x9FFF8001, 0x9A333800⟩ && t.tsres == 1000 && t.status.found) = true := by decide

/-- R227: an unwritten slot. -/
theorem test_rdslot2 :
    onCmd 0x72000000 { cacheState 1200 0 with outFrame := ⟨1, 8, true, true, 1, 1⟩, tsres := 7 }
      (fun t => t.outFrame == FrameRegs.zero && t.tsres == 0 && !t.status.found) = true := by decide

/-- K5. -/
theorem test_rdslot3 :
    onCmd 0x73000000 (cacheState 1200 0)
      (fun t => t.outFrame == ⟨4, 0, false, false, 0, 0⟩ && t.tsres == 1200 && t.status.found) = true := by decide

/-- The stale duplicate of 2.4: the lower slot wins. -/
theorem test_find :
    onCmd 0x80000000 { cacheState 1500 1 with
        slots := ⟨⟨frameA, 1000, true⟩, ⟨frameB, 1000, true⟩, Slot.empty, ⟨frameE, 1500, true⟩⟩ }
      (fun t => t.outFrame.d0 == 0x80008000 && t.tsres == 1000 && t.status.found) = true := by decide

/-- K8. -/
theorem test_find_miss :
    onCmd 0x80000000 (cacheState 1500 9)
      (fun t => t.outFrame == FrameRegs.zero && t.tsres == 0 && !t.status.found) = true := by decide

/-- K11: age 600 is online. -/
theorem test_onslot0 :
    onCmd 0x90000000 (cacheState 1800 0) (fun t => t.status.online) = true := by decide

/-- Wrap of 2.4: age 600 across 2^32. -/
theorem test_onslot0_wrap :
    onCmd 0x90000000 { cacheState 0x00000158 0 with
        slots := ⟨⟨frameA, 0xFFFFFF00, true⟩, Slot.empty, Slot.empty, Slot.empty⟩ }
      (fun t => t.status.online) = true := by decide

/-- K10: age 601 is offline. -/
theorem test_onslot1 :
    onCmd 0x91000000 (cacheState 1601 0) (fun t => !t.status.online) = true := by decide

/-- Reset state of 2.4: an unwritten slot is offline. -/
theorem test_onslot2 :
    onCmd 0x92000000 (cacheState 100 0) (fun t => !t.status.online) = true := by decide

/-- K12: age 601 is offline. -/
theorem test_onslot3 :
    onCmd 0x93000000 (cacheState 1801 0) (fun t => !t.status.online) = true := by decide

/-- K9: ID 2 at age 600. -/
theorem test_onid :
    onCmd 0xA0000000 (cacheState 1600 2) (fun t => t.status.online) = true := by decide

/-- The stale duplicate of 2.4: the newer slot counts. -/
theorem test_onid_any_slot :
    onCmd 0xA0000000 { cacheState 1700 1 with
        slots := ⟨⟨frameA, 1000, true⟩, Slot.empty, Slot.empty, ⟨frameE, 1500, true⟩⟩ }
      (fun t => t.status.online) = true := by decide

/-! ### Host accesses, ports and reset -/

/-- H2. -/
theorem test_write_argId : onEvent (wr State.reset.params .argId 0xE0000005) State.reset
    (fun t => readReg .argId t == 0x80000005 && t.resp == .accepted) = true := by decide

/-- H4. -/
theorem test_write_ifCtl : onEvent (wr State.reset.params .ifCtl 0xFFFFFFFF) State.reset
    (fun t => readReg .ifCtl t == 0x0000003F) = true := by decide

/-- H5. -/
theorem test_write_qres : onEvent (wr State.reset.params .qres 0x1234)
    { State.reset with qres := 0xFFFF } (fun t => readReg .qres t == 0x0000FFFF) = true := by decide

/-- H6 and H7. -/
theorem test_write_status :
    onEvent (wr State.reset.params .status 0x00007FFF)
      { State.reset with status := ⟨.none, false, false, 0, true, false⟩ }
      (fun t => statusOf t == 0x00008000) = true ∧
    onEvent (wr State.reset.params .status 0xFFFFFFFF)
      { State.reset with status := ⟨.none, false, false, 0, true, false⟩ }
      (fun t => statusOf t == 0) = true := by decide

/-- H1 and H9. -/
theorem test_read :
    onEvent (rd State.reset.params .argTmo) State.reset (fun t => t.resp == .data 0x258) = true ∧
    onEvent (rd State.reset.params .time) { State.reset with now := 0x12345678 }
      (fun t => t.resp == .data 0x12345678) = true := by decide

/-- The outcome is a bus error at an offset. -/
def busErrorAt (off : Nat) (o : Result) : Bool :=
  match o with
  | .fault (.busError a) => a == off
  | _ => false

/-- H8. -/
theorem test_bus_error : [(0x68, 4), (0xFC, 4), (0x02, 4), (0x00, 2)].all (fun (p : Nat × Nat) =>
    busErrorAt p.1 (step { State.reset with pending := [.access (.read p.1 p.2)] })) = true := by
  decide

/-- An address outside the window is no access to this block (log 7). -/
theorem test_outside_window : onEvent (.access (.read 0x100 4)) State.reset
    (fun t => t == State.reset) = true := by decide

/-- R51 and R50: the inputs of the two ports. -/
theorem test_ports :
    onEvent (.time 7) State.reset (fun t => t.now == 7) = true ∧
    onEvent (.receive (some frameA)) { State.reset with rx := [none] }
      (fun t => t.rx == [none, some frameA]) = true := by decide

/-- R310. -/
theorem test_reset : onEvent .reset { cacheState 5 3 with qres := 9, argTmo := 1 }
    (fun t => t == { State.reset with now := 5 }) = true := by decide

/-- R310: the STATUS word after reset. -/
theorem test_reset_status : statusOf State.reset = 0 := by decide

/-- R118: fp of 10, 33.3 and 2.2 (L1.7). -/
theorem test_fp : [fp 10 1, fp 333 10, fp 22 10, fp (-25) 1]
    = [0x41200000, 0x42053333, 0x400CCCCD, 0xC1C80000] := by decide

/-- L1.3: `isonline 1` at NOW = 1600 reads STATUS with ONLINE = 1, after its four steps. -/
theorem test_isonline : nextIs (Spec.steps 4 { State.reset with
      slots := ⟨⟨frameA, 1000, true⟩, Slot.empty, Slot.empty, Slot.empty⟩, wrptr := 1, now := 1600
      pending := pseudoIsonline State.reset.params 1 })
    (fun t => t.resp == .data 0x00000A20) = true := by decide

/-- R119: `quantv gen, 1` over 0 to 1 with 12 bits (ARG1 to ARG3) reads QRES = 4095, R143's code of max. -/
theorem test_quantv_gen : nextIs (Spec.steps 3 { State.reset with
      arg1 := 0x00000000, arg2 := 0x3F800000, arg3 := 12
      pending := pseudoQuantv State.reset.params .gen 0x3F800000 })
    (fun t => t.resp == .data 4095) = true := by decide

/-! ### Witnesses: states and operands that meet the hypotheses of the statements -/

/-- The reset state with a CMD write of w as the next event. -/
def fetch (w : Nat) : State := State.reset.withFetchWord 32 w

/-- The reset state with one event to come. -/
def next (e : Event) : State := { State.reset with pending := [e] }

/-- The reset state with a read of an offset to come. -/
def reading (off : Nat) : State := next (.access (.read off 4))

/-- The reset state with a write to an offset to come. -/
def writing (off : Nat) (v : Word) : State := next (.access (.write off 4 v))

/-- One word for each clause: RSV, OP at its lowest illegal value, SEL, legal (OP at its highest). -/
theorem witness_EveryCmdWordRunsOrRaisesInTheOrderOfItsChecks :
    (∀ w ∈ [0x00000001, 0xB0000000, 0x0F000000, 0xA0000000], (fetch w).pending
      = .access (.write (fetch w).params.qfcBase 4 (BitVec.ofNat 32 w)) :: []) ∧
    (0x00000001 : Word).toNat % 2 ^ 24 ≠ 0 ∧
    ((0xB0000000 : Word).toNat % 2 ^ 24 = 0 ∧ 0xA < (0xB0000000 : Word).toNat / 2 ^ 28) ∧
    ((0x0F000000 : Word).toNat % 2 ^ 24 = 0 ∧ (0x0F000000 : Word).toNat / 2 ^ 28 ≤ 0xA ∧
      CommandWord.selLegal 0x0F000000 = false) ∧
    ((0xA0000000 : Word).toNat % 2 ^ 24 = 0 ∧ (0xA0000000 : Word).toNat / 2 ^ 28 ≤ 0xA ∧
      CommandWord.selLegal 0xA0000000 = true) := by decide

theorem witness_StepRunsTheDecodedCommand :
    (fetch 0x60000000).pending
      = .access (.write (fetch 0x60000000).params.qfcBase 4 0x60000000) :: [] ∧
    decode 0x60000000 = .ok .poll := by decide

/-- Both clauses at the boundary offsets: 0x68 and 0xFF, an odd offset, a width of 2; 0 and 0x64. -/
theorem witness_BusErrorExactlyOnIllegalAccesses :
    (∀ a ∈ [Access.read 0x68 4, .write 0xFC 4 0, .read 0x63 4, .write 0x00 2 0],
      (next (.access a)).pending = .access a :: [] ∧
      a.inWindow (next (.access a)).params = true ∧
      (a.width ≠ 4 ∨ (a.addr - (next (.access a)).params.qfcBase) % 4 ≠ 0 ∨
        0x68 ≤ a.addr - (next (.access a)).params.qfcBase)) ∧
    (∀ a ∈ [Access.read 0x00 4, .write 0x64 4 0],
      (next (.access a)).pending = .access a :: [] ∧
      a.inWindow (next (.access a)).params = true ∧ a.width = 4 ∧
      (a.addr - (next (.access a)).params.qfcBase) % 4 = 0 ∧
      a.addr - (next (.access a)).params.qfcBase ≤ 0x64) := by decide

/-- Every row of the list of registers is met. -/
theorem witness_RegisterReadsReturnTheirWords : ∀ p ∈ Spec.registerWords State.reset,
    (reading p.1).pending = .access (.read ((reading p.1).params.qfcBase + p.1) 4) :: [] ∧
    (p.1, (BitVec.ofNat 32 p.2).toNat) ∈ Spec.registerWords (reading p.1) := by decide

theorem witness_StatusReadShowsEveryField : (reading 0x04).pending
    = .access (.read ((reading 0x04).params.qfcBase + 0x04) 4) :: [] := by decide

theorem witness_StatusWriteClearsOnlySticky :
    (∀ v ∈ [(0x00008000 : Word), 0xFFFF7FFF], (writing 0x04 v).pending
      = .access (.write ((writing 0x04 v).params.qfcBase + 0x04) 4 v) :: []) ∧
    (0x00008000 : Word).toNat / 2 ^ 15 % 2 = 1 ∧ (0xFFFF7FFF : Word).toNat / 2 ^ 15 % 2 = 0 :=
  ⟨fun _ _ => rfl, rfl, rfl⟩

/-- Every row of the list of operand registers is met. -/
theorem witness_OperandWritesStoreTheirFields : ∀ off ∈ [0x08, 0x0C, 0x10, 0x14, 0x18, 0x1C, 0x20,
      0x30, 0x34, 0x38, 0x3C],
    (writing off 0xFFFFFFFF).pending
      = .access (.write ((writing off 0xFFFFFFFF).params.qfcBase + off) 4 0xFFFFFFFF) :: [] ∧
    (Spec.operandWrites (writing off 0xFFFFFFFF) 0xFFFFFFFF).any (fun p => p.1 == off) = true := by
  decide

theorem witness_ReadOnlyAndReservedBitsIgnoreWrites :
    ∀ off ∈ [0x24, 0x64, 0x04, 0x1C, 0x30, 0x34], (writing off 0xFFFFFFFF).pending
      = .access (.write ((writing off 0xFFFFFFFF).params.qfcBase + off) 4 0xFFFFFFFF) :: [] := by
  decide

/-- Steps that change NOW, the RX answers by the transport, and the RX answers by a POLL. -/
theorem witness_OnlyTheOutsideChangesThePorts :
    (∃ t, step (next (.time 7)) = .next t ∧ t.now ≠ (next (.time 7)).now) ∧
    (∃ t, step (next (.receive none)) = .next t ∧ t.rx ≠ (next (.receive none)).rx) ∧
    (∃ t, step { fetch 0x60000000 with rx := [none] } = .next t ∧ t.rx ≠ [none]) :=
  ⟨⟨_, rfl, by decide⟩, ⟨_, rfl, by decide⟩, ⟨_, rfl, by decide⟩⟩

theorem witness_HardwareResetSetsEveryPieceOfState : (next .reset).pending = .reset :: [] := rfl

/-- A POLL that changes the slots and keeps a VALID slot, an UNPACK that changes the telemetry, and a
write that clears STICKY. -/
theorem witness_OnlyResetClearsTheCacheAndTelemetry :
    (∀ s ∈ [{ fetch 0x60000000 with rx := [some frameA] },
        { fetch 0x51000000 with outFrame := ⟨0, 8, false, false, 0, 0⟩ },
        { writing 0x04 0x00008000 with status := ⟨.none, false, false, 0, true, true⟩ }],
      s.pending ≠ [] ∧ s.pending.head? ≠ some .reset) ∧
    onCmd 0x60000000 { State.reset with rx := [some frameA] }
      (fun t => t.slots != State.reset.slots && t.wrptr != State.reset.wrptr) = true ∧
    onCmd 0x60000000 { State.reset with
        slots := ⟨⟨frameA, 1000, true⟩, Slot.empty, Slot.empty, Slot.empty⟩, wrptr := 1, rx := [some frameA] }
      (fun t => (t.slots.get 0).valid && (t.slots.get 1).valid) = true ∧
    onCmd 0x51000000 { State.reset with outFrame := ⟨0, 8, false, false, 0, 0⟩ }
      (fun t => t.tel != State.reset.tel && t.status.err == .none) = true ∧
    nextIs (step { writing 0x04 0x00008000 with status := ⟨.none, false, false, 0, true, true⟩ })
      (fun t => !t.status.sticky && t.status.telv) = true := by decide

/-- The value of a word between the bounds of a range, on the machine's integers. -/
theorem val_between {n : RangeName} {w : Word} (h1 : (rangeOf n).min ≤ finiteVal w)
    (h2 : finiteVal w ≤ (rangeOf n).max) :
    Spec.rangeMin n ≤ Spec.val w ∧ Spec.val w ≤ Spec.rangeMax n := by
  rw [val_eq, ← range_min, ← range_max, ← not_lt, ← not_lt, lt_div_units, lt_div_units]
  exact ⟨not_lt.2 h1, not_lt.2 h2⟩

/-- The value of a word beyond a bound of a range. -/
theorem val_outside {n : RangeName} {w : Word} (h : finiteVal w < (rangeOf n).min ∨
    (rangeOf n).max < finiteVal w) : Spec.val w < Spec.rangeMin n ∨ Spec.rangeMax n < Spec.val w := by
  rw [val_eq, ← range_min, ← range_max, lt_div_units, lt_div_units]
  exact h

/-- Each case of QUANT's fixed forms (NaN, infinity, one ulp above max, min and max), and each case of
the general form's checks. -/
theorem witness_QuantFollowsItsPseudocode :
    Spec.IsNaN 0x7FC00000 ∧ Spec.IsInf 0xFF800000 ∧
    (Spec.IsFinite 0x42200001 ∧
      (Spec.val 0x42200001 < Spec.rangeMin .pos ∨ Spec.rangeMax .pos < Spec.val 0x42200001)) ∧
    (Spec.IsFinite 0xC2200000 ∧ Spec.rangeMin .pos ≤ Spec.val 0xC2200000 ∧
      Spec.val 0xC2200000 ≤ Spec.rangeMax .pos) ∧
    (Spec.IsFinite 0x42200000 ∧ Spec.rangeMin .pos ≤ Spec.val 0x42200000 ∧
      Spec.val 0x42200000 ≤ Spec.rangeMax .pos) ∧
    ¬ Spec.IsNaN 0x3F000000 ∧ ¬ Spec.IsFinite 0x7F800000 ∧ Spec.IsFinite 0 ∧
    Spec.IsFinite 0x3F800000 ∧ ((13 : Word).toNat ≠ 12 ∧ (13 : Word).toNat ≠ 16) ∧
    ((16 : Word).toNat = 12 ∨ (16 : Word).toNat = 16) ∧
    Spec.val 0x3F800000 ≤ Spec.val 0x3F800000 ∧ Spec.val 0x00000000 < Spec.val 0x3F800000 :=
  ⟨by decide, by decide, ⟨by decide, val_outside (by decide)⟩,
    ⟨by decide, val_between (by decide) (by decide)⟩,
    ⟨by decide, val_between (by decide) (by decide)⟩, by decide, by decide, by decide, by decide,
    by decide, by decide, le_refl _, val_lt_val.2 (by decide)⟩

/-- Both cases of DEQUANT's end at their boundary codes, and each case of the general form's checks. -/
theorem witness_DequantFollowsItsPseudocode :
    2 ^ Spec.rangeBits .pos - 1 < (65536 : Word).toNat ∧
    (65535 : Word).toNat ≤ 2 ^ Spec.rangeBits .pos - 1 ∧
    ¬ Spec.IsFinite 0xFF800000 ∧ Spec.IsFinite 0 ∧ Spec.IsFinite 0x3F800000 ∧
    ((13 : Word).toNat ≠ 12 ∧ (13 : Word).toNat ≠ 16) ∧
    ((12 : Word).toNat = 12 ∨ (12 : Word).toNat = 16) ∧
    Spec.val 0x3F800000 ≤ Spec.val 0x3F800000 ∧ Spec.val 0x00000000 < Spec.val 0x3F800000 ∧
    2 ^ (12 : Word).toNat - 1 < (4096 : Word).toNat ∧
    (4095 : Word).toNat ≤ 2 ^ (12 : Word).toNat - 1 :=
  ⟨by decide, by decide, by decide, by decide, by decide, by decide, by decide, le_refl _,
    val_lt_val.2 (by decide), by decide, by decide⟩

/-- val(0x00000000) = 0. -/
theorem val_zero : Spec.val 0x00000000 = 0 := by
  rw [val_eq, show finiteVal 0x00000000 = 0 by decide]; norm_num

/-- val(0x3F800000) = 1. -/
theorem val_one : Spec.val 0x3F800000 = 1 := by
  rw [val_eq, show finiteVal 0x3F800000 = 2 ^ 149 by decide]; norm_num

/-- The general form's range of a 12-bit code from 0 to 1. -/
theorem quantRange_gen (w : Word) :
    Spec.QuantRange .gen (args w 0x00000000 0x3F800000 12 0) 0 1 12 :=
  ⟨show Spec.IsFinite 0x00000000 by decide, show Spec.IsFinite 0x3F800000 by decide,
    show Spec.val 0x00000000 < Spec.val 0x3F800000 by rw [val_zero, val_one]; norm_num, .inl rfl,
    val_zero.symm, val_one.symm, rfl⟩

/-- On every fixed range its min and its max, and over a range of the general form its ends 0 and 1. -/
theorem witness_QuantCodesFitAndAreMonotone :
    (∀ n : RangeName,
      Spec.QuantRange (.range n) (args (Spec.minWord n) 0 0 0 0)
        (Spec.rangeMin n) (Spec.rangeMax n) (Spec.rangeBits n) ∧
      Spec.IsFinite (args (Spec.minWord n) 0 0 0 0).arg0 ∧
      Spec.val (args (Spec.minWord n) 0 0 0 0).arg0 = Spec.rangeMin n ∧
      Spec.IsFinite (args (Spec.maxWord n) 0 0 0 0).arg0 ∧
      Spec.val (args (Spec.maxWord n) 0 0 0 0).arg0 = Spec.rangeMax n ∧
      Spec.rangeMin n ≤ Spec.rangeMax n ∧
      ∃ t', exec (Spec.quantInstr n) (args (Spec.maxWord n) 0 0 0 0) = .next t') ∧
    Spec.val (args 0x00000000 0x00000000 0x3F800000 12 0).arg0 = 0 ∧
    Spec.val (args 0x3F800000 0x00000000 0x3F800000 12 0).arg0 = 1 ∧
    Spec.QuantRange .gen (args 0x00000000 0x00000000 0x3F800000 12 0) 0 1 12 ∧
    Spec.QuantRange .gen (args 0x3F800000 0x00000000 0x3F800000 12 0) 0 1 12 ∧
    ∃ t', exec .quantGen (args 0x3F800000 0x00000000 0x3F800000 12 0) = .next t' := by
  exact ⟨fun n => ⟨⟨rfl, rfl, rfl⟩, (minWord_val n).1, (minWord_val n).2, (maxWord_val n).1,
    (maxWord_val n).2, (range_ltq n).le, (exec_effect _ _).imp fun _ h => h.1⟩, val_zero,
    val_one, quantRange_gen _, quantRange_gen _, (exec_effect _ _).imp fun _ h => h.1⟩

/-- A value in range that is a tie (the velocity 20) and one that is not (1). -/
theorem witness_TiesOccurExactlyAtTheListedInputsAndGoUp :
    (Spec.IsFinite (args 0x41A00000 0 0 0 0).arg0 ∧
      Spec.rangeMin .vel ≤ Spec.val (args 0x41A00000 0 0 0 0).arg0 ∧
      Spec.val (args 0x41A00000 0 0 0 0).arg0 ≤ Spec.rangeMax .vel ∧
      Spec.val (args 0x41A00000 0 0 0 0).arg0 ∈ Spec.tieInputs .vel) ∧
    (Spec.IsFinite (args 0x3F800000 0 0 0 0).arg0 ∧
      Spec.rangeMin .vel ≤ Spec.val (args 0x3F800000 0 0 0 0).arg0 ∧
      Spec.val (args 0x3F800000 0 0 0 0).arg0 ≤ Spec.rangeMax .vel) := by
  have e : Spec.val 0x41A00000 = 20 := by
    rw [val_eq, show finiteVal 0x41A00000 = units 20 from by decide, units_cast]; rfl
  refine ⟨⟨by decide, (val_between (by decide) (by decide)).1,
    (val_between (by decide) (by decide)).2, ?_⟩, by decide,
    (val_between (by decide) (by decide)).1, (val_between (by decide) (by decide)).2⟩
  show Spec.val 0x41A00000 ∈ _
  rw [e]
  simp [Spec.tieInputs]

/-- A DEQUANT of each form that completes, at the largest code. -/
theorem witness_DequantizedWordsLieInTheirRange :
    nextIs (exec (Spec.dequantInstr .tor) (args 4095 0 0 0 0)) (fun t => t.status.err == .none) = true ∧
    nextIs (exec .dequantGen (args 65535 0 0x3F800000 16 0)) (fun t => t.status.err == .none) = true := by
  decide

/-- The min of each fixed range and of a range of the general form, which is the exact value of code 0. -/
theorem witness_QuantRoundTripWithinHalfAStep :
    (∀ n : RangeName,
      Spec.QuantRange (.range n) (args (Spec.minWord n) 0 0 0 0)
        (Spec.rangeMin n) (Spec.rangeMax n) (Spec.rangeBits n) ∧
      Spec.IsFinite (args (Spec.minWord n) 0 0 0 0).arg0 ∧
      Spec.rangeMin n ≤ Spec.val (args (Spec.minWord n) 0 0 0 0).arg0 ∧
      Spec.val (args (Spec.minWord n) 0 0 0 0).arg0 ≤ Spec.rangeMax n ∧
      Spec.val (args (Spec.minWord n) 0 0 0 0).arg0
        = Spec.dequantize 0 (Spec.rangeMin n) (Spec.rangeMax n) (Spec.rangeBits n)) ∧
    Spec.QuantRange .gen (args 0x00000000 0x00000000 0x3F800000 12 0) 0 1 12 ∧
    Spec.IsFinite (args 0x00000000 0x00000000 0x3F800000 12 0).arg0 ∧
    Spec.val (args 0x00000000 0x00000000 0x3F800000 12 0).arg0 = Spec.dequantize 0 0 1 12 := by
  refine ⟨fun n => ?_, quantRange_gen _, by decide, ?_⟩
  · have h : Spec.val (args (Spec.minWord n) 0 0 0 0).arg0 = Spec.rangeMin n := (minWord_val n).2
    refine ⟨⟨rfl, rfl, rfl⟩, (minWord_val n).1, h.ge, h.le.trans (range_ltq n).le, ?_⟩
    rw [h, Spec.dequantize]
    simp
  · rw [show Spec.val (args 0x00000000 0x00000000 0x3F800000 12 0).arg0 = 0 from val_zero,
      Spec.dequantize]
    norm_num

theorem witness_DequantThenQuantGivesTheCodeBack : ∀ n ∈ [RangeName.pos, .vel, .kp, .kd, .tor],
    (args (BitVec.ofNat 32 (2 ^ Spec.rangeBits n - 1)) 0 0 0 0).arg0.toNat
      ≤ 2 ^ Spec.rangeBits n - 1 := by decide

/-- The reset state has no NaN input and a legal header. -/
theorem reset_packs : Spec.NoNaNInput State.reset ∧ Spec.HeaderLegal State.reset :=
  ⟨fun n => by cases n <;> decide, .inr (by decide)⟩

/-- A NaN input; an illegal header at its lowest identifier; a legal state. -/
theorem witness_PackFollowsItsPseudocode :
    (∃ n, Spec.IsNaN (Spec.packInput n (args 0 0 0 0 0x7FC00000))) ∧
    (Spec.NoNaNInput (withId 0x800 false State.reset) ∧
      ¬ Spec.HeaderLegal (withId 0x800 false State.reset)) ∧
    (Spec.NoNaNInput State.reset ∧ Spec.HeaderLegal State.reset) :=
  ⟨⟨.tor, by decide⟩, ⟨fun n => by cases n <;> decide, by unfold Spec.HeaderLegal; decide⟩, reset_packs⟩

theorem witness_PackedBytesFollowTheWireLayout :
    Spec.NoNaNInput (withId 0x7FF false State.reset) ∧
    Spec.HeaderLegal (withId 0x7FF false State.reset) :=
  ⟨fun n => by cases n <;> decide, .inr (by decide)⟩

/-- A value and an infinity beyond each bound of the kp range. -/
theorem witness_PackOfAnOutsideInputEqualsPackOfTheBound :
    (Spec.IsFinite 0x447A0000 ∧ Spec.rangeMax .kp < Spec.val 0x447A0000) ∧
    (Spec.IsInf 0x7F800000 ∧ Spec.signOf 0x7F800000 = 0) ∧
    (Spec.IsFinite 0xBF800000 ∧ Spec.val 0xBF800000 < Spec.rangeMin .kp) ∧
    (Spec.IsInf 0xFF800000 ∧ Spec.signOf 0xFF800000 = 1) := by
  refine ⟨⟨by decide, ?_⟩, by decide, ⟨by decide, ?_⟩, by decide⟩
  · rw [val_eq, ← range_max, lt_div_units]; decide
  · rw [val_eq, ← range_min, lt_div_units]; decide

theorem witness_SentBuildsItsSentinelFrame :
    ¬ Spec.HeaderLegal (withId 0x800 false State.reset) ∧
    Spec.HeaderLegal (withId 0x7FF false State.reset) ∧
    Spec.HeaderLegal (withId 0x800 true State.reset) :=
  ⟨by unfold Spec.HeaderLegal; decide, .inr (by decide), .inl rfl⟩

/-- The payload of PACK with the first four inputs at their maximum. -/
def saturated (tor : Word) (d1 : Word) : Bool :=
  nextIs (exec .pack (args 0x42200000 0x42480000 0x43FA0000 0x40A00000 tor))
    (fun t => t.outFrame.d0 == 0xFFFFFFFF && t.outFrame.d1 == d1)

/-- A state that meets the hypotheses, and for each j inputs in its band (PK5, PK6, PK7). -/
theorem witness_SentinelCollisionSet :
    (Spec.NoNaNInput State.reset ∧ Spec.HeaderLegal State.reset) ∧
    saturated 0x41C7AE14 0xFFFFFFFC = true ∧ saturated 0x41C7CCCD 0xFFFFFFFD = true ∧
    saturated 0x41C7E148 0xFFFFFFFE = true := ⟨reset_packs, by decide, by decide, by decide⟩

/-- LEN 7 and 9 beside 8, in both forms. -/
theorem witness_UnpackFollowsItsPseudocode : ∀ n ∈ [(7 : BitVec 4), 8, 9],
    { State.reset with inFrame := ⟨0, n, false, false, 0, 0⟩ }.inFrame.len = n ∧
    { State.reset with outFrame := ⟨0, n, true, true, 0, 0⟩ }.outFrame.len = n := by decide

theorem witness_PackThenUnpackRoundTrip :
    Spec.NoNaNInput State.reset ∧ Spec.HeaderLegal State.reset ∧
    ∀ n ∈ [RangeName.pos, .vel, .tor], Spec.IsFinite (Spec.packInput n State.reset) ∧
      Spec.rangeMin n ≤ Spec.val (Spec.packInput n State.reset) ∧
      Spec.val (Spec.packInput n State.reset) ≤ Spec.rangeMax n := by
  refine ⟨reset_packs.1, reset_packs.2, fun n _ => ⟨by cases n <;> decide, ?_⟩⟩
  exact val_between (by cases n <;> decide) (by cases n <;> decide)

/-- In both modes a POLL that stores 2 frames: indices 0 and 1 are stored, 2 and 3 are not. -/
theorem witness_PollFillsTheCacheInArrivalOrder :
    ∀ s ∈ [{ State.reset with rx := [some frameA, some frameB, none, some frameE] },
        { restartReset with rx := [some frameA, some frameB] }],
      (Spec.received s.rx)[0]? = some frameA ∧ (Spec.received s.rx)[1]? = some frameB ∧
      (Spec.received s.rx).length ≤ 2 := by decide

theorem witness_RdslotShowsItsSlot :
    (cacheState 0 0).slots.s3.valid = true ∧ (cacheState 0 0).slots.s2.valid = false := by decide

/-- The lowest match is in slot 0; in slot 3 with none below; no match. -/
theorem witness_FindShowsTheLowestMatch :
    (Spec.Matches ((cacheState 0 1).slots.get 0) (cacheState 0 1).argId.id ∧
      ∀ j : BitVec 2, j < 0 → ¬ Spec.Matches ((cacheState 0 1).slots.get j) (cacheState 0 1).argId.id) ∧
    (Spec.Matches ((cacheState 0 4).slots.get 3) (cacheState 0 4).argId.id ∧
      ∀ j : BitVec 2, j < 3 → ¬ Spec.Matches ((cacheState 0 4).slots.get j) (cacheState 0 4).argId.id) ∧
    (∀ i : BitVec 2, ¬ Spec.Matches ((cacheState 0 0).slots.get i) (cacheState 0 0).argId.id) := by
  unfold Spec.Matches; decide

/-- A state with two frames stored, and its history; its step is a POLL. -/
def polled (m : WrptrMode) (w : BitVec 2) : State :=
  { fetch 0x60000000 with
    params := ⟨m, 0⟩
    slots := ⟨⟨frameA, 1000, true⟩, ⟨frameB, 1000, true⟩, Slot.empty, Slot.empty⟩
    wrptr := w
    rx := [some frameE] }

theorem witness_CacheHoldsItsHistory :
    (Spec.CacheHolds [[(frameA, 1000), (frameB, 1000)]] (polled .cyclic 2) ∧
      ∃ t, step (polled .cyclic 2) = .next t) ∧
    (Spec.CacheHolds [[(frameA, 1000), (frameB, 1000)]] (polled .restart 0) ∧
      ∃ t, step (polled .restart 0) = .next t) :=
  ⟨⟨⟨by decide, by decide⟩, ⟨_, rfl⟩⟩, ⟨⟨by decide, by decide⟩, ⟨_, rfl⟩⟩⟩

/-- K2 of the vectors: five frames stored, the write pointer at 1. -/
theorem witness_CyclicSlotsGiveTheLastFourInOrder :
    Spec.CacheHolds [[(frameA, 1000), (frameB, 1000)], [(frameF, 1200), (frameD, 1200), (frameE, 1200)]]
      { State.reset with
        slots := ⟨⟨frameE, 1200, true⟩, ⟨frameB, 1000, true⟩, ⟨frameF, 1200, true⟩, ⟨frameD, 1200, true⟩⟩
        wrptr := 1 } ∧
    State.reset.params.wrptrMode = .cyclic ∧
    4 ≤ [[(frameA, (1000 : Word)), (frameB, 1000)],
      [(frameF, 1200), (frameD, 1200), (frameE, 1200)]].flatten.length :=
  ⟨⟨by decide, by decide⟩, rfl, by decide⟩

/-- For each pseudo-instruction the state whose next events are its lines. -/
theorem witness_PseudoInstructionsRunTheirLines :
    ∀ q ∈ [pseudoSetcmd State.reset.params 1 2 3 4 5 6, pseudoSetpos State.reset.params 1 2 3 4,
        pseudoSettor State.reset.params 1 2, pseudoSetvel State.reset.params 1 2 3 4,
        pseudoStart State.reset.params 1, pseudoStop State.reset.params 1,
        pseudoRezero State.reset.params 1, pseudoIsonline State.reset.params 1,
        pseudoClrsticky State.reset.params, pseudoQuantv State.reset.params (.range .kd) 1,
        pseudoQuantv State.reset.params .gen 1],
      { State.reset with pending := q }.pending = q ++ [] := by decide

/-- A command that raises. -/
theorem witness_ARaisedErrorChangesOnlyErrAndSticky :
    nextIs (exec .dequantPos (args 65536 0 0 0 0)) (fun t => t.status.err != .none) = true := by decide

/-- For each error a command that raises it. -/
theorem witness_EachCommandRaisesOnlyItsOwnErrors :
    nextIs (exec .quantGen (args 0 0 0 8 0)) (fun t => t.status.err == .badwidth) = true ∧
    nextIs (exec .quantGen (args 0 0 0 12 0)) (fun t => t.status.err == .badspan) = true ∧
    nextIs (exec .quantKd (args 0xBF800000 0 0 0 0)) (fun t => t.status.err == .outrange) = true ∧
    nextIs (exec .pack (args 0x7FC00000 0 0 0 0)) (fun t => t.status.err == .nonfinite) = true ∧
    nextIs (exec .sentStop (withId 0x800 false State.reset)) (fun t => t.status.err == .badid) = true ∧
    nextIs (exec .unpackIf State.reset) (fun t => t.status.err == .length) = true := by decide

/-- Commands outside and inside each group of flags: NOP writes none; UNPACK changes TELV; a raised
error changes STICKY. -/
theorem witness_FlagsAreWrittenOnlyByTheirCommands :
    (∃ t, exec .nop State.reset = .next t) ∧ Spec.isLookup .nop = false ∧
    Spec.isLiveness .nop = false ∧ Instr.nop ≠ .poll ∧
    nextIs (exec .unpackIf { State.reset with inFrame := ⟨0, 8, false, false, 0, 0⟩ })
      (fun t => t.status.telv != State.reset.status.telv) = true ∧
    nextIs (exec .unpackIf State.reset)
      (fun t => t.status.sticky != State.reset.status.sticky) = true :=
  ⟨⟨_, rfl⟩, by decide, by decide, by decide, by decide, by decide⟩

theorem witness_RegistersAreWrittenOnlyByTheirCommands :
    (∃ t, exec .nop State.reset = .next t) ∧ Spec.isQuant .nop = false ∧ Spec.isDequant .nop = false ∧
    Spec.isLookup .nop = false ∧ Spec.isBuilder .nop = false ∧ Spec.isUnpack .nop = false ∧
    Instr.nop ≠ .poll := ⟨⟨_, rfl⟩, by decide, by decide, by decide, by decide, by decide, by decide⟩

theorem witness_OtherCommandsDoNotSeeTheTimeOrTheTransport :
    Instr.onid ≠ .poll ∧ Instr.find ≠ .poll ∧ Spec.isLiveness .find = false := by decide

/-- A state that meets the invariant and is not reset: a POLL has stored frame A, and an event is to come. -/
def oneFrame : State :=
  { next (.time 5) with slots := ⟨⟨frameA, 1000, true⟩, Slot.empty, Slot.empty, Slot.empty⟩, wrptr := 1 }

theorem witness_EveryStepKeepsTheRunInvariant :
    Spec.Inv oneFrame ∧ ∃ t, step oneFrame = .next t := by
  refine ⟨⟨by decide, by decide, by decide, by decide, by decide, by decide, by decide, ?_, by decide⟩,
    ⟨_, rfl⟩⟩
  intro h
  exact absurd h (by decide)

end Sys2Proof.Tests
end

section
/-! The statements of 10_state.md about the write to STATUS. -/

namespace Sys2Proof.Proofs

open Sys2Proof Sys2Proof.Machine

/-- A word's bit as the digit of its value, the form the statements use. -/
theorem getLsbD_eq_digit (v : Word) (i : ℕ) :
    v.getLsbD i = decide (v.toNat / 2 ^ i % 2 = 1) := by
  rw [← BitVec.testBit_toNat, Nat.testBit_eq_decide_div_mod_eq]

/-- A write to STATUS looks at bit 15 alone (R35). -/
theorem step_writeStatus {s : State} {v : Word} {rest : List Event}
    (h : s.pending = .access (.write (s.params.qfcBase + 0x04) 4 v) :: rest) :
    step s = .next (if v.getLsbD 15
      then { s with pending := rest, resp := .accepted }.clearSticky
      else { s with pending := rest, resp := .accepted }) :=
  step_write (r := .status) h

/-- Settles O8: the step is the register write of STATUS, and digit 15 of v selects its branch. -/
theorem statusWriteClearsOnlySticky : Obligations.StatusWriteClearsOnlySticky := by
  intro s v rest h
  have hstep := step_writeStatus h
  constructor
  · intro h15
    have hset : v.getLsbD 15 = true := by rw [getLsbD_eq_digit, h15]; rfl
    rw [hstep, hset]; rfl
  · intro h15
    have hclear : v.getLsbD 15 = false := by rw [getLsbD_eq_digit, h15]; rfl
    rw [hstep, hclear]; rfl

end Sys2Proof.Proofs
end

section
/-! The statements of 20_memory.md: which accesses the window refuses (R84), and what a write to a
read-only register or a reserved field leaves (R85). -/

namespace Sys2Proof.Proofs

open Sys2Proof Sys2Proof.Machine

/-- An access in the window is QFC_BASE and an offset of 8 bits (R80, R82). -/
theorem addr_eq_base_add_of_inWindow {p : Params} {a : Access} (h : a.inWindow p = true) :
    ∃ off < 256, a.addr = p.qfcBase + off := by
  simp only [Access.inWindow, Bool.and_eq_true, decide_eq_true_eq] at h
  obtain ⟨hlo, hhi⟩ := h
  exact ⟨a.addr - p.qfcBase, by omega, by omega⟩

/-- An access reaches a register exactly when it is legal (R83). -/
theorem accessedReg_isSome_iff (addr width : ℕ) :
    (accessedReg addr width).isSome = true ↔
      width = 4 ∧ offsetOf addr % 4 = 0 ∧ offsetOf addr ≤ 0x64 := by
  unfold accessedReg
  split
  · next hw => rw [regAt_isSome_iff, and_iff_right hw]
  · next hw => exact iff_of_false Bool.false_ne_true fun h => hw h.1

/-- Whatever word CMD holds, running it ends in a next state (R111, R285). -/
theorem exists_runWord_eq_next (w : Word) (s : State) : ∃ t, runWord w s = .next t := by
  unfold runWord
  split
  · next i _ => exact (exec_effect i s).imp fun _ h => h.1
  · exact ⟨_, rfl⟩
  · exact ⟨_, rfl⟩

/-- Every register accepts every word. -/
theorem exists_writeReg_eq_next (r : Reg) (v : Word) (s : State) :
    ∃ t, writeReg r v s = .next t := by
  cases r
  case cmd => exact exists_runWord_eq_next v _
  all_goals exact ⟨_, rfl⟩

/-- A selected access that reaches no register is a bus error with its offset (R84). -/
theorem busAccess_refused {a : Access} {s : State} (hsel : selected s.params a.addr = true)
    (hreg : accessedReg a.addr a.width = none) :
    busAccess a s = .fault (.busError (offsetOf a.addr)) := by
  rw [busAccess, if_pos hsel, hreg]

/-- An access that reaches a register is answered (R261, R262). -/
theorem exists_busAccess_eq_next {a : Access} {s : State}
    (hreg : (accessedReg a.addr a.width).isSome = true) : ∃ t, busAccess a s = .next t := by
  obtain ⟨r, hr⟩ := Option.isSome_iff_exists.1 hreg
  unfold busAccess
  split
  · rw [hr]
    cases a with
    | read => exact ⟨_, rfl⟩
    | write _ _ v => exact exists_writeReg_eq_next r v _
  · exact ⟨_, rfl⟩

/-- Settles O5: the offset below QFC_BASE + 256 is the one the block decodes, and the access reaches
a register exactly when it is legal. -/
theorem busErrorExactlyOnIllegalAccesses : Obligations.BusErrorExactlyOnIllegalAccesses := by
  intro s a rest hp hin
  obtain ⟨off, hoff, haddr⟩ := addr_eq_base_add_of_inWindow hin
  have hdecoded : offsetOf a.addr = off := by rw [haddr, offsetOf_base _ hoff]
  have hlegal := accessedReg_isSome_iff a.addr a.width
  rw [hdecoded] at hlegal
  rw [haddr, Nat.add_sub_cancel_left, step_cons hp, runEvent]
  constructor
  · intro hbad
    have hsel : selected s.params a.addr = true := by rw [haddr, selected_base _ hoff]
    have hnone : accessedReg a.addr a.width = none := by
      rw [← Option.not_isSome_iff_eq_none, hlegal]
      omega
    rw [← hdecoded]
    exact busAccess_refused hsel hnone
  · intro hw halign hmap
    exact exists_busAccess_eq_next (hlegal.2 ⟨hw, halign, hmap⟩)

/-- A legal write placed as the next event (R261). -/
theorem step_headWrite (s : State) (r : Reg) (v : Word) (rest : List Event) :
    step { s with pending := .access (.write (s.params.qfcBase + regOffset r) 4 v) :: rest }
      = writeReg r v { s with pending := rest, resp := .accepted } := by
  rw [step_write (r := r) (v := v) rfl]

/-- The registers R85 lists as read-only. -/
def readOnlyRegs : List Reg :=
  [.qres, .dres, .tsres, .ofId, .ofCtl, .ofD0, .ofD1, .telPos, .telVel, .telTor, .telRaw0,
    .telRaw1, .time]

/-- A read-only register ignores a write. -/
theorem writeReg_readOnly {r : Reg} (hr : r ∈ readOnlyRegs) (v : Word) (s : State) :
    writeReg r v s = .next s := by
  fin_cases hr <;> rfl

/-- A field that a mask keeps whole is the same after masking. -/
theorem extractLsb'_and_of_allOnes {i n : ℕ} {m : Word}
    (hm : m.extractLsb' i n = BitVec.allOnes n) (v : Word) :
    (v &&& m).extractLsb' i n = v.extractLsb' i n := by
  rw [BitVec.extractLsb'_and, hm, BitVec.and_allOnes]

/-- A bit that a mask keeps is the same after masking. -/
theorem getLsbD_and_of_true {i : ℕ} {m : Word} (hm : m.getLsbD i = true) (v : Word) :
    (v &&& m).getLsbD i = v.getLsbD i := by
  rw [BitVec.getLsbD_and, hm, Bool.and_true]

/-- The bits that a write stores, for each register of R85 with a reserved field: ARGID without
[30:29], IF_ID without [31:29], IF_CTL without [31:6]. -/
def storedBits : List (Reg × Word) :=
  [(.argId, 0x9FFFFFFF), (.ifId, 0x1FFFFFFF), (.ifCtl, 0x0000003F)]

/-- A write sees nothing of a reserved field. -/
theorem writeReg_and_storedBits {r : Reg} {m : Word} (h : (r, m) ∈ storedBits) (v : Word)
    (s : State) : writeReg r (v &&& m) s = writeReg r v s := by
  simp only [storedBits, List.mem_cons, Prod.mk.injEq, List.not_mem_nil, or_false] at h
  obtain ⟨rfl, rfl⟩ | ⟨rfl, rfl⟩ | ⟨rfl, rfl⟩ := h
  · have hid := extractLsb'_and_of_allOnes (i := 0) (n := 29) (m := 0x9FFFFFFF) (by decide) v
    have hext := getLsbD_and_of_true (i := 31) (m := 0x9FFFFFFF) (by decide) v
    simp only [writeReg, hid, hext]
  · have hid := extractLsb'_and_of_allOnes (i := 0) (n := 29) (m := 0x1FFFFFFF) (by decide) v
    simp only [writeReg, hid]
  · have hlen := extractLsb'_and_of_allOnes (i := 0) (n := 4) (m := 0x0000003F) (by decide) v
    have hext := getLsbD_and_of_true (i := 4) (m := 0x0000003F) (by decide) v
    have hrtr := getLsbD_and_of_true (i := 5) (m := 0x0000003F) (by decide) v
    simp only [writeReg, hlen, hext, hrtr]

/-- Settles O10: each offset of a clause is that of a register, whose write ignores the word, looks at
STICKY's bit alone, or looks at the stored bits alone. -/
theorem readOnlyAndReservedBitsIgnoreWrites : Obligations.ReadOnlyAndReservedBitsIgnoreWrites := by
  intro s off v rest hp
  refine ⟨fun hoff => ?_, ?_, fun m hm => ?_⟩
  · obtain ⟨r, hr, rfl⟩ : ∃ r ∈ readOnlyRegs, regOffset r = off := List.mem_map.1 hoff
    rw [step_write hp, writeReg_readOnly hr]
  · rintro rfl
    rw [step_writeStatus hp]
    split
    · exact ⟨false, rfl⟩
    · exact ⟨s.status.sticky, rfl⟩
  · obtain ⟨⟨r, m⟩, hr, hrm⟩ : ∃ p ∈ storedBits, (regOffset p.1, p.2) = (off, m) :=
      List.mem_map.1 hm
    cases hrm
    rw [step_write hp, step_headWrite, writeReg_and_storedBits hr]

end Sys2Proof.Proofs
end

section
/-! The statements of 30_encoding.md: which words are commands (R117), and what a word written to CMD
does (R111). -/

namespace Sys2Proof.Proofs

open Sys2Proof Sys2Proof.Machine

/-- Every command's encoding decodes to it (R110 to R113). -/
theorem decode_encode (i : Instr) : decode (encode i) = .ok i := by
  cases i <;> rfl

/-- A word decodes to a command exactly when it is the command's encoding. -/
theorem decode_eq_ok_iff {w : Word} {i : Instr} : decode w = .ok i ↔ w = encode i := by
  constructor
  · intro h
    obtain ⟨hrsv, hop, hsel⟩ := decode_ok h
    rw [word_eq_fields w, hop, hsel, hrsv]
    rfl
  · rintro rfl
    exact decode_encode i

/-- R117 pairs each command with its encoding alone. -/
theorem mem_listedCommands_iff {w : Word} {i : Instr} :
    (w, i) ∈ Spec.listedCommands ↔ w = encode i := by
  have hencoded : ∀ p ∈ Spec.listedCommands, p.1 = encode p.2 := by decide
  have hlisted : (encode i, i) ∈ Spec.listedCommands := by cases i <;> decide
  exact ⟨hencoded (w, i), fun h => h ▸ hlisted⟩

/-- Settles O1: the words that decode to a command and the words listed with it are both its encoding
alone. -/
theorem listedWordsAreExactlyTheCommands : Obligations.ListedWordsAreExactlyTheCommands := by
  intro w i
  rw [decode_eq_ok_iff, mem_listedCommands_iff]

/-- RSV as the digits of the word's value, the form the statements use. -/
theorem rsvField_eq_zero_iff {w : Word} : rsvField w = 0 ↔ w.toNat % 2 ^ 24 = 0 := by
  rw [← BitVec.toNat_inj, rsvField_toNat]
  rfl

/-- OP as the digits of the word's value. -/
theorem lt_opField_iff {w : Word} : 0xA < opField w ↔ 0xA < w.toNat / 2 ^ 28 := by
  rw [BitVec.lt_def, opField_toNat]
  rfl

/-- At the opcodes of R112 the decoder's table has a row exactly for the SEL values of R113. -/
theorem commandOf_isSome {op : BitVec 4} (hop : ¬ 0xA < op) (sel : BitVec 4) :
    (commandOf op.toNat sel.toNat).isSome = legalSel op sel := by
  revert op sel
  decide

/-- The first check (R111). -/
theorem decode_of_rsv_ne {w : Word} (h : rsvField w ≠ 0) : decode w = .error .illegal := by
  rw [decode, if_pos h]

/-- The second check gives the same error as the first. -/
theorem decode_of_lt_op {w : Word} (h : 0xA < opField w) : decode w = .error .illegal := by
  rw [decode, if_pos h, ite_self]

/-- The third check, for a SEL the table of R113 does not allow. -/
theorem decode_of_not_selLegal {w : Word} (hrsv : rsvField w = 0) (hop : ¬ 0xA < opField w)
    (hsel : CommandWord.selLegal w = false) : decode w = .error .badsel := by
  have hrow : commandOf (opField w).toNat (selField w).toNat = none := by
    rw [← Option.not_isSome_iff_eq_none, commandOf_isSome hop, Bool.not_eq_true]
    exact hsel
  rw [decode, if_neg (not_not.2 hrsv), if_neg hop, hrow]

/-- A word that passes the three checks is a command. -/
theorem exists_decode_eq_ok {w : Word} (hrsv : rsvField w = 0) (hop : ¬ 0xA < opField w)
    (hsel : CommandWord.selLegal w = true) : ∃ i, decode w = .ok i := by
  obtain ⟨i, hrow⟩ : ∃ i, commandOf (opField w).toNat (selField w).toNat = some i := by
    rw [← Option.isSome_iff_exists, commandOf_isSome hop]
    exact hsel
  exact ⟨i, by rw [decode, if_neg (not_not.2 hrsv), if_neg hop, hrow]⟩

/-- A step that writes CMD runs the word (R33, R261). -/
theorem step_writeCmd {s : State} {w : Word} {rest : List Event}
    (h : s.pending = .access (.write s.params.qfcBase 4 w) :: rest) :
    step s = runWord w { s with pending := rest, resp := .accepted, cmd := w } :=
  step_write (r := .cmd) h

/-- A word of a command runs the command. -/
theorem runWord_of_ok {w : Word} {i : Instr} (h : decode w = .ok i) (s : State) :
    runWord w s = exec i s := by
  rw [runWord, h]

/-- A word the first two checks refuse raises ILLEGAL. -/
theorem runWord_of_illegal {w : Word} (h : decode w = .error .illegal) (s : State) :
    runWord w s = .next (Spec.raised .illegal s) := by
  simp only [runWord, h, raiseError_eq, setErr_eq_raised]

/-- A word the third check refuses raises BADSEL. -/
theorem runWord_of_badsel {w : Word} (h : decode w = .error .badsel) (s : State) :
    runWord w s = .next (Spec.raised .badsel s) := by
  simp only [runWord, h, raiseError_eq, setErr_eq_raised]

/-- Settles O3: the step runs the word, and each clause is a branch of the decoder's checks. -/
theorem everyCmdWordRunsOrRaisesInTheOrderOfItsChecks :
    Obligations.EveryCmdWordRunsOrRaisesInTheOrderOfItsChecks := by
  intro s w rest hp
  rw [step_writeCmd hp, ne_eq, ← rsvField_eq_zero_iff, ← lt_opField_iff, ← not_lt, ← lt_opField_iff]
  refine ⟨fun hrsv => ?_, fun _ hop => ?_, fun hrsv hop hsel => ?_, fun hrsv hop hsel => ?_⟩
  · exact runWord_of_illegal (decode_of_rsv_ne hrsv) _
  · exact runWord_of_illegal (decode_of_lt_op hop) _
  · exact runWord_of_badsel (decode_of_not_selLegal hrsv hop hsel) _
  · obtain ⟨i, hi⟩ := exists_decode_eq_ok hrsv hop hsel
    exact ⟨i, decode_eq_ok_iff.1 hi, runWord_of_ok hi _⟩

end Sys2Proof.Proofs
end

section
/-! The statements of 40_quantizer.md: QUANT and DEQUANT follow their pseudocode (R149, R150), and the
ties of the fixed ranges (R145). -/

namespace Sys2Proof.Proofs

open Sys2Proof Sys2Proof.Machine

/-! ### The pseudocode (R149, R150) -/

/-- The words of QUANT's fixed forms, SEL being the index of R140 (R113, R117). -/
theorem decode_quantWord (n : RangeName) :
    decode (0x10000000 + 0x01000000 * Spec.rangeIndex n) = .ok (Spec.quantInstr n) := by
  cases n <;> rfl

/-- The words of DEQUANT's fixed forms (R113, R117). -/
theorem decode_dequantWord (n : RangeName) :
    decode (0x20000000 + 0x01000000 * Spec.rangeIndex n) = .ok (Spec.dequantInstr n) := by
  cases n <;> rfl

/-- The order of two readings is that of their integers. -/
theorem div_units_le {a b : ℤ} : (a : ℚ) / 2 ^ 149 ≤ (b : ℚ) / 2 ^ 149 ↔ a ≤ b := by
  rw [← not_lt, lt_div_units, not_lt]

/-- The second check of the general forms: a width that is not 12 or 16 (R149, R150). -/
theorem generalRange_badwidth {s : State} (h1 : Spec.IsFinite s.arg1) (h2 : Spec.IsFinite s.arg2)
    (h12 : s.arg3.toNat ≠ 12) (h16 : s.arg3.toNat ≠ 16) : generalRange s = .error .badwidth := by
  rw [generalRange_finite s h1 h2]
  obtain ⟨hw, -, -⟩ | ⟨-, h⟩ | ⟨-, h⟩ := widthOf_cases s.arg3
  · rw [hw]
  · exact absurd h h12
  · exact absurd h h16

/-- The third check of the general forms: min is not below max (R149, R150). -/
theorem generalRange_badspan {s : State} (h1 : Spec.IsFinite s.arg1) (h2 : Spec.IsFinite s.arg2)
    (hb : s.arg3.toNat = 12 ∨ s.arg3.toNat = 16) (hle : Spec.val s.arg2 ≤ Spec.val s.arg1) :
    generalRange s = .error .badspan := by
  have hspan : finiteVal s.arg2 ≤ finiteVal s.arg1 := by rwa [val_eq, val_eq, div_units_le] at hle
  rw [generalRange_finite s h1 h2]
  obtain ⟨-, h12, h16⟩ | ⟨hw, -⟩ | ⟨hw, -⟩ := widthOf_cases s.arg3
  · omega
  · rw [hw]; exact if_pos hspan
  · rw [hw]; exact if_pos hspan

/-- `quant gen` raises the error its range raises (R149). -/
theorem execQuantGen_of_error {s : State} {e : Err} (hn : ¬ Spec.IsNaN s.arg0)
    (h : generalRange s = .error e) : execQuantGen s = .next (Spec.raised e s) := by
  rw [execQuantGen, if_neg (mt (isNaN_iff _).1 hn), h]
  rfl

/-- The first check of `quant gen`: a NaN value, or a bound that is not finite (R149). -/
theorem execQuantGen_nonfinite {s : State}
    (h : Spec.IsNaN s.arg0 ∨ ¬ Spec.IsFinite s.arg1 ∨ ¬ Spec.IsFinite s.arg2) :
    execQuantGen s = .next (Spec.raised .nonfinite s) := by
  by_cases hn : Spec.IsNaN s.arg0
  · rw [execQuantGen, if_pos ((isNaN_iff _).2 hn)]
    rfl
  · exact execQuantGen_of_error hn (generalRange_nonfinite s (h.resolve_left hn))

/-- `dequant gen` raises the error its range raises (R150). -/
theorem execDequantGen_of_error {s : State} {e : Err} (h : generalRange s = .error e) :
    execDequantGen s = .next (Spec.raised e s) := by
  rw [execDequantGen, h]
  rfl

/-- `dequant gen` with legal bounds and width ends as R150's pseudocode does over them. -/
theorem execDequantGen_spec {s : State} {r : QRange} (h : generalRange s = .ok r) :
    Spec.DequantCases s.arg0.toNat ((r.min : ℚ) / 2 ^ 149) ((r.max : ℚ) / 2 ^ 149) r.width.bits s
      (execDequantGen s) := by
  obtain ⟨hmin, hmax⟩ := generalRange_bounds h
  rw [execDequantGen, h]
  exact dequantInto_spec r _ _ _ s rfl rfl rfl hmin hmax

/-- Every fixed form of DEQUANT ends as R150's pseudocode does over its row of R140. -/
theorem dequantFixed_spec (n : RangeName) (s : State) :
    Spec.DequantCases s.arg0.toNat (Spec.rangeMin n) (Spec.rangeMax n) (Spec.rangeBits n) s
      (dequantFixed n s) :=
  dequantInto_spec _ _ _ _ s (range_min n) (range_max n) (range_bits n) (by cases n <;> decide)
    (by cases n <;> decide)

/-- Settles O16: the fixed forms and the general form past its checks end in the same pseudocode; the
general form's checks are the branches of its range, after the NaN test of the value. -/
theorem quantFollowsItsPseudocode : Obligations.QuantFollowsItsPseudocode := by
  refine ⟨decode_quantWord, rfl, fun n s => ?_, fun s => ⟨execQuantGen_nonfinite, ?_⟩⟩
  · exact (quantForm_spec (q := .range n) ⟨rfl, rfl, rfl⟩).1
  · intro hn h1 h2
    refine ⟨fun h12 h16 => ?_, fun hb => ⟨fun hle => ?_, fun hlt => ?_⟩⟩
    · exact execQuantGen_of_error hn (generalRange_badwidth h1 h2 h12 h16)
    · exact execQuantGen_of_error hn (generalRange_badspan h1 h2 hb hle)
    · exact (quantForm_spec (q := .gen) ⟨h1, h2, hlt, hb, rfl, rfl, rfl⟩).1

/-- Settles O17: the fixed forms and the general form past its checks end in the same pseudocode; the
general form's checks are the branches of its range. -/
theorem dequantFollowsItsPseudocode : Obligations.DequantFollowsItsPseudocode := by
  refine ⟨decode_dequantWord, rfl, fun n s => ?_, fun s => ⟨fun h => ?_, fun h1 h2 => ?_⟩⟩
  · rw [exec_dequantInstr]
    exact dequantFixed_spec n s
  · exact execDequantGen_of_error (generalRange_nonfinite s h)
  · refine ⟨fun h12 h16 => ?_, fun hb => ⟨fun hle => ?_, fun hlt => ?_⟩⟩
    · exact execDequantGen_of_error (generalRange_badwidth h1 h2 h12 h16)
    · exact execDequantGen_of_error (generalRange_badspan h1 h2 hb hle)
    · obtain ⟨r, hr, hmin, hmax, hbits⟩ := generalRange_legal h1 h2 hlt hb
      rw [← hmin, ← hmax, ← hbits]
      exact execDequantGen_spec hr

/-! ### The ties (R145) -/

/-- A tenth of a fixed range's span, in units of 2^-149: the listed ties of R145 stand at its odd
multiples above min. -/
def tenthSpan (n : RangeName) : ℤ := ((rangeOf n).max - (rangeOf n).min) / 10

/-- A fifth of the largest code 2^b - 1 of a fixed range. -/
def fifthCode (n : RangeName) : ℤ := ((rangeOf n).width.maxCode : ℤ) / 5

theorem span_eq (n : RangeName) : (rangeOf n).max - (rangeOf n).min = 10 * tenthSpan n := by
  cases n <;> decide

theorem maxCode_eq (n : RangeName) : ((rangeOf n).width.maxCode : ℤ) = 5 * fifthCode n := by
  cases n <;> decide

theorem tenthSpan_pos (n : RangeName) : 0 < tenthSpan n := by
  cases n <;> decide

theorem fifthCode_odd (n : RangeName) : Odd (fifthCode n) := by
  cases n <;> decide

/-- The factors that reducing Qexact leaves have none in common. -/
theorem fifthCode_coprime (n : RangeName) : IsCoprime (fifthCode n) (tenthSpan n) := by
  rw [Int.isCoprime_iff_gcd_eq_one]
  cases n <;> decide

/-- Qexact over the integers, with the factor 10 of the span and the factor 5 of 2^b - 1 cancelled
(R142). -/
theorem qexact_range (w : Word) (n : RangeName) :
    Spec.qexact (Spec.val w) (Spec.rangeMin n) (Spec.rangeMax n) (Spec.rangeBits n) =
      ((finiteVal w - (rangeOf n).min) * fifthCode n : ℤ) / (2 * tenthSpan n : ℤ) := by
  have hspan : ((rangeOf n).max : ℚ) - (rangeOf n).min = 10 * tenthSpan n := by
    exact_mod_cast span_eq n
  have hcode : (2 : ℚ) ^ (rangeOf n).width.bits - 1 = 5 * fifthCode n := by
    have h := maxCode_eq n
    rw [Width.maxCode, two_pow_sub] at h
    exact_mod_cast h
  have hpos : (tenthSpan n : ℚ) ≠ 0 := by exact_mod_cast (tenthSpan_pos n).ne'
  rw [Spec.qexact, val_eq, ← range_min, ← range_max, ← range_bits, hcode, ← sub_div, ← sub_div,
    hspan]
  push_cast
  field_simp
  ring

/-- x * m / u is an odd integer exactly when x / u is one, for an odd m prime to u. -/
theorem exists_odd_mul_eq_iff {x m u : ℤ} (hodd : Odd m) (hcop : IsCoprime m u) :
    (∃ i, Odd i ∧ x * m = i * u) ↔ ∃ j, Odd j ∧ x = j * u := by
  constructor
  · rintro ⟨i, hi, h⟩
    obtain ⟨j, rfl⟩ : m ∣ i := hcop.dvd_of_dvd_mul_right ⟨x, by rw [← h, mul_comm]⟩
    have hm : m ≠ 0 := by rintro rfl; exact absurd hodd (by decide)
    exact ⟨j, (Int.odd_mul.1 hi).2, mul_right_cancel₀ hm (by rw [h]; ring)⟩
  · rintro ⟨j, hj, rfl⟩
    exact ⟨j * m, hj.mul hodd, by ring⟩

/-- A quotient is an integer plus 1/2 exactly when its double is an odd integer. -/
theorem div_two_mul_eq_add_half_iff {a u : ℤ} (hu : u ≠ 0) :
    (∃ k : ℤ, (a : ℚ) / (2 * u : ℤ) = k + 1 / 2) ↔ ∃ i, Odd i ∧ a = i * u := by
  have hhalf (k : ℤ) : (a : ℚ) / (2 * u : ℤ) = k + 1 / 2 ↔ a = (2 * k + 1) * u := by
    rw [div_eq_iff (by exact_mod_cast mul_ne_zero two_ne_zero hu), ← @Int.cast_inj ℚ]
    push_cast
    constructor <;> intro h <;> linear_combination h
  simp only [hhalf]
  constructor
  · rintro ⟨k, h⟩
    exact ⟨2 * k + 1, odd_two_mul_add_one k, h⟩
  · rintro ⟨_, ⟨k, rfl⟩, h⟩
    exact ⟨k, h⟩

/-- The table of R145: min and an odd number of tenths of the span. -/
theorem tieInputs_eq (n : RangeName) : Spec.tieInputs n =
    ([1, 3, 5, 7, 9] : List ℤ).map
      fun j => (((rangeOf n).min + j * tenthSpan n : ℤ) : ℚ) / 2 ^ 149 := by
  cases n <;> norm_num [Spec.tieInputs, tenthSpan, rangeOf, units]

/-- The odd multiples in R145's table, of the 10 tenths of the span. -/
theorem mem_oddsBelowTen_iff {j : ℤ} : j ∈ ([1, 3, 5, 7, 9] : List ℤ) ↔ Odd j ∧ 0 ≤ j ∧ j ≤ 10 := by
  simp only [List.mem_cons, List.not_mem_nil, or_false, Int.odd_iff]
  omega

/-- A value in range stands in R145's table exactly when it is an odd number of tenths of the span
above min. -/
theorem mem_tieInputs_iff {w : Word} {n : RangeName} (hmin : (rangeOf n).min ≤ finiteVal w)
    (hmax : finiteVal w ≤ (rangeOf n).max) :
    Spec.val w ∈ Spec.tieInputs n ↔
      ∃ j, Odd j ∧ finiteVal w - (rangeOf n).min = j * tenthSpan n := by
  have hspan := span_eq n
  have hpos := tenthSpan_pos n
  have hval (a : ℤ) : (a : ℚ) / 2 ^ 149 = Spec.val w ↔ finiteVal w = a := by
    rw [val_eq, div_left_inj' (by positivity), Int.cast_inj, eq_comm]
  simp only [tieInputs_eq, List.mem_map, hval, mem_oddsBelowTen_iff, sub_eq_iff_eq_add']
  constructor
  · rintro ⟨j, ⟨hj, -⟩, h⟩
    exact ⟨j, hj, h⟩
  · rintro ⟨j, hj, h⟩
    have hlow : 0 ≤ j := nonneg_of_mul_nonneg_left (by linarith : 0 ≤ j * tenthSpan n) hpos
    have hhigh : j ≤ 10 := le_of_mul_le_mul_right (by linarith : j * tenthSpan n ≤ _) hpos
    exact ⟨j, ⟨hj, hlow, hhigh⟩, h⟩

/-- On a fixed range a value in range is a tie exactly at R145's inputs. -/
theorem tie_iff {w : Word} {n : RangeName} (hmin : Spec.rangeMin n ≤ Spec.val w)
    (hmax : Spec.val w ≤ Spec.rangeMax n) :
    (∃ k : ℤ, Spec.qexact (Spec.val w) (Spec.rangeMin n) (Spec.rangeMax n) (Spec.rangeBits n)
      = k + 1 / 2) ↔ Spec.val w ∈ Spec.tieInputs n := by
  rw [← range_min, val_eq, div_units_le] at hmin
  rw [← range_max, val_eq, div_units_le] at hmax
  rw [qexact_range, div_two_mul_eq_add_half_iff (tenthSpan_pos n).ne',
    exists_odd_mul_eq_iff (fifthCode_odd n) (fifthCode_coprime n), mem_tieInputs_iff hmin hmax]

/-- A tie rounds up (R142). -/
theorem quantize_of_tie {v mn mx : ℚ} {b : ℕ} {k : ℤ} (h : Spec.qexact v mn mx b = k + 1 / 2) :
    (Spec.quantize v mn mx b : ℚ) = Spec.qexact v mn mx b + 1 / 2 := by
  have hup : Spec.qexact v mn mx b + 1 / 2 = (k + 1 : ℤ) := by
    rw [h]
    push_cast
    ring
  rw [Spec.quantize, hup, Int.floor_intCast]

/-- QUANT of a value in a fixed range completes with the code of R142 in QRES (R149, R143). -/
theorem exists_exec_quantInstr (n : RangeName) {s : State} (hfin : Spec.IsFinite s.arg0)
    (hmin : Spec.rangeMin n ≤ Spec.val s.arg0) (hmax : Spec.val s.arg0 ≤ Spec.rangeMax n) :
    ∃ t, exec (Spec.quantInstr n) s = .next t ∧ (t.qres.toNat : ℤ) =
      Spec.quantize (Spec.val s.arg0) (Spec.rangeMin n) (Spec.rangeMax n) (Spec.rangeBits n) := by
  obtain ⟨⟨-, -, -, hcode⟩, hlt, -⟩ := quantForm_spec (q := .range n) (s := s) ⟨rfl, rfl, rfl⟩
  obtain ⟨hlow, hhigh⟩ := quantize_bounds (b := Spec.rangeBits n) hmin hmax hlt
  exact ⟨_, hcode hfin hmin hmax, ofInt16_toNat hlow (rangeBits_le n).2 hhigh⟩

/-- Settles O19: over the integers Qexact is (v - min) * M / (2 * U) for an odd M prime to U, a tenth of
the span, so a tie is an odd number of U above min. -/
theorem tiesOccurExactlyAtTheListedInputsAndGoUp :
    Obligations.TiesOccurExactlyAtTheListedInputsAndGoUp := by
  intro n s hfin hmin hmax
  obtain ⟨t, hexec, hqres⟩ := exists_exec_quantInstr n hfin hmin hmax
  refine ⟨t, hexec, tie_iff hmin hmax, fun hlisted => ?_⟩
  obtain ⟨k, hk⟩ := (tie_iff hmin hmax).2 hlisted
  rw [← quantize_of_tie hk, ← hqres, Int.cast_natCast]

end Sys2Proof.Proofs
end

section
/-! The statements of 41_packer.md: PACK and its wire layout (R180 to R184), SENT (R186), the sentinel
collision (R187) and UNPACK (R190). -/

namespace Sys2Proof.Proofs

open Sys2Proof Sys2Proof.Machine

/-! ### PACK (R180 to R183) -/

/-- A NaN input has no payload (R182). -/
theorem exec_pack_nonfinite {s : State} (h : ∃ n, Spec.IsNaN (Spec.packInput n s)) :
    exec .pack s = .next (Spec.raised .nonfinite s) := by
  rw [exec, execPack, packedPayload_none h]
  rfl

/-- The halves of a 64-bit word, the form the statements use (R181). -/
theorem extractLsb'_halves (w : BitVec 64) :
    w.extractLsb' 32 32 = BitVec.ofNat 32 (w.toNat / 2 ^ 32) ∧
      w.extractLsb' 0 32 = BitVec.ofNat 32 w.toNat := by
  constructor <;> apply BitVec.eq_of_toNat_eq <;>
    simp [BitVec.extractLsb'_toNat, Nat.shiftRight_eq_div_pow]

/-- Without a NaN input PACK gets to the header check (R182, R183). -/
theorem exec_pack_of_noNaN {s : State} (h : Spec.NoNaNInput s) :
    exec .pack s = if headerOk s.argId
      then .next (Spec.completed { s with
        outFrame := Spec.outgoing s (BitVec.ofNat 32 (Spec.packWord s / 2 ^ 32))
          (BitVec.ofNat 32 (Spec.packWord s)) })
      else .next (Spec.raised .badid s) := by
  obtain ⟨w, hpayload, hw⟩ := packedPayload_some h
  obtain ⟨hhigh, hlow⟩ := extractLsb'_halves w
  rw [exec, execPack, hpayload, ← hw, ← hhigh, ← hlow]
  rfl

/-- PACK without a NaN input under a header that is not legal (R183). -/
theorem exec_pack_badid {s : State} (h : Spec.NoNaNInput s) (hid : ¬ Spec.HeaderLegal s) :
    exec .pack s = .next (Spec.raised .badid s) := by
  rw [exec_pack_of_noNaN h, if_neg (mt (headerOk_iff s).1 hid)]

/-- PACK without a NaN input under a legal header builds the frame of W (R181, R182). -/
theorem exec_pack_of_legal {s : State} (h : Spec.NoNaNInput s) (hid : Spec.HeaderLegal s) :
    exec .pack s = .next (Spec.completed { s with
      outFrame := Spec.outgoing s (BitVec.ofNat 32 (Spec.packWord s / 2 ^ 32))
        (BitVec.ofNat 32 (Spec.packWord s)) }) := by
  rw [exec_pack_of_noNaN h, if_pos ((headerOk_iff s).2 hid)]

/-- Settles O23: the payload is none exactly with a NaN input, and else PACK ends in the header
check. -/
theorem packFollowsItsPseudocode : Obligations.PackFollowsItsPseudocode :=
  ⟨rfl, fun _ => ⟨exec_pack_nonfinite, exec_pack_badid, exec_pack_of_legal⟩⟩

/-- Each code of PACK fits its field of W (R180). -/
theorem packCodes_lt (s : State) :
    Spec.packCode .pos s < 2 ^ 16 ∧ Spec.packCode .vel s < 2 ^ 12 ∧ Spec.packCode .kp s < 2 ^ 12 ∧
      Spec.packCode .kd s < 2 ^ 12 ∧ Spec.packCode .tor s < 2 ^ 12 :=
  ⟨(packCode_eq .pos s).2, (packCode_eq .vel s).2, (packCode_eq .kp s).2, (packCode_eq .kd s).2,
    (packCode_eq .tor s).2⟩

/-- D[k] of a frame that carries W is the k-th byte of W from the top (R87, R181). -/
theorem payloadByte_outgoing (s : State) (w : ℕ) {k : ℕ} (hk : k < 8) :
    Spec.payloadByte (Spec.outgoing s (BitVec.ofNat 32 (w / 2 ^ 32)) (BitVec.ofNat 32 w)) k
      = w / 2 ^ (56 - 8 * k) % 256 := by
  simp only [Spec.payloadByte, Spec.outgoing, BitVec.toNat_ofNat]
  interval_cases k <;> norm_num <;> omega

/-- All eight payload bytes of such a frame. -/
theorem payloadBytes_outgoing (s : State) (w : ℕ) :
    (List.range 8).map
        (Spec.payloadByte (Spec.outgoing s (BitVec.ofNat 32 (w / 2 ^ 32)) (BitVec.ofNat 32 w)))
      = (List.range 8).map fun k => w / 2 ^ (56 - 8 * k) % 256 :=
  List.map_congr_left fun _ hk => payloadByte_outgoing s w (List.mem_range.1 hk)

/-- Settles O24: the k-th byte of W is read off the sum of the codes in their places. -/
theorem packedBytesFollowTheWireLayout : Obligations.PackedBytesFollowTheWireLayout := by
  intro s hnan hid
  obtain ⟨hp, hv, hkp, hkd, ht⟩ := packCodes_lt s
  refine ⟨_, exec_pack_of_legal hnan hid, (payloadBytes_outgoing s _).trans ?_, hp, hv, hkp, hkd, ht⟩
  simp only [List.range_succ, List.range_zero, List.nil_append, List.cons_append, List.map_cons,
    List.map_nil, List.cons.injEq, Spec.packWord, and_true]
  omega

/-! ### The clamping property (R184) -/

@[simp] theorem withPackInput_argId (n : RangeName) (w : Word) (s : State) :
    (Spec.withPackInput n w s).argId = s.argId := by
  cases n <;> rfl

@[simp] theorem withPackInput_outFrame (n : RangeName) (w : Word) (s : State) :
    (Spec.withPackInput n w s).outFrame = s.outFrame := by
  cases n <;> rfl

@[simp] theorem withPackInput_status (n : RangeName) (w : Word) (s : State) :
    (Spec.withPackInput n w s).status = s.status := by
  cases n <;> rfl

/-- The payload depends on an input through its code alone. -/
theorem packedPayload_withPackInput {n : RangeName} {w w' : Word}
    (h : clampedCode n w = clampedCode n w') (s : State) :
    packedPayload (Spec.withPackInput n w s) = packedPayload (Spec.withPackInput n w' s) := by
  cases n <;> simp only [packedPayload, Spec.withPackInput, h]

/-- So do OF_* and STATUS after PACK. -/
theorem exec_pack_withPackInput {n : RangeName} {w w' : Word}
    (h : clampedCode n w = clampedCode n w') (s : State) :
    ∃ t u, exec .pack (Spec.withPackInput n w s) = .next t ∧
      exec .pack (Spec.withPackInput n w' s) = .next u ∧
      t.outFrame = u.outFrame ∧ t.status = u.status := by
  simp only [exec, execPack, packedPayload_withPackInput h, withPackInput_argId]
  cases packedPayload (Spec.withPackInput n w' s) with
  | none => exact ⟨_, _, rfl, rfl, by simp, by simp⟩
  | some x =>
    cases headerOk s.argId with
    | true => exact ⟨_, _, rfl, rfl, by simp, by simp⟩
    | false => exact ⟨_, _, rfl, rfl, by simp, by simp⟩

/-- Two words that clamp alike have the same code. -/
theorem clampedCode_congr {n : RangeName} {w w' : Word} (h : ¬ Spec.IsNaN w)
    (h' : ¬ Spec.IsNaN w')
    (hclamp : Spec.clampWord w (Spec.rangeMin n) (Spec.rangeMax n)
      = Spec.clampWord w' (Spec.rangeMin n) (Spec.rangeMax n)) :
    clampedCode n w = clampedCode n w' := by
  rw [clampedCode_some n h, clampedCode_some n h', hclamp]

theorem not_isNaN_of_isFinite {w : Word} (h : Spec.IsFinite w) : ¬ Spec.IsNaN w :=
  fun hn => h hn.1

theorem not_isNaN_of_isInf {w : Word} (h : Spec.IsInf w) : ¬ Spec.IsNaN w :=
  fun hn => hn.2 h.2

/-- A finite word clamps as its value does. -/
theorem clampWord_of_isFinite {w : Word} (h : Spec.IsFinite w) (lo hi : ℚ) :
    Spec.clampWord w lo hi =
      if Spec.val w < lo then lo else if hi < Spec.val w then hi else Spec.val w :=
  if_neg fun hinf => h hinf.1

/-- An infinity clamps to the bound of its sign. -/
theorem clampWord_of_isInf {w : Word} (h : Spec.IsInf w) (lo hi : ℚ) :
    Spec.clampWord w lo hi = if Spec.signOf w = 1 then lo else hi :=
  if_pos h

/-- The word of a range's max is its own clamp. -/
theorem clampWord_maxWord (n : RangeName) :
    Spec.clampWord (Spec.maxWord n) (Spec.rangeMin n) (Spec.rangeMax n) = Spec.rangeMax n := by
  obtain ⟨hfin, hval⟩ := maxWord_val n
  rw [clampWord_of_isFinite hfin, hval, if_neg (range_ltq n).not_gt, ite_self]

/-- The word of a range's min is its own clamp. -/
theorem clampWord_minWord (n : RangeName) :
    Spec.clampWord (Spec.minWord n) (Spec.rangeMin n) (Spec.rangeMax n) = Spec.rangeMin n := by
  obtain ⟨hfin, hval⟩ := minWord_val n
  rw [clampWord_of_isFinite hfin, hval, if_neg (lt_irrefl _), if_neg (range_ltq n).not_gt]

/-- A word above a range has the code of the range's max (R153). -/
theorem clampedCode_above {n : RangeName} {w : Word}
    (h : (Spec.IsFinite w ∧ Spec.rangeMax n < Spec.val w) ∨ (Spec.IsInf w ∧ Spec.signOf w = 0)) :
    clampedCode n w = clampedCode n (Spec.maxWord n) := by
  have hmax := not_isNaN_of_isFinite (maxWord_val n).1
  obtain ⟨hfin, hgt⟩ | ⟨hinf, hsign⟩ := h
  · refine clampedCode_congr (not_isNaN_of_isFinite hfin) hmax ?_
    rw [clampWord_maxWord, clampWord_of_isFinite hfin, if_neg ((range_ltq n).trans hgt).not_gt,
      if_pos hgt]
  · refine clampedCode_congr (not_isNaN_of_isInf hinf) hmax ?_
    rw [clampWord_maxWord, clampWord_of_isInf hinf, hsign, if_neg zero_ne_one]

/-- A word below a range has the code of the range's min (R153). -/
theorem clampedCode_below {n : RangeName} {w : Word}
    (h : (Spec.IsFinite w ∧ Spec.val w < Spec.rangeMin n) ∨ (Spec.IsInf w ∧ Spec.signOf w = 1)) :
    clampedCode n w = clampedCode n (Spec.minWord n) := by
  have hmin := not_isNaN_of_isFinite (minWord_val n).1
  obtain ⟨hfin, hlt⟩ | ⟨hinf, hsign⟩ := h
  · refine clampedCode_congr (not_isNaN_of_isFinite hfin) hmin ?_
    rw [clampWord_minWord, clampWord_of_isFinite hfin, if_pos hlt]
  · refine clampedCode_congr (not_isNaN_of_isInf hinf) hmin ?_
    rw [clampWord_minWord, clampWord_of_isInf hinf, if_pos hsign]

/-- Settles O25: PACK sees an input through its code, and a word beyond its range has the code of the
nearer bound. -/
theorem packOfAnOutsideInputEqualsPackOfTheBound :
    Obligations.PackOfAnOutsideInputEqualsPackOfTheBound :=
  fun _ s _ => ⟨fun h => exec_pack_withPackInput (clampedCode_above h) s,
    fun h => exec_pack_withPackInput (clampedCode_below h) s⟩

/-! ### SENT (R186) -/

/-- SENT with any terminal byte: the header check, then seven bytes 0xFF and the byte. -/
theorem sentFrame_spec (b : Byte) (s : State) :
    (¬ Spec.HeaderLegal s → sentFrame b s = .next (Spec.raised .badid s)) ∧
    (Spec.HeaderLegal s → sentFrame b s = .next (Spec.completed { s with
      outFrame := Spec.outgoing s 0xFFFFFFFF (0xFFFFFF#24 ++ b) })) := by
  rw [sentFrame_eq, ← headerOk_iff]
  constructor
  · intro hid; rw [if_neg hid]; rfl
  · intro hid; rw [if_pos hid]; rfl

/-- Settles O26: each form is SENT with its terminal byte. -/
theorem sentBuildsItsSentinelFrame : Obligations.SentBuildsItsSentinelFrame := by
  refine ⟨rfl, rfl, rfl, fun s p hp => ?_⟩
  simp only [List.mem_cons, List.not_mem_nil, or_false] at hp
  obtain rfl | rfl | rfl := hp
  · exact sentFrame_spec 0xFC s
  · exact sentFrame_spec 0xFD s
  · exact sentFrame_spec 0xFE s

/-! ### The sentinel collision (R187) -/

/-- The least value whose code on a range is k or more: half a step below the value of k (R142). -/
def codeStart (n : RangeName) (k : ℕ) : ℚ :=
  Spec.rangeMin n
    + (2 * k - 1) * (Spec.rangeMax n - Spec.rangeMin n) / (2 * (2 ^ Spec.rangeBits n - 1))

/-- PACK's code reaches k exactly at that value. -/
theorem le_packCode_iff (n : RangeName) (s : State) (k : ℕ) :
    k ≤ Spec.packCode n s ↔ codeStart n k ≤ Spec.packValue n s := by
  have hspan : 0 < Spec.rangeMax n - Spec.rangeMin n := sub_pos.2 (range_ltq n)
  have hcodes : (0 : ℚ) < 2 ^ Spec.rangeBits n - 1 :=
    sub_pos.2 (one_lt_pow₀ one_lt_two (rangeBits_le n).1.ne')
  rw [← Int.ofNat_le, (packCode_eq n s).1, Spec.quantize, Int.le_floor, ← sub_le_iff_le_add,
    Spec.qexact, le_div_iff₀ hspan, codeStart, ← le_sub_iff_add_le', div_le_iff₀ (by positivity)]
  push_cast
  constructor <;> intro h <;> linarith

/-- PACK's code is k exactly on one band of values. -/
theorem packCode_eq_iff (n : RangeName) (s : State) (k : ℕ) :
    Spec.packCode n s = k ↔
      codeStart n k ≤ Spec.packValue n s ∧ Spec.packValue n s < codeStart n (k + 1) := by
  rw [← not_le, ← le_packCode_iff, ← le_packCode_iff]
  omega

/-- PACK's code is the largest exactly from one value up. -/
theorem packCode_eq_max_iff (n : RangeName) (s : State) :
    Spec.packCode n s = 2 ^ Spec.rangeBits n - 1 ↔
      codeStart n (2 ^ Spec.rangeBits n - 1) ≤ Spec.packValue n s := by
  rw [← le_packCode_iff]
  have := (packCode_eq n s).2
  omega

/-- The bands of R187 for the first four inputs. -/
theorem maxCodes_iff (s : State) :
    (Spec.packCode .pos s = 0xFFFF ∧ Spec.packCode .vel s = 0xFFF ∧ Spec.packCode .kp s = 0xFFF ∧
        Spec.packCode .kd s = 0xFFF) ↔
      524272 / 13107 ≤ Spec.packValue .pos s ∧ 40940 / 819 ≤ Spec.packValue .vel s ∧
        409450 / 819 ≤ Spec.packValue .kp s ∧ 8189 / 1638 ≤ Spec.packValue .kd s := by
  have hp := packCode_eq_max_iff .pos s
  have hv := packCode_eq_max_iff .vel s
  have hkp := packCode_eq_max_iff .kp s
  have hkd := packCode_eq_max_iff .kd s
  norm_num [codeStart, Spec.rangeMin, Spec.rangeMax, Spec.rangeBits] at hp hv hkp hkd
  rw [hp, hv, hkp, hkd]

/-- The bands of R187 for the torque. -/
theorem sentinelTorque_iff (s : State) {j : ℕ} (hj : j < 3) :
    Spec.packCode .tor s = 0xFFC + j ↔
      (j = 0 ∧ 2920 / 117 ≤ Spec.packValue .tor s ∧ Spec.packValue .tor s < 20450 / 819) ∨
      (j = 1 ∧ 20450 / 819 ≤ Spec.packValue .tor s ∧ Spec.packValue .tor s < 6820 / 273) ∨
      (j = 2 ∧ 6820 / 273 ≤ Spec.packValue .tor s ∧ Spec.packValue .tor s < 20470 / 819) := by
  rw [packCode_eq_iff]
  interval_cases j <;> norm_num [codeStart, Spec.rangeMin, Spec.rangeMax, Spec.rangeBits]

/-- W is a sentinel exactly by its five codes (R181, R187). -/
theorem sentinelWord_iff (s : State) {j : ℕ} (hj : j < 3) :
    (BitVec.ofNat 32 (Spec.packWord s / 2 ^ 32) = 0xFFFFFFFF ∧
        (BitVec.ofNat 32 (Spec.packWord s)).toNat = 0xFFFFFFFC + j) ↔
      Spec.packCode .pos s = 0xFFFF ∧ Spec.packCode .vel s = 0xFFF ∧ Spec.packCode .kp s = 0xFFF ∧
        Spec.packCode .kd s = 0xFFF ∧ Spec.packCode .tor s = 0xFFC + j := by
  have hcodes := packCodes_lt s
  rw [← BitVec.toNat_inj, BitVec.toNat_ofNat, BitVec.toNat_ofNat, Spec.packWord]
  simp only [BitVec.ofNat_eq_ofNat, BitVec.toNat_ofNat]
  omega

/-- Settles O27: the payload is W, whose five fields decide it, and each code is in turn decided by the
band of its clamped input. -/
theorem sentinelCollisionSet : Obligations.SentinelCollisionSet := by
  intro s hnan hid j hj
  have hcodes := sentinelWord_iff s hj
  refine ⟨_, exec_pack_of_legal hnan hid, hcodes, hcodes.trans ?_⟩
  have hmax := maxCodes_iff s
  have htor := sentinelTorque_iff s hj
  rw [← htor]
  simp only [← and_assoc] at hmax ⊢
  rw [hmax]

/-! ### UNPACK (R190) -/

/-- UNPACK of any frame registers: the LEN check, then the telemetry of their payload. -/
theorem unpackFrame_spec (f : FrameRegs) (s : State) :
    (f.len.toNat ≠ 8 → unpackFrame f s = .next (Spec.raised .length s)) ∧
    (f.len.toNat = 8 → ∃ x y z : Word,
      Spec.Rne32 (Spec.dequantize (Spec.statusCodes f.d0 f.d1).1 (-40) 40 16) x ∧
      Spec.Rne32 (Spec.dequantize (Spec.statusCodes f.d0 f.d1).2.1 (-50) 50 12) y ∧
      Spec.Rne32 (Spec.dequantize (Spec.statusCodes f.d0 f.d1).2.2 (-25) 25 12) z ∧
      unpackFrame f s = .next (Spec.completed { s with
        tel :=
          { pos := x, vel := y, tor := z
            rawPos := BitVec.ofNat 16 (Spec.statusCodes f.d0 f.d1).1
            rawVel := BitVec.ofNat 12 (Spec.statusCodes f.d0 f.d1).2.1
            rawTor := BitVec.ofNat 12 (Spec.statusCodes f.d0 f.d1).2.2 }
        status := { s.status with telv := true } })) := by
  have hlen : f.len.toNat = 8 ↔ f.len = 8 := BitVec.toNat_inj (y := 8#4)
  rw [unpackFrame_eq, ne_eq, hlen]
  constructor
  · intro h8
    rw [if_pos h8, setErr_eq_raised]
  · intro h8
    obtain ⟨hp, hv, ht⟩ := statusCodes_lt f.d0 f.d1
    refine ⟨_, _, _, dequantizeWord_range _ .pos (Nat.le_sub_one_of_lt hp),
      dequantizeWord_range _ .vel (Nat.le_sub_one_of_lt hv),
      dequantizeWord_range _ .tor (Nat.le_sub_one_of_lt ht), ?_⟩
    rw [if_neg (not_not.2 h8), setTel_completed, telemetryOf_eq]

/-- Settles O28: both forms are UNPACK of a frame's registers. -/
theorem unpackFollowsItsPseudocode : Obligations.UnpackFollowsItsPseudocode := by
  refine ⟨rfl, rfl, fun s p hp => ?_⟩
  simp only [List.mem_cons, List.not_mem_nil, or_false] at hp
  obtain rfl | rfl := hp
  · exact unpackFrame_spec s.inFrame s
  · exact unpackFrame_spec s.outFrame s

end Sys2Proof.Proofs
end

section
/-! The statements of 42_cache.md: POLL's fill of the cache (R220), the lookups RDSLOT (R227) and FIND
(R228), and the liveness commands ONSLOT (R232) and ONID (R234). -/

namespace Sys2Proof.Proofs

open Sys2Proof Sys2Proof.Machine

/-! ### POLL (R220) -/

/-- The write pointer that POLL leaves is the spec's (R48, R220). -/
theorem storeAll_received_wrptr (s : State) :
    (storeAll s.now 0 (Spec.received s.rx) s).wrptr = Spec.wrptrAfterPoll s :=
  storeAll_wrptr s.now 0 (Spec.received s.rx) s

/-- POLL's whole next state: but for the slots, every field in the spec's own terms (R220, R224). -/
theorem exec_poll_eq (s : State) :
    exec .poll s = .next (Spec.completed { s with
      slots := (storeAll s.now 0 (Spec.received s.rx) s).slots
      rx := Spec.leftover s.rx
      wrptr := Spec.wrptrAfterPoll s
      status := { s.status with pcount := BitVec.ofNat 3 (Spec.received s.rx).length } }) := by
  rw [exec, execPoll_eq, storeAll_eq, storeAll_received_wrptr]
  rfl

/-- The j-th frame that POLL receives stands in its slot with the one NOW (R220, R221, R223). -/
theorem poll_slots_of_received {s : State} {j : ℕ} {f : Frame}
    (h : (Spec.received s.rx)[j]? = some f) :
    (storeAll s.now 0 (Spec.received s.rx) s).slots.get (Spec.pollSlot s j) = ⟨f, s.now, true⟩ := by
  obtain ⟨hlt, rfl⟩ := List.getElem?_eq_some_iff.1 h
  rw [poll_slots s (hlt.trans_le (received_length s.rx)), dif_pos hlt]

/-- A slot for which POLL receives no frame stays (R220). -/
theorem poll_slots_of_not_received {s : State} {j : ℕ} (h : (Spec.received s.rx).length ≤ j)
    (hj : j < 4) :
    (storeAll s.now 0 (Spec.received s.rx) s).slots.get (Spec.pollSlot s j)
      = s.slots.get (Spec.pollSlot s j) := by
  rw [poll_slots s hj, dif_neg h.not_gt]

/-- Settles O30: the cache is that of storing the received frames one after another, each of which has
a slot of its own among the four. -/
theorem pollFillsTheCacheInArrivalOrder : Obligations.PollFillsTheCacheInArrivalOrder :=
  ⟨rfl, fun s => ⟨_, exec_poll_eq s, received_length s.rx, fun _ _ => poll_slots_of_received,
    fun _ => poll_slots_of_not_received⟩⟩

/-! ### The lookups (R227, R228) -/

/-- RDSLOT of any slot: the two cases of VALID (R227). -/
theorem readSlot_spec (i : BitVec 2) (s : State) :
    ((s.slots.get i).valid = true →
      readSlot i s = .next (Spec.lookupHit (s.slots.get i) s)) ∧
    ((s.slots.get i).valid = false → readSlot i s = .next (Spec.lookupMiss s)) := by
  rw [readSlot_eq]
  constructor
  · intro hvalid; rw [if_pos hvalid]
  · intro hinvalid; rw [hinvalid, if_neg Bool.false_ne_true]

/-- Settles O31: each form is RDSLOT of its slot. -/
theorem rdslotShowsItsSlot : Obligations.RdslotShowsItsSlot := by
  refine ⟨rfl, rfl, rfl, rfl, fun s p hp => ?_⟩
  simp only [List.mem_cons, List.not_mem_nil, or_false] at hp
  obtain rfl | rfl | rfl | rfl := hp
  · exact readSlot_spec 0 s
  · exact readSlot_spec 1 s
  · exact readSlot_spec 2 s
  · exact readSlot_spec 3 s

/-- Settles O32: FIND shows what the first match is, which is the lowest matching slot or none. -/
theorem findShowsTheLowestMatch : Obligations.FindShowsTheLowestMatch := by
  refine ⟨rfl, fun s => ⟨fun i hmatch hlowest => ?_, fun hnone => ?_⟩⟩
  · rw [exec, execFind, firstMatch_some hmatch hlowest]; rfl
  · rw [exec, execFind, firstMatch_none hnone]; rfl

/-! ### The liveness commands (R232, R234) -/

/-- ONSLOT of any slot: ONLINE is the comparator at 600 (R225, R232). -/
theorem slotOnline_spec (i : BitVec 2) (s : State) :
    ∃ b : Bool, (b = true ↔ Spec.Within s.now (s.slots.get i) 600) ∧
      slotOnline i s = .next (Spec.completed { s with status := { s.status with online := b } }) :=
  ⟨_, within_iff s.now (s.slots.get i) defaultTimeout, rfl⟩

/-- Settles O33: each form is ONSLOT of its slot. -/
theorem onslotComparesTheAgeWith600 : Obligations.OnslotComparesTheAgeWith600 := by
  refine ⟨rfl, rfl, rfl, rfl, fun s p hp => ?_⟩
  simp only [List.mem_cons, List.not_mem_nil, or_false] at hp
  obtain rfl | rfl | rfl | rfl := hp
  · exact slotOnline_spec 0 s
  · exact slotOnline_spec 1 s
  · exact slotOnline_spec 2 s
  · exact slotOnline_spec 3 s

/-- Settles O34: ONLINE is the disjunction over the four slots, each with the spec's comparators. -/
theorem onidLooksAtEveryMatchingSlot : Obligations.OnidLooksAtEveryMatchingSlot :=
  ⟨rfl, fun s => ⟨_, anyOnline_iff s.now s.slots s.argId.id s.argTmo, rfl⟩⟩

end Sys2Proof.Proofs
end

section
/-! The statement of 43_host_access.md about NOP (R260). -/

namespace Sys2Proof.Proofs

open Sys2Proof Sys2Proof.Machine

/-- NOP is completion and no more (R260). -/
theorem exec_nop_eq (s : State) : exec .nop s = .next s.clearErr := by
  rw [exec, execNop, complete_eq]

/-- Settles O15: the word 0 is NOP's encoding, and completion writes ERR alone. -/
theorem nopClearsErrAndNothingElse : Obligations.NopClearsErrAndNothingElse :=
  ⟨decode_encode .nop, exec_nop_eq⟩

end Sys2Proof.Proofs
end

section
/-! The statements of 70_reset_and_hazards.md: the values after reset (R310), and what only a hardware
reset can clear (R311). -/

namespace Sys2Proof.Proofs

open Sys2Proof Sys2Proof.Machine

/-! ### The reset values (R310) -/

/-- The reset column of R310 for the registers of the window. -/
theorem readReg_reset {r : Reg} (hr : r ≠ .time) :
    readReg r State.reset = if r = .argTmo then 0x00000258 else 0x00000000 := by
  cases r
  case time => exact absurd rfl hr
  all_goals rfl

/-- Every slot is empty after reset (R47, R310). -/
theorem reset_slots_get (i : BitVec 2) : State.reset.slots.get i = Slot.empty := by
  obtain rfl | rfl | rfl | rfl := slotIndex_cases i <;> rfl

/-- Settles O12: the registers one by one, the four empty slots, and the ranges of R140. -/
theorem resetLeavesEveryRegisterAtItsResetValue :
    Obligations.ResetLeavesEveryRegisterAtItsResetValue := by
  refine ⟨fun _ => readReg_reset, fun i => ?_, rfl, fun _ => rfl,
    fun n => ⟨range_bits n, range_min n, range_max n⟩⟩
  rw [reset_slots_get]
  exact ⟨rfl, rfl, rfl⟩

/-! ### What only a hardware reset clears (R311) -/

/-- Storing frames leaves the telemetry. -/
theorem storeAll_tel (t : Word) (n : ℕ) (fs : List Frame) (s : State) :
    (storeAll t n fs s).tel = s.tel := by
  rw [storeAll_eq]

/-- Storing frames leaves STATUS. -/
theorem storeAll_status (t : Word) (n : ℕ) (fs : List Frame) (s : State) :
    (storeAll t n fs s).status = s.status := by
  rw [storeAll_eq]

/-- A VALID slot stays VALID over every command: a POLL writes VALID slots only, and no other command
writes the cache. -/
theorem valid_of_effect {i : Instr} {s t : State} (he : Effect i s t) {k : BitVec 2}
    (hk : (s.slots.get k).valid = true) : (t.slots.get k).valid = true := by
  cases he with
  | poll => exact storeAll_valid s.now 0 (Spec.received s.rx) s k hk
  | _ => exact hk

/-- A command that changes the telemetry is an UNPACK that completes. -/
theorem unpack_of_effect_tel_ne {i : Instr} {s t : State} (he : Effect i s t) (ht : t.tel ≠ s.tel) :
    t.status.err = .none ∧ t.status.telv = true ∧ Spec.isUnpack i = true := by
  cases he with
  | unpack hi => exact ⟨rfl, rfl, hi⟩
  | poll => exact absurd (storeAll_tel s.now 0 (Spec.received s.rx) s) ht
  | _ => exact absurd rfl ht

/-- No command clears TELV or STICKY (R52). -/
theorem telv_sticky_of_effect {i : Instr} {s t : State} (he : Effect i s t) :
    (s.status.telv = true → t.status.telv = true) ∧
    (s.status.sticky = true → t.status.sticky = true) := by
  cases he with
  | raised => exact ⟨id, fun _ => rfl⟩
  | unpack => exact ⟨fun _ => rfl, id⟩
  | poll =>
    have hstatus := storeAll_status s.now 0 (Spec.received s.rx) s
    exact ⟨(congrArg Status.telv hstatus).trans, (congrArg Status.sticky hstatus).trans⟩
  | _ => exact ⟨id, id⟩

/-- The next event writes 1 to STATUS bit 15 (R35). -/
def WritesStickyBit (s : State) : Prop :=
  ∃ v rest, s.pending = .access (.write (s.params.qfcBase + 0x04) 4 v) :: rest ∧
    v.toNat / 2 ^ 15 % 2 = 1

/-- What R311 protects is as before, but that a write to STATUS may have cleared STICKY. -/
structure KeepsCacheAndTelemetry (s t : State) : Prop where
  slots : t.slots = s.slots
  wrptr : t.wrptr = s.wrptr
  tel : t.tel = s.tel
  telv : t.status.telv = s.status.telv
  sticky : s.status.sticky = true → t.status.sticky = true ∨ WritesStickyBit s

/-- A register write other than CMD's keeps what R311 protects. -/
theorem keepsCacheAndTelemetry_of_writeReg {r : Reg} {v : Word} {rest : List Event} {s t : State}
    (hp : s.pending = .access (.write (s.params.qfcBase + regOffset r) 4 v) :: rest)
    (hr : r ≠ .cmd) (h : writeReg r v { s with pending := rest, resp := .accepted } = .next t) :
    KeepsCacheAndTelemetry s t := by
  obtain ⟨_, _, _, _, _, _, _, _, b, rfl, hb⟩ := writeReg_next hr h
  refine ⟨rfl, rfl, rfl, rfl, fun hs => ?_⟩
  obtain rfl | ⟨rfl, h15⟩ := hb
  · exact .inl hs
  · rw [getLsbD_eq_digit, decide_eq_true_eq] at h15
    exact .inr ⟨v, rest, hp, h15⟩

/-- A step that is no hardware reset runs a command, or keeps what R311 protects. -/
theorem step_command_or_keeps {s t : State} (hnr : ∀ rest, s.pending ≠ .reset :: rest)
    (h : step s = .next t) :
    (∃ i rest, s.pending = .access (.write s.params.qfcBase 4 (encode i)) :: rest ∧
      Effect i { s with pending := rest, resp := .accepted, cmd := encode i } t) ∨
    KeepsCacheAndTelemetry s t := by
  obtain ⟨-, rfl⟩ | ⟨e, rest, hp, hevent⟩ := step_next h
  · exact .inr ⟨rfl, rfl, rfl, rfl, .inl⟩
  obtain ⟨v, rfl, rfl⟩ | ⟨r, rfl, rfl⟩ | ⟨rfl, -⟩ | ⟨a, rfl, -, b, rfl⟩ | ⟨r, v, rfl, hw⟩ := hevent
  · exact .inr ⟨rfl, rfl, rfl, rfl, .inl⟩
  · exact .inr ⟨rfl, rfl, rfl, rfl, .inl⟩
  · exact absurd hp (hnr rest)
  · exact .inr ⟨rfl, rfl, rfl, rfl, .inl⟩
  · by_cases hr : r = .cmd
    · subst hr
      obtain ⟨i, hi, he⟩ | ⟨e, -, rfl⟩ := writeCmd_next hw
      · obtain rfl := decode_eq_ok_iff.1 hi
        exact .inl ⟨i, rest, hp, he⟩
      · exact .inr ⟨rfl, rfl, rfl, rfl, fun _ => .inl rfl⟩
    · exact .inr (keepsCacheAndTelemetry_of_writeReg hp hr hw)

/-- Settles O14: each clause holds of a command by its effect, and of every other step because it keeps
what R311 protects. -/
theorem onlyResetClearsTheCacheAndTelemetry : Obligations.OnlyResetClearsTheCacheAndTelemetry := by
  intro s t hnr h
  obtain ⟨i, rest, hp, he⟩ | hk := step_command_or_keeps hnr h
  · obtain ⟨htelv, hsticky⟩ := telv_sticky_of_effect he
    refine ⟨fun hc => ?_, fun _ => valid_of_effect he, fun ht => ?_, htelv, fun h1 h0 => ?_⟩
    · by_cases hi : i = .poll
      · subst hi
        exact ⟨_, rest, hp, (isPoll_write s.params .cmd _).2 ⟨rfl, rfl⟩⟩
      · obtain ⟨-, hslots, hwrptr⟩ := he.cache hi
        exact absurd hc (not_or.2 ⟨not_not.2 hslots, not_not.2 hwrptr⟩)
    · obtain ⟨herr, htelv', hi⟩ := unpack_of_effect_tel_ne he ht
      exact ⟨herr, htelv', i, rest, hi, hp⟩
    · exact absurd (hsticky h1) (Bool.eq_false_iff.1 h0)
  · refine ⟨fun hc => ?_, fun _ hv => by rwa [hk.slots], fun ht => absurd hk.tel ht,
      hk.telv.trans, fun h1 h0 => ?_⟩
    · exact absurd hc (not_or.2 ⟨not_not.2 hk.slots, not_not.2 hk.wrptr⟩)
    · exact (hk.sticky h1).resolve_left (Bool.eq_false_iff.1 h0)

end Sys2Proof.Proofs
end

section
/-! The statement of 30_encoding.md that decode and encode agree (R110 to R117), and the step on a
legal word (R33). -/

namespace Sys2Proof.Proofs

open Sys2Proof Sys2Proof.Machine

/-- Settles O2: the fields of a word that decodes are the command's, and they are all of the word. -/
theorem decodeAgreesWithEncode : Obligations.DecodeAgreesWithEncode :=
  fun _ _ => decode_eq_ok_iff

/-- Settles O4: the step runs the word in CMD, and a word that decodes runs its command. -/
theorem stepRunsTheDecodedCommand : Obligations.StepRunsTheDecodedCommand := by
  intro s w i rest hp hi
  rw [step_writeCmd hp, runWord_of_ok hi]

end Sys2Proof.Proofs
end

section
/-! The statements of 42_cache.md and 70_reset_and_hazards.md about the cache and its history: what
reset leaves (R310), what every step keeps (R222), and the order of the slots in CYCLIC mode. -/

namespace Sys2Proof.Proofs

open Sys2Proof Sys2Proof.Machine

/-! ### Where a POLL puts its frames (R221) -/

/-- The position in a POLL of the frame that would go to slot i: the inverse of `Spec.pollSlot`. -/
def pollIndex (s : State) (i : BitVec 2) : BitVec 2 :=
  match s.params.wrptrMode with
  | .cyclic => i - s.wrptr
  | .restart => i

theorem pollIndex_of_cyclic {s : State} (hm : s.params.wrptrMode = .cyclic) (i : BitVec 2) :
    pollIndex s i = i - s.wrptr := by
  simp only [pollIndex, hm]

theorem pollIndex_of_restart {s : State} (hm : s.params.wrptrMode = .restart) (i : BitVec 2) :
    pollIndex s i = i := by
  simp only [pollIndex, hm]

theorem pollSlot_pollIndex (s : State) (i : BitVec 2) :
    Spec.pollSlot s (pollIndex s i).toNat = i := by
  unfold Spec.pollSlot pollIndex
  cases s.params.wrptrMode with
  | cyclic =>
    simp only
    rw [BitVec.ofNat_toNat, BitVec.setWidth_eq, BitVec.add_comm, BitVec.sub_add_cancel]
  | restart =>
    simp only
    rw [BitVec.ofNat_toNat, BitVec.setWidth_eq]

/-- The cache after a POLL. -/
abbrev polledSlots (s : State) : Slots := (storeAll s.now 0 (Spec.received s.rx) s).slots

/-- What a slot holds after a POLL, by the slot (R220, R221). -/
theorem polledSlots_get (s : State) (i : BitVec 2) :
    (polledSlots s).get i =
      if h : (pollIndex s i).toNat < (Spec.received s.rx).length
      then ⟨(Spec.received s.rx)[(pollIndex s i).toNat], s.now, true⟩
      else s.slots.get i := by
  have h := poll_slots s (pollIndex s i).isLt
  rwa [pollSlot_pollIndex] at h

/-- A slot is VALID after a POLL when the POLL wrote it or it was VALID before. -/
theorem polledSlots_valid_iff (s : State) (i : BitVec 2) :
    ((polledSlots s).get i).valid = true ↔
      (pollIndex s i).toNat < (Spec.received s.rx).length ∨ (s.slots.get i).valid = true := by
  rw [polledSlots_get]
  split
  · next h => simp [h]
  · next h => simp [h]

/-! ### What a history says a slot holds (R222) -/

/-- The last frame of a residue class: index k is the last one below N that is i modulo 4, or i itself
when there is none. -/
theorem slotAfter_cyclic {h : Spec.History} {i k : ℕ} (hi : k % 4 = i)
    (hlast : h.flatten.length ≤ k + 4) (hstored : k < h.flatten.length ∨ k < 4) :
    Spec.slotAfter .cyclic h i = Spec.slotHolding h.flatten[k]? := by
  have hk : i + 4 * ((h.flatten.length - 1 - i) / 4) = k := by omega
  rw [Spec.slotAfter, hk]

/-- The frames that one POLL adds to the history. -/
abbrev polledFrames (s : State) : List (Frame × Word) := (Spec.received s.rx).map fun f => (f, s.now)

theorem flatten_append_poll (h : Spec.History) (p : List (Frame × Word)) :
    (h ++ [p]).flatten = h.flatten ++ p := by
  simp

/-- In CYCLIC mode slot i receives frame N + j of the history, j its position in the POLL. -/
theorem slotAfter_cyclic_append {s : State} {h : Spec.History} (hm : s.params.wrptrMode = .cyclic)
    (hw : s.wrptr.toNat = h.flatten.length % 4) (i : BitVec 2) :
    Spec.slotAfter .cyclic (h ++ [polledFrames s]) i.toNat =
      if hj : (pollIndex s i).toNat < (Spec.received s.rx).length
      then ⟨(Spec.received s.rx)[(pollIndex s i).toNat], s.now, true⟩
      else Spec.slotAfter .cyclic h i.toNat := by
  have hn := received_length s.rx
  have hlen : (h ++ [polledFrames s]).flatten.length
      = h.flatten.length + (Spec.received s.rx).length := by
    rw [flatten_append_poll, List.length_append, List.length_map]
  have hj : (pollIndex s i).toNat = (4 - h.flatten.length % 4 + i.toNat) % 4 := by
    rw [pollIndex_of_cyclic hm, BitVec.toNat_sub, hw]
  have hi := i.isLt
  generalize (pollIndex s i).toNat = j at hj ⊢
  generalize hN : h.flatten.length = N at hj hlen
  split
  · next hjn =>
    rw [slotAfter_cyclic (k := N + j) (by omega) (by omega) (by omega), flatten_append_poll,
      List.getElem?_append_right (by omega), hN, Nat.add_sub_cancel_left, List.getElem?_map,
      List.getElem?_eq_getElem hjn]
    rfl
  · next hjn =>
    rcases Nat.lt_or_ge (N + j) 4 with h4 | h4
    · rw [slotAfter_cyclic (k := N + j) (by omega) (by omega) (by omega),
        slotAfter_cyclic (k := N + j) (by omega) (by omega) (by omega),
        List.getElem?_eq_none (by omega), List.getElem?_eq_none (by omega)]
    · rw [slotAfter_cyclic (k := N + j - 4) (by omega) (by omega) (by omega),
        slotAfter_cyclic (k := N + j - 4) (by omega) (by omega) (by omega), flatten_append_poll,
        List.getElem?_append_left (by omega)]

/-- In RESTART mode slot i receives frame i of the POLL. -/
theorem slotAfter_restart_append {s : State} (hm : s.params.wrptrMode = .restart)
    (h : Spec.History) (i : BitVec 2) :
    Spec.slotAfter .restart (h ++ [polledFrames s]) i.toNat =
      if hj : (pollIndex s i).toNat < (Spec.received s.rx).length
      then ⟨(Spec.received s.rx)[(pollIndex s i).toNat], s.now, true⟩
      else Spec.slotAfter .restart h i.toNat := by
  simp only [pollIndex_of_restart hm, Spec.slotAfter, List.reverse_append, List.reverse_singleton,
    List.singleton_append, List.find?_cons, List.length_map]
  by_cases hj : i.toNat < (Spec.received s.rx).length
  · simp [hj, Spec.slotHolding]
  · simp [hj]

/-! ### Every step keeps the history (R222) -/

/-- The empty cache holds the empty history in both modes. -/
theorem cacheHolds_nil {t : State} (hslots : t.slots = State.reset.slots) (hwrptr : t.wrptr = 0) :
    Spec.CacheHolds [] t := by
  refine ⟨fun i => ?_, fun _ => by rw [hwrptr]; rfl⟩
  rw [hslots, reset_slots_get]
  cases t.params.wrptrMode <;> rfl

/-- A cache that a step left alone holds the same history. -/
theorem cacheHolds_congr {h : Spec.History} {s t : State} (hs : Spec.CacheHolds h s)
    (hparams : t.params = s.params) (hslots : t.slots = s.slots) (hwrptr : t.wrptr = s.wrptr) :
    Spec.CacheHolds h t := by
  rwa [Spec.CacheHolds, hparams, hslots, hwrptr]

/-- A POLL leaves what the history with its frames says. -/
theorem cacheHolds_poll {h : Spec.History} {s t : State} (hs : Spec.CacheHolds h s)
    (hparams : t.params = s.params) (hslots : t.slots = polledSlots s)
    (hwrptr : t.wrptr = Spec.wrptrAfterPoll s) :
    Spec.CacheHolds (h ++ [polledFrames s]) t := by
  obtain ⟨hget, hptr⟩ := hs
  refine ⟨fun i => ?_, fun hm => ?_⟩
  · rw [hslots, hparams, polledSlots_get, hget i]
    cases hm : s.params.wrptrMode with
    | cyclic => rw [slotAfter_cyclic_append hm (hptr hm)]
    | restart => rw [slotAfter_restart_append hm]
  · rw [hparams] at hm
    rw [hwrptr, flatten_append_poll, List.length_append, List.length_map]
    simp only [Spec.wrptrAfterPoll, hm, BitVec.toNat_add, BitVec.toNat_ofNat, hptr hm]
    omega

/-- Settles O35: a step leaves the cache alone, empties it with the history, or is a POLL, whose frames
go where the lengthened history has them in both modes. -/
theorem cacheHoldsItsHistory : Obligations.CacheHoldsItsHistory := by
  intro s t h hs hstep
  obtain ⟨hparams, ⟨hslots, hwrptr, hh⟩ | ⟨hslots, hwrptr, hh⟩ | ⟨hslots, hwrptr, hh⟩⟩ :=
    step_cache hstep
  · rw [hh]; exact cacheHolds_congr hs hparams hslots hwrptr
  · rw [hh]; exact cacheHolds_nil hslots hwrptr
  · rw [hh]; exact cacheHolds_poll hs hparams hslots (hwrptr.trans (storeAll_received_wrptr s))

/-- Settles O36: every slot is empty after reset. -/
theorem resetCacheHoldsTheEmptyHistory : Obligations.ResetCacheHoldsTheEmptyHistory :=
  cacheHolds_nil rfl rfl

/-- Settles O37: slot WRPTR + j has the residue of index N - 4 + j, the last of its class. -/
theorem cyclicSlotsGiveTheLastFourInOrder : Obligations.CyclicSlotsGiveTheLastFourInOrder := by
  intro s h ⟨hget, hptr⟩ hm h4 j hj
  have hlt : h.flatten.length - 4 + j < h.flatten.length := by omega
  refine ⟨_, List.getElem?_eq_getElem hlt, ?_⟩
  have hslot : (h.flatten.length - 4 + j) % 4 = (s.wrptr + BitVec.ofNat 2 j).toNat := by
    rw [BitVec.toNat_add, BitVec.toNat_ofNat, hptr hm]
    omega
  rw [hget, hm, slotAfter_cyclic hslot (by omega) (.inl hlt), List.getElem?_eq_getElem hlt]
  rfl

end Sys2Proof.Proofs
end

section
/-! The invariant of a run (10_state.md R34 to R48, 42_cache.md R221): it holds after reset and every
step keeps it. -/

namespace Sys2Proof.Proofs

open Sys2Proof Sys2Proof.Machine

/-! ### A POLL keeps the order of the fill (R221) -/

/-- A slot not VALID after a POLL is one that the POLL left as it was. -/
theorem polledSlots_of_invalid {s : State} {i : BitVec 2}
    (h : ((polledSlots s).get i).valid = false) : (polledSlots s).get i = s.slots.get i := by
  have hn : ¬ (pollIndex s i).toNat < (Spec.received s.rx).length := fun hlt =>
    Bool.false_ne_true (h.symm.trans ((polledSlots_valid_iff s i).2 (.inl hlt)))
  rw [polledSlots_get, dif_neg hn]

/-- The slots not VALID after a POLL were not VALID before, and the POLL did not reach them. -/
theorem polledSlots_invalid_iff (s : State) (i : BitVec 2) :
    ((polledSlots s).get i).valid = false ↔
      (Spec.received s.rx).length ≤ (pollIndex s i).toNat ∧ (s.slots.get i).valid = false := by
  rw [← Bool.not_eq_true, polledSlots_valid_iff, not_or, not_lt, Bool.not_eq_true]

/-- A slot at or above the write pointer is as many places above it. -/
theorem pollIndex_of_wrptr_le {s : State} {i : BitVec 2} (hm : s.params.wrptrMode = .cyclic)
    (hle : s.wrptr ≤ i) : (pollIndex s i).toNat = i.toNat - s.wrptr.toNat := by
  rw [pollIndex_of_cyclic hm, BitVec.toNat_sub_of_le hle]

/-- After a POLL the slots are still filled from index 0 up. -/
theorem polledSlots_fillOrder {s : State} (hs : Spec.Inv s) {i j : BitVec 2} (hij : i ≤ j)
    (hj : ((polledSlots s).get j).valid = true) : ((polledSlots s).get i).valid = true := by
  rw [polledSlots_valid_iff] at hj ⊢
  by_cases hold : (s.slots.get i).valid = true
  · exact .inr hold
  have hlt := hj.resolve_right fun h => hold (hs.fillOrder i j hij h)
  left
  have hle : i.toNat ≤ j.toNat := hij
  cases hm : s.params.wrptrMode with
  | restart =>
    rw [pollIndex_of_restart hm] at hlt ⊢
    omega
  | cyclic =>
    have hi := (hs.cyclicFill hm i (Bool.not_eq_true _ ▸ hold)).1
    have hwj : s.wrptr.toNat ≤ i.toNat := hi
    rw [pollIndex_of_wrptr_le hm hi]
    rw [pollIndex_of_wrptr_le hm (BitVec.le_def.2 (by omega))] at hlt
    omega

/-- In CYCLIC mode the slots that a POLL leaves unwritten are those at and above the write pointer. -/
theorem polledSlots_cyclicFill {s : State} (hs : Spec.Inv s) (hm : s.params.wrptrMode = .cyclic)
    {i : BitVec 2} (hi : ((polledSlots s).get i).valid = false) :
    Spec.wrptrAfterPoll s ≤ i ∧
      ∀ j, Spec.wrptrAfterPoll s ≤ j → ((polledSlots s).get j).valid = false := by
  rw [polledSlots_invalid_iff] at hi
  obtain ⟨hreach, hold⟩ := hi
  obtain ⟨hwi, habove⟩ := hs.cyclicFill hm i hold
  rw [pollIndex_of_wrptr_le hm hwi] at hreach
  have hptr : (Spec.wrptrAfterPoll s).toNat = s.wrptr.toNat + (Spec.received s.rx).length := by
    have := i.isLt
    have : s.wrptr.toNat ≤ i.toNat := hwi
    simp only [Spec.wrptrAfterPoll, hm, BitVec.toNat_add, BitVec.toNat_ofNat]
    omega
  have hwi' : s.wrptr.toNat ≤ i.toNat := hwi
  refine ⟨BitVec.le_def.2 (by omega), fun j hj => ?_⟩
  have hj' : (Spec.wrptrAfterPoll s).toNat ≤ j.toNat := hj
  have hwj : s.wrptr ≤ j := BitVec.le_def.2 (by omega)
  rw [polledSlots_invalid_iff, pollIndex_of_wrptr_le hm hwj]
  exact ⟨by omega, habove j hwj⟩

/-- The write pointer does not move in RESTART mode (R48). -/
theorem wrptrAfterPoll_of_restart {s : State} (hm : s.params.wrptrMode = .restart) :
    Spec.wrptrAfterPoll s = s.wrptr := by
  simp only [Spec.wrptrAfterPoll, hm]

/-- PCOUNT of a POLL is at most 4 (R34). -/
theorem pcount_received_le (q : List (Option Frame)) :
    BitVec.ofNat 3 (Spec.received q).length ≤ 4#3 := by
  have := received_length q
  rw [BitVec.le_def, BitVec.toNat_ofNat, BitVec.toNat_ofNat]
  omega

/-- A POLL keeps the invariant. -/
theorem inv_poll {s t : State} (hs : Spec.Inv s) (h : exec .poll s = .next t) : Spec.Inv t := by
  rw [exec_poll_eq] at h
  cases h
  exact { hs with
    pcount := pcount_received_le s.rx
    restartPtr := fun hm => (wrptrAfterPoll_of_restart (s := s) hm).trans (hs.restartPtr hm)
    emptySlot := fun i hi => (polledSlots_of_invalid hi).trans
      (hs.emptySlot i ((polledSlots_invalid_iff s i).1 hi).2)
    fillOrder := fun _ _ => polledSlots_fillOrder hs
    cyclicFill := fun hm _ => polledSlots_cyclicFill hs hm }

/-! ### Every step keeps the invariant -/

/-- LEN of a frame shown in OF_CTL is the frame's (R12, R43). -/
theorem shownFrame_len_le (f : Frame) : (Spec.shownFrame f).len ≤ 8 := by
  have := f.len.isLt
  change (BitVec.ofNat 4 f.len).toNat ≤ 8
  rw [BitVec.toNat_ofNat]
  omega

/-- Every command keeps the invariant: each effect writes values that meet it. -/
theorem inv_exec {i : Instr} {s t : State} (hs : Spec.Inv s) (h : exec i s = .next t) :
    Spec.Inv t := by
  cases exec_next h with
  | raised => exact { hs with }
  | nop => exact { hs with }
  | quant => exact { hs with }
  | dequant _ c r hc h1 h2 w hw =>
    subst hw
    exact { hs with dresFinite := (dequantizeWord_spec c r hc h1 h2).1 }
  | build => exact { hs with outLen := (by decide : (8 : BitVec 4) ≤ 8) }
  | unpack _ d0 d1 x hx =>
    exact { hs with
      telReset := fun h0 => by cases h0
      telDecoded := fun _ => raw_rne d0 d1 x hx }
  | poll hi =>
    subst hi
    exact inv_poll hs h
  | hit _ k => exact { hs with outLen := shownFrame_len_le _ }
  | miss => exact { hs with outLen := (by decide : (0 : BitVec 4) ≤ 8) }
  | liveness => exact { hs with }

/-- Reset values meet the invariant, whatever the parameters and ports are (R310). -/
theorem inv_hardwareReset (s : State) : Spec.Inv (hardwareReset s) where
  outLen := (by decide : (0 : BitVec 4) ≤ 8)
  pcount := (by decide : (0 : BitVec 3) ≤ 4)
  restartPtr _ := rfl
  emptySlot i _ := reset_slots_get i
  fillOrder i j _ hj := by
    rw [hardwareReset_slots, reset_slots_get] at hj
    cases hj
  cyclicFill _ i _ := by
    refine ⟨BitVec.le_def.2 (Nat.zero_le _), fun j _ => ?_⟩
    rw [hardwareReset_slots, reset_slots_get]
    rfl
  telReset _ := rfl
  telDecoded h := by cases h
  dresFinite := (by decide : Spec.IsFinite 0)

/-- Settles O45: reset leaves itself as it is. -/
theorem resetMeetsTheRunInvariant : Obligations.ResetMeetsTheRunInvariant :=
  inv_hardwareReset State.reset

/-- A register write keeps the invariant: one to CMD runs a command or raises, and no other touches
what the invariant is about. -/
theorem inv_writeReg {r : Reg} {v : Word} {s t : State} (hs : Spec.Inv s)
    (h : writeReg r v s = .next t) : Spec.Inv t := by
  by_cases hr : r = .cmd
  · subst hr
    have hcmd : Spec.Inv { s with cmd := v } := { hs with }
    simp only [writeReg, writeCmd, runWord] at h
    split at h
    · exact inv_exec hcmd h
    · cases h; exact { hs with }
    · cases h; exact { hs with }
  · obtain ⟨_, _, _, _, _, _, _, _, _, rfl, -⟩ := writeReg_next hr h
    exact { hs with }

/-- Settles O46: a step takes a port's input, resets, reads, or writes a register. -/
theorem everyStepKeepsTheRunInvariant : Obligations.EveryStepKeepsTheRunInvariant := by
  intro s t hs h
  obtain ⟨-, rfl⟩ | ⟨e, rest, -, hevent⟩ := step_next h
  · exact hs
  obtain ⟨v, -, rfl⟩ | ⟨r, -, rfl⟩ | ⟨-, rfl⟩ | ⟨a, -, -, b, rfl⟩ | ⟨r, v, -, hw⟩ := hevent
  · exact { hs with }
  · exact { hs with }
  · exact inv_hardwareReset _
  · exact { hs with }
  · exact inv_writeReg (s := { s with pending := rest, resp := .accepted }) { hs with } hw

end Sys2Proof.Proofs
end

section
/-! The statements of 43_host_access.md and 20_memory.md about register reads (R262, R34) and writes
(R261), the reset event (R310), and the ports (R50, R51). -/

namespace Sys2Proof.Proofs

open Sys2Proof Sys2Proof.Machine

/-! ### Reads (R262) -/

/-- The registers but STATUS, in the order of R80's map. -/
def plainRegs : List Reg :=
  [.cmd, .arg0, .arg1, .arg2, .arg3, .arg4, .argId, .argTmo, .qres, .dres, .tsres, .ifId, .ifCtl,
    .ifD0, .ifD1, .ofId, .ofCtl, .ofD0, .ofD1, .telPos, .telVel, .telTor, .telRaw0, .telRaw1, .time]

theorem argIdWord_toNat (a : ArgId) : a.word.toNat = a.ext.toNat * 2 ^ 31 + a.id.toNat := by
  simp only [ArgId.word, append_toNat, BitVec.toNat_ofBool, BitVec.toNat_ofNat]
  omega

theorem frameIdWord_toNat (f : FrameRegs) : f.idWord.toNat = f.id.toNat := by
  simp only [FrameRegs.idWord, append_toNat, BitVec.toNat_ofNat]
  omega

theorem frameCtlWord_toNat (f : FrameRegs) :
    f.ctlWord.toNat = f.rtr.toNat * 2 ^ 5 + f.ext.toNat * 2 ^ 4 + f.len.toNat := by
  simp only [FrameRegs.ctlWord, append_toNat, BitVec.toNat_ofBool, BitVec.toNat_ofNat]
  omega

theorem telRaw0Word_toNat (t : Telemetry) :
    t.raw0.toNat = t.rawVel.toNat * 2 ^ 16 + t.rawPos.toNat := by
  simp only [Telemetry.raw0, append_toNat, BitVec.toNat_ofNat]
  omega

theorem telRaw1Word_toNat (t : Telemetry) : t.raw1.toNat = t.rawTor.toNat := by
  simp only [Telemetry.raw1, append_toNat, BitVec.toNat_ofNat]
  omega

/-- A field below reserved bits has its own value. -/
theorem zero_append_toNat {m n : ℕ} (x : BitVec n) : (0#m ++ x).toNat = x.toNat := by
  rw [append_toNat, BitVec.toNat_ofNat, Nat.zero_mod, Nat.zero_mul, Nat.zero_add]

/-- The spec's table of register words is what the machine's reads return (R33 to R46, R80). -/
theorem registerWords_eq (s : State) :
    Spec.registerWords s = plainRegs.map fun r => (regOffset r, (readReg r s).toNat) := by
  simp only [plainRegs, List.map_cons, List.map_nil, readReg, regOffset, argIdWord_toNat,
    frameIdWord_toNat, frameCtlWord_toNat, telRaw0Word_toNat, telRaw1Word_toNat,
    zero_append_toNat, Spec.registerWords]

/-- Settles O6: an entry of the table is a register with the word its read returns. -/
theorem registerReadsReturnTheirWords : Obligations.RegisterReadsReturnTheirWords := by
  intro s off rest v hp hv
  rw [registerWords_eq, List.mem_map] at hv
  obtain ⟨r, -, hr⟩ := hv
  obtain ⟨rfl, hword⟩ := Prod.mk.inj hr
  rw [step_read hp, BitVec.eq_of_toNat_eq hword]

/-- The error field is the number of R280. -/
theorem code_toNat (e : Err) : e.code.toNat = Spec.errNumber e := by
  cases e <;> rfl

theorem wrptrView_toNat (s : State) : (wrptrView s).toNat = Spec.shownWrptr s := by
  unfold wrptrView Spec.shownWrptr
  cases s.params.wrptrMode <;> rfl

/-- Every field of the STATUS word in its place (R34). -/
theorem statusWord_toNat (s : State) :
    (statusWord s).toNat = s.status.telv.toNat * 2 ^ 16 + s.status.sticky.toNat * 2 ^ 15
      + s.slots.s3.valid.toNat * 2 ^ 14 + s.slots.s2.valid.toNat * 2 ^ 13
      + s.slots.s1.valid.toNat * 2 ^ 12 + s.slots.s0.valid.toNat * 2 ^ 11
      + Spec.shownWrptr s * 2 ^ 9 + s.status.pcount.toNat * 2 ^ 6
      + s.status.online.toNat * 2 ^ 5 + s.status.found.toNat * 2 ^ 4
      + Spec.errNumber s.status.err := by
  simp only [statusWord, validView, append_toNat, BitVec.toNat_ofBool, BitVec.toNat_ofNat, code_toNat,
    wrptrView_toNat]
  omega

/-- Settles O7: the step is the read of STATUS. -/
theorem statusReadShowsEveryField : Obligations.StatusReadShowsEveryField :=
  fun s _ hp => ⟨statusWord s, step_read (r := .status) hp, statusWord_toNat s⟩

/-! ### Writes of the operand registers (R261) -/

/-- The low field of a written word as the number the statements use. -/
theorem extractLsb'_zero_eq_ofNat (v : Word) (n : ℕ) : v.extractLsb' 0 n = BitVec.ofNat n v.toNat := by
  apply BitVec.eq_of_toNat_eq
  rw [BitVec.extractLsb'_toNat, BitVec.toNat_ofNat, Nat.shiftRight_zero]

/-- The spec's table of writes is what the machine's register writes store; the bus fields pass
through. -/
theorem writeReg_of_mem_operandWrites {s t : State} {off : ℕ} {v : Word}
    (h : (off, t) ∈ Spec.operandWrites s v) (rest : List Event) (b : BusResponse) :
    ∃ r, off = regOffset r ∧ writeReg r v { s with pending := rest, resp := b }
      = .next { t with pending := rest, resp := b } := by
  simp only [Spec.operandWrites, List.mem_cons, Prod.mk.injEq, List.not_mem_nil, or_false] at h
  obtain ⟨rfl, rfl⟩ | ⟨rfl, rfl⟩ | ⟨rfl, rfl⟩ | ⟨rfl, rfl⟩ | ⟨rfl, rfl⟩ | ⟨rfl, rfl⟩ | ⟨rfl, rfl⟩ |
    ⟨rfl, rfl⟩ | ⟨rfl, rfl⟩ | ⟨rfl, rfl⟩ | ⟨rfl, rfl⟩ := h
  · exact ⟨.arg0, rfl, rfl⟩
  · exact ⟨.arg1, rfl, rfl⟩
  · exact ⟨.arg2, rfl, rfl⟩
  · exact ⟨.arg3, rfl, rfl⟩
  · exact ⟨.arg4, rfl, rfl⟩
  · exact ⟨.argId, rfl, by rw [writeReg, argIdOf_eq]; rfl⟩
  · exact ⟨.argTmo, rfl, rfl⟩
  · exact ⟨.ifId, rfl, by rw [writeReg, extractLsb'_zero_eq_ofNat]⟩
  · exact ⟨.ifCtl, rfl, by
      rw [writeReg, extractLsb'_zero_eq_ofNat, getLsbD_eq_digit, getLsbD_eq_digit]⟩
  · exact ⟨.ifD0, rfl, rfl⟩
  · exact ⟨.ifD1, rfl, rfl⟩

/-- Settles O9: an entry of the table is a register write. -/
theorem operandWritesStoreTheirFields : Obligations.OperandWritesStoreTheirFields := by
  intro s off v rest t hp ht
  obtain ⟨r, rfl, hwrite⟩ := writeReg_of_mem_operandWrites ht rest .accepted
  rw [step_write hp, hwrite]

/-! ### The reset event (R310) -/

/-- But for TIME, a register after the reset event reads as in the reset state. -/
theorem readReg_hardwareReset {r : Reg} (hr : r ≠ .time) (s : State) :
    readReg r (hardwareReset s) = if r = .argTmo then 0x00000258 else 0x00000000 := by
  rw [← readReg_reset hr]
  cases r
  case time => exact absurd rfl hr
  case status =>
    change statusWord _ = statusWord _
    unfold statusWord wrptrView
    cases (hardwareReset s).params.wrptrMode <;> rfl
  all_goals rfl

/-- Settles O13: the step is the hardware reset. -/
theorem hardwareResetSetsEveryPieceOfState : Obligations.HardwareResetSetsEveryPieceOfState :=
  fun _ _ hp => ⟨_, step_cons hp, fun _ hr => readReg_hardwareReset hr _, reset_slots_get, rfl, rfl,
    rfl, rfl, rfl⟩

/-! ### The ports (R50, R51) -/

/-- Commands leave the parameters and NOW, and the RX port unless they are POLL, which takes the
answers it consumed (R220, R291). -/
theorem ports_of_effect {i : Instr} {s t : State} (he : Effect i s t) :
    t.params = s.params ∧ t.now = s.now ∧
      (t.rx = s.rx ∨ i = .poll ∧ t.rx = Spec.leftover s.rx) := by
  cases he with
  | poll hi =>
    rw [storeAll_eq]
    exact ⟨rfl, rfl, .inr ⟨hi, rfl⟩⟩
  | _ => exact ⟨rfl, rfl, .inl rfl⟩

/-- So do register writes. -/
theorem ports_of_writeReg {r : Reg} {v : Word} {s t : State} (h : writeReg r v s = .next t) :
    t.params = s.params ∧ t.now = s.now ∧
      (t.rx = s.rx ∨ (r = .cmd ∧ v = 0x60000000) ∧ t.rx = Spec.leftover s.rx) := by
  by_cases hr : r = .cmd
  · subst hr
    obtain ⟨i, hi, he⟩ | ⟨e, -, rfl⟩ := writeCmd_next h
    · obtain ⟨hparams, hnow, hrx | ⟨rfl, hrx⟩⟩ := ports_of_effect he
      · exact ⟨hparams, hnow, .inl hrx⟩
      · exact ⟨hparams, hnow, .inr ⟨⟨rfl, decode_poll hi⟩, hrx⟩⟩
    · exact ⟨rfl, rfl, .inl rfl⟩
  · obtain ⟨_, _, _, _, _, _, _, _, _, rfl, -⟩ := writeReg_next hr h
    exact ⟨rfl, rfl, .inl rfl⟩

/-- Settles O11: of the kinds of step, only the time source writes NOW, and only the transport and a
POLL write the RX port. -/
theorem onlyTheOutsideChangesThePorts : Obligations.OnlyTheOutsideChangesThePorts := by
  intro s t h
  obtain ⟨-, rfl⟩ | ⟨e, rest, hp, hevent⟩ := step_next h
  · exact ⟨rfl, absurd rfl, absurd rfl⟩
  obtain ⟨v, rfl, rfl⟩ | ⟨r, rfl, rfl⟩ | ⟨rfl, rfl⟩ | ⟨a, rfl, -, b, rfl⟩ | ⟨r, v, rfl, hw⟩ := hevent
  · exact ⟨rfl, fun _ => ⟨v, rest, hp, rfl⟩, absurd rfl⟩
  · exact ⟨rfl, absurd rfl, fun _ => .inl ⟨r, rest, hp, rfl⟩⟩
  · exact ⟨rfl, absurd rfl, absurd rfl⟩
  · exact ⟨rfl, absurd rfl, absurd rfl⟩
  · obtain ⟨hparams, hnow, hrx⟩ := ports_of_writeReg hw
    refine ⟨hparams, absurd hnow, fun hne => ?_⟩
    obtain ⟨hpoll, hrx⟩ := hrx.resolve_left hne
    exact .inr ⟨_, rest, hp, (isPoll_write s.params r v).2 hpoll, hrx⟩

end Sys2Proof.Proofs
end

section
/-! The whole-machine statements: what a raised error does (R282), which errors a command raises
(R280, R283), which registers and flags it writes (R32 to R52), and what no command reads (R52,
R291). -/

namespace Sys2Proof.Proofs

open Sys2Proof Sys2Proof.Machine

/-! ### Errors (R280 to R283) -/

/-- A command that ends with an error wrote ERR and STICKY alone, and the error is its own. -/
theorem raised_of_effect {i : Instr} {s t : State} (he : Effect i s t) (ht : t.status.err ≠ .none) :
    t = Spec.raised t.status.err s ∧ t.status.err ∈ Spec.ownErrors i := by
  cases he with
  | raised e hown => exact ⟨rfl, hown⟩
  | _ => exact absurd rfl ht

/-- Settles O39: an error is the effect of raising it, which sets STICKY, and no command clears it. -/
theorem aRaisedErrorChangesOnlyErrAndSticky : Obligations.ARaisedErrorChangesOnlyErrAndSticky := by
  intro i s
  obtain ⟨t, h, he⟩ := exec_effect i s
  refine ⟨t, h, fun ht => ?_⟩
  obtain ⟨hraised, -⟩ := raised_of_effect he ht
  refine ⟨hraised, fun j => ?_⟩
  obtain ⟨u, hu, heu⟩ := exec_effect j t
  exact ⟨u, hu, (telv_sticky_of_effect heu).2 (by rw [hraised]; rfl)⟩

/-- Settles O40: the one effect with an error raises one of the command's own. -/
theorem eachCommandRaisesOnlyItsOwnErrors : Obligations.EachCommandRaisesOnlyItsOwnErrors :=
  fun _ _ _ h ht => (raised_of_effect (exec_next h) ht).2

/-! ### What each command writes (R32 to R52) -/

/-- No command is both in a group and outside it. -/
theorem of_true_of_false {b : Bool} {p : Prop} (h : b = true) (hn : b = false) : p :=
  absurd h (Bool.eq_false_iff.1 hn)

/-- Settles O41: each flag is in the effects of its commands alone. -/
theorem flagsAreWrittenOnlyByTheirCommands : Obligations.FlagsAreWrittenOnlyByTheirCommands := by
  intro i s t h
  by_cases hpoll : i = .poll
  · subst hpoll
    rw [exec_poll_eq] at h
    cases h
    exact ⟨fun _ => rfl, fun _ => rfl, absurd rfl, absurd rfl, absurd rfl⟩
  cases exec_next h with
  | poll hi => exact absurd hi hpoll
  | raised e _ he => exact ⟨fun _ => rfl, fun _ => rfl, fun _ => rfl, absurd rfl, fun _ => ⟨rfl, he⟩⟩
  | unpack hi => exact ⟨fun _ => rfl, fun _ => rfl, fun _ => rfl, fun _ => ⟨hi, rfl⟩, absurd rfl⟩
  | hit hi => exact ⟨of_true_of_false hi, fun _ => rfl, fun _ => rfl, absurd rfl, absurd rfl⟩
  | miss hi => exact ⟨of_true_of_false hi, fun _ => rfl, fun _ => rfl, absurd rfl, absurd rfl⟩
  | liveness hi => exact ⟨fun _ => rfl, of_true_of_false hi, fun _ => rfl, absurd rfl, absurd rfl⟩
  | _ => exact ⟨fun _ => rfl, fun _ => rfl, fun _ => rfl, absurd rfl, absurd rfl⟩

/-- Each result register, the cache and the RX port are as in s, unless the command writes them. -/
structure WritesItsResults (i : Instr) (s t : State) : Prop where
  qres : Spec.isQuant i = false → t.qres = s.qres := by exact fun _ => rfl
  dres : Spec.isDequant i = false → t.dres = s.dres := by exact fun _ => rfl
  tsres : Spec.isLookup i = false → t.tsres = s.tsres := by exact fun _ => rfl
  outFrame : Spec.isBuilder i = false → Spec.isLookup i = false → t.outFrame = s.outFrame := by
    exact fun _ _ => rfl
  tel : Spec.isUnpack i = false → t.tel = s.tel := by exact fun _ => rfl
  cache : i ≠ .poll → t.slots = s.slots ∧ t.wrptr = s.wrptr ∧ t.rx = s.rx := by
    exact fun _ => ⟨rfl, rfl, rfl⟩

/-- Each result is in the effects of its commands alone (R39 to R48). -/
theorem writesItsResults_of_exec {i : Instr} {s t : State} (h : exec i s = .next t) :
    WritesItsResults i s t := by
  by_cases hpoll : i = .poll
  · subst hpoll
    rw [exec_poll_eq] at h
    cases h
    exact { cache := absurd rfl }
  cases exec_next h with
  | poll hi => exact absurd hi hpoll
  | raised => exact {}
  | nop => exact {}
  | quant hi => exact { qres := of_true_of_false hi }
  | dequant hi => exact { dres := of_true_of_false hi }
  | build hi => exact { outFrame := fun hn _ => of_true_of_false hi hn }
  | unpack hi => exact { tel := of_true_of_false hi }
  | hit hi => exact { tsres := of_true_of_false hi, outFrame := fun _ => of_true_of_false hi }
  | miss hi => exact { tsres := of_true_of_false hi, outFrame := fun _ => of_true_of_false hi }
  | liveness => exact {}

/-- No command writes an operand, the parameters, NOW or the host's side (R32, R114). -/
theorem operands_of_exec {i : Instr} {s t : State} (h : exec i s = .next t) :
    t = { s with
      status := t.status, qres := t.qres, dres := t.dres, tsres := t.tsres, outFrame := t.outFrame
      tel := t.tel, slots := t.slots, wrptr := t.wrptr, rx := t.rx } := by
  by_cases hpoll : i = .poll
  · subst hpoll
    rw [exec_poll_eq] at h
    cases h
    rfl
  cases exec_next h with
  | poll hi => exact absurd hi hpoll
  | _ => rfl

/-- Settles O42: what a command may write is a result, and each result has its own commands. -/
theorem registersAreWrittenOnlyByTheirCommands :
    Obligations.RegistersAreWrittenOnlyByTheirCommands := by
  intro i s t h
  have hres := writesItsResults_of_exec h
  refine ⟨?_, ?_, ?_, ?_, ?_, ?_, ?_, ?_, ?_, ?_, ?_, ?_, ?_, hres.qres, hres.dres, hres.tsres,
    hres.outFrame, hres.tel, hres.cache⟩
  all_goals rw [operands_of_exec h]

/-! ### What no command reads (R52, R291) -/

/-- What a command other than POLL does to the state, its choices made: the result it writes, or the
error it raises. -/
inductive Action where
  | raise (e : Err)
  | done
  | code (c : BitVec 16)
  | word (w : Word)
  | frame (f : FrameRegs)
  | telemetry (x : Telemetry)
  | lookup (x : Option Slot)
  | online (b : Bool)

/-- The action on a state. -/
def Action.apply : Action → State → Result
  | .raise e, s => raiseError e s
  | .done, s => complete s
  | .code c, s => complete (s.setQres c)
  | .word w, s => complete (s.setDres w)
  | .frame f, s => complete (s.setOut f)
  | .telemetry x, s => complete ((s.setTel x).setTelv)
  | .lookup x, s => lookupResult x s
  | .online b, s => complete (s.setOnline b)

/-- The actions that a command of each group can take. -/
def Action.Fits (i : Instr) : Action → Prop
  | .raise e => e ∈ Spec.ownErrors i ∧ e ≠ .none
  | .done => i = .nop
  | .code _ => Spec.isQuant i = true
  | .word _ => Spec.isDequant i = true
  | .frame _ => Spec.isBuilder i = true
  | .telemetry _ => Spec.isUnpack i = true
  | .lookup _ => Spec.isLookup i = true
  | .online _ => Spec.isLiveness i = true

/-- The inputs that most commands do not see: STATUS, NOW and the RX port. -/
def withUnseen (st : Status) (v : Word) (q : List (Option Frame)) (s : State) : State :=
  { s with status := st, now := v, rx := q }

/-- Command i takes one action from s, whatever STATUS and the RX port hold, and whatever NOW is unless
i is a liveness command. -/
def TakesOneAction (i : Instr) (s : State) (f : State → Result) : Prop :=
  ∃ a : Action, a.Fits i ∧ ∀ st v q, (Spec.isLiveness i = true → v = s.now) →
    f (withUnseen st v q s) = a.apply (withUnseen st v q s)

/-- Only the outcomes that the inputs in question give count. -/
theorem TakesOneAction.of_eq {i : Instr} {s : State} {f g : State → Result} (h : TakesOneAction i s f)
    (hfg : ∀ st v q, g (withUnseen st v q s) = f (withUnseen st v q s)) : TakesOneAction i s g := by
  obtain ⟨a, hfits, ha⟩ := h
  exact ⟨a, hfits, fun st v q hv => (hfg st v q).trans (ha st v q hv)⟩

/-- The end of QUANT looks at nothing but its arguments. -/
theorem takesOneAction_quantInto {i : Instr} (hi : Spec.isQuant i = true) (x : Value) (r : QRange)
    (s : State) : TakesOneAction i s (quantInto x r) := by
  have hnan : Err.nonfinite ∈ Spec.ownErrors i := by revert hi; cases i <;> decide
  have hout : Err.outrange ∈ Spec.ownErrors i := by revert hi; cases i <;> decide
  cases x with
  | nan => exact ⟨.raise .nonfinite, ⟨hnan, by decide⟩, fun _ _ _ _ => rfl⟩
  | negInf => exact ⟨.raise .outrange, ⟨hout, by decide⟩, fun _ _ _ _ => rfl⟩
  | posInf => exact ⟨.raise .outrange, ⟨hout, by decide⟩, fun _ _ _ _ => rfl⟩
  | fin n =>
    by_cases hn : n < r.min ∨ r.max < n
    · exact ⟨.raise .outrange, ⟨hout, by decide⟩, fun _ _ _ _ => if_pos hn⟩
    · exact ⟨.code _, hi, fun _ _ _ _ => if_neg hn⟩

/-- The errors of the general form's range are its own (R149, R150). -/
theorem generalRange_error {s : State} {e : Err} (h : generalRange s = .error e) :
    e ∈ Spec.ownErrors .quantGen ∧ e ∈ Spec.ownErrors .dequantGen ∧ e ≠ .none := by
  unfold generalRange at h
  split at h
  · split at h
    · cases h; decide
    · split at h
      · cases h; decide
      · cases h
  · cases h; decide

/-- Past its range's checks `quant gen` is the end of QUANT (R149). -/
theorem execQuantGen_of_ok {s : State} {r : QRange} (h : generalRange s = .ok r) :
    execQuantGen s = quantInto (value s.arg0) r s := by
  rw [execQuantGen, h]
  split
  · next hn => rw [value_of_isNaN ((isNaN_iff _).1 hn)]; rfl
  · rfl

/-- Past its range's checks `dequant gen` is the end of DEQUANT (R150). -/
theorem execDequantGen_of_ok {s : State} {r : QRange} (h : generalRange s = .ok r) :
    execDequantGen s = dequantInto r s := by
  rw [execDequantGen, h]

theorem takesOneAction_quantGen (s : State) : TakesOneAction .quantGen s execQuantGen := by
  cases hr : generalRange s with
  | error e =>
    obtain ⟨hown, -, hne⟩ := generalRange_error hr
    by_cases hn : Spec.IsNaN s.arg0
    · exact ⟨.raise .nonfinite, ⟨by decide, by decide⟩, fun _ _ _ _ =>
        execQuantGen_nonfinite (.inl hn)⟩
    · exact ⟨.raise e, ⟨hown, hne⟩, fun _ _ _ _ => execQuantGen_of_error hn hr⟩
  | ok r =>
    exact (takesOneAction_quantInto rfl (value s.arg0) r s).of_eq fun st v q =>
      execQuantGen_of_ok (s := withUnseen st v q s) hr

/-- The end of DEQUANT looks at ARG0 alone. -/
theorem takesOneAction_dequantInto {i : Instr} (hi : Spec.isDequant i = true) (r : QRange)
    (s : State) : TakesOneAction i s (dequantInto r) := by
  have hown : Err.badcode ∈ Spec.ownErrors i := by revert hi; cases i <;> decide
  by_cases hc : r.width.maxCode < s.arg0.toNat
  · exact ⟨.raise .badcode, ⟨hown, by decide⟩, fun _ _ _ _ => if_pos hc⟩
  · exact ⟨.word (dequantizeWord s.arg0.toNat r), hi, fun _ _ _ _ => if_neg hc⟩

theorem takesOneAction_dequantGen (s : State) : TakesOneAction .dequantGen s execDequantGen := by
  cases hr : generalRange s with
  | error e =>
    obtain ⟨-, hown, hne⟩ := generalRange_error hr
    exact ⟨.raise e, ⟨hown, hne⟩, fun _ _ _ _ => execDequantGen_of_error hr⟩
  | ok r =>
    exact (takesOneAction_dequantInto rfl r s).of_eq fun st v q =>
      execDequantGen_of_ok (s := withUnseen st v q s) hr

/-- PACK with a NaN input (R182). -/
theorem execPack_of_none {s : State} (h : packedPayload s = none) :
    execPack s = raiseError .nonfinite s := by
  rw [execPack, h]

/-- PACK of a payload (R182, R183). -/
theorem execPack_of_some {s : State} {w : BitVec 64} (h : packedPayload s = some w) :
    execPack s = if headerOk s.argId
      then complete (s.setOut (builtFrame s.argId (w.extractLsb' 32 32) (w.extractLsb' 0 32)))
      else raiseError .badid s := by
  rw [execPack, h]

/-- PACK looks at the operands alone. -/
theorem takesOneAction_pack (s : State) : TakesOneAction .pack s execPack := by
  cases hw : packedPayload s with
  | none =>
    exact ⟨.raise .nonfinite, ⟨by decide, by decide⟩, fun st v q _ =>
      execPack_of_none (s := withUnseen st v q s) hw⟩
  | some w =>
    by_cases hid : headerOk s.argId = true
    · exact ⟨.frame (builtFrame s.argId (w.extractLsb' 32 32) (w.extractLsb' 0 32)), rfl,
        fun st v q _ => (execPack_of_some (s := withUnseen st v q s) hw).trans (if_pos hid)⟩
    · exact ⟨.raise .badid, ⟨by decide, by decide⟩, fun st v q _ =>
        (execPack_of_some (s := withUnseen st v q s) hw).trans (if_neg hid)⟩

/-- SENT looks at ARGID alone. -/
theorem takesOneAction_sentFrame {i : Instr} (hi : Spec.isBuilder i = true) (b : Byte) (s : State) :
    TakesOneAction i s (sentFrame b) := by
  have hown : Err.badid ∈ Spec.ownErrors i := by revert hi; cases i <;> decide
  by_cases hid : headerOk s.argId = true
  · exact ⟨.frame (builtFrame s.argId 0xFFFFFFFF (0xFFFFFF#24 ++ b)), hi, fun _ _ _ _ => if_pos hid⟩
  · exact ⟨.raise .badid, ⟨hown, by decide⟩, fun _ _ _ _ => if_neg hid⟩

/-- UNPACK looks at its frame alone. -/
theorem takesOneAction_unpackFrame {i : Instr} (hi : Spec.isUnpack i = true) (f : FrameRegs)
    (s : State) : TakesOneAction i s (unpackFrame f) := by
  have hown : Err.length ∈ Spec.ownErrors i := by revert hi; cases i <;> decide
  by_cases hlen : f.len ≠ 8
  · exact ⟨.raise .length, ⟨hown, by decide⟩, fun _ _ _ _ => if_pos hlen⟩
  · exact ⟨.telemetry (telemetryOf f.d0 f.d1), hi, fun _ _ _ _ => if_neg hlen⟩

/-- QUANT's fixed forms look at ARG0 alone. -/
theorem takesOneAction_quantFixed {i : Instr} (hi : Spec.isQuant i = true) (n : RangeName)
    (s : State) : TakesOneAction i s (quantFixed n) :=
  takesOneAction_quantInto hi (value s.arg0) (rangeOf n) s

/-- DEQUANT's fixed forms look at ARG0 alone. -/
theorem takesOneAction_dequantFixed {i : Instr} (hi : Spec.isDequant i = true) (n : RangeName)
    (s : State) : TakesOneAction i s (dequantFixed n) :=
  takesOneAction_dequantInto hi (rangeOf n) s

/-- RDSLOT looks at its slot alone. -/
theorem takesOneAction_readSlot {i : Instr} (hi : Spec.isLookup i = true) (k : BitVec 2) (s : State) :
    TakesOneAction i s (readSlot k) :=
  ⟨.lookup (if (s.slots.get k).valid then some (s.slots.get k) else none), hi, fun _ _ _ _ => rfl⟩

/-- FIND looks at the slots and ARGID. -/
theorem takesOneAction_find (s : State) : TakesOneAction .find s execFind :=
  ⟨.lookup (firstMatch s.slots s.argId.id), rfl, fun _ _ _ _ => rfl⟩

/-- ONSLOT looks at its slot and NOW. -/
theorem takesOneAction_slotOnline {i : Instr} (hi : Spec.isLiveness i = true) (k : BitVec 2)
    (s : State) : TakesOneAction i s (slotOnline k) :=
  ⟨.online (within s.now (s.slots.get k) defaultTimeout), hi, fun _ _ _ hv => by rw [hv hi]; rfl⟩

/-- ONID looks at the slots, ARGID, ARGTMO and NOW. -/
theorem takesOneAction_onid (s : State) : TakesOneAction .onid s execOnid :=
  ⟨.online (anyOnline s.now s.slots s.argId.id s.argTmo), rfl, fun _ _ _ hv => by rw [hv rfl]; rfl⟩

/-- Every command but POLL takes one action: its choices look at the operands and the slots, and at NOW
if it is a liveness command. -/
theorem takesOneAction_exec {i : Instr} (hi : i ≠ .poll) (s : State) :
    TakesOneAction i s (exec i) := by
  cases i with
  | nop => exact ⟨.done, rfl, fun _ _ _ _ => rfl⟩
  | quantPos => exact (takesOneAction_quantFixed rfl .pos s).of_eq fun _ _ _ => rfl
  | quantVel => exact (takesOneAction_quantFixed rfl .vel s).of_eq fun _ _ _ => rfl
  | quantKp => exact (takesOneAction_quantFixed rfl .kp s).of_eq fun _ _ _ => rfl
  | quantKd => exact (takesOneAction_quantFixed rfl .kd s).of_eq fun _ _ _ => rfl
  | quantTor => exact (takesOneAction_quantFixed rfl .tor s).of_eq fun _ _ _ => rfl
  | quantGen => exact (takesOneAction_quantGen s).of_eq fun _ _ _ => rfl
  | dequantPos => exact (takesOneAction_dequantFixed rfl .pos s).of_eq fun _ _ _ => rfl
  | dequantVel => exact (takesOneAction_dequantFixed rfl .vel s).of_eq fun _ _ _ => rfl
  | dequantKp => exact (takesOneAction_dequantFixed rfl .kp s).of_eq fun _ _ _ => rfl
  | dequantKd => exact (takesOneAction_dequantFixed rfl .kd s).of_eq fun _ _ _ => rfl
  | dequantTor => exact (takesOneAction_dequantFixed rfl .tor s).of_eq fun _ _ _ => rfl
  | dequantGen => exact (takesOneAction_dequantGen s).of_eq fun _ _ _ => rfl
  | pack => exact (takesOneAction_pack s).of_eq fun _ _ _ => rfl
  | sentEnter => exact (takesOneAction_sentFrame rfl 0xFC s).of_eq fun _ _ _ => rfl
  | sentStop => exact (takesOneAction_sentFrame rfl 0xFD s).of_eq fun _ _ _ => rfl
  | sentRezero => exact (takesOneAction_sentFrame rfl 0xFE s).of_eq fun _ _ _ => rfl
  | unpackIf => exact (takesOneAction_unpackFrame rfl s.inFrame s).of_eq fun _ _ _ => rfl
  | unpackOf => exact (takesOneAction_unpackFrame rfl s.outFrame s).of_eq fun _ _ _ => rfl
  | poll => exact absurd rfl hi
  | rdslot0 => exact (takesOneAction_readSlot rfl 0 s).of_eq fun _ _ _ => rfl
  | rdslot1 => exact (takesOneAction_readSlot rfl 1 s).of_eq fun _ _ _ => rfl
  | rdslot2 => exact (takesOneAction_readSlot rfl 2 s).of_eq fun _ _ _ => rfl
  | rdslot3 => exact (takesOneAction_readSlot rfl 3 s).of_eq fun _ _ _ => rfl
  | find => exact (takesOneAction_find s).of_eq fun _ _ _ => rfl
  | onslot0 => exact (takesOneAction_slotOnline rfl 0 s).of_eq fun _ _ _ => rfl
  | onslot1 => exact (takesOneAction_slotOnline rfl 1 s).of_eq fun _ _ _ => rfl
  | onslot2 => exact (takesOneAction_slotOnline rfl 2 s).of_eq fun _ _ _ => rfl
  | onslot3 => exact (takesOneAction_slotOnline rfl 3 s).of_eq fun _ _ _ => rfl
  | onid => exact (takesOneAction_onid s).of_eq fun _ _ _ => rfl

/-- An action passes the RX port and NOW through. -/
theorem Action.apply_rx (a : Action) (q : List (Option Frame)) (s : State) :
    a.apply { s with rx := q } = Spec.mapNext (fun t => { t with rx := q }) (a.apply s) := by
  cases a with
  | lookup x => cases x <;> rfl
  | _ => rfl

theorem Action.apply_now (a : Action) (v : Word) (s : State) :
    a.apply { s with now := v } = Spec.mapNext (fun t => { t with now := v }) (a.apply s) := by
  cases a with
  | lookup x => cases x <;> rfl
  | _ => rfl

/-- Settles O44: the command takes the same action from both states, and an action passes the port
through. -/
theorem otherCommandsDoNotSeeTheTimeOrTheTransport :
    Obligations.OtherCommandsDoNotSeeTheTimeOrTheTransport := by
  intro i s v q hi
  obtain ⟨a, -, ha⟩ := takesOneAction_exec hi s
  have hs : exec i s = a.apply s := ha s.status s.now s.rx fun _ => rfl
  constructor
  · calc exec i { s with rx := q } = a.apply { s with rx := q } := ha s.status s.now q fun _ => rfl
      _ = _ := by rw [a.apply_rx, hs]
  · intro hl
    calc exec i { s with now := v } = a.apply { s with now := v } :=
          ha s.status v s.rx (of_true_of_false · hl)
      _ = _ := by rw [a.apply_now, hs]

/-- STATUS after command i from flags st, when from other flags it ended with u: the flags that i
writes are those of u, the others those of st (R52). -/
def statusFrom (i : Instr) (st u : Status) : Status where
  err := u.err
  found := if Spec.isLookup i then u.found else st.found
  online := if Spec.isLiveness i then u.online else st.online
  pcount := if i = .poll then u.pcount else st.pcount
  sticky := if u.err = .none then st.sticky else true
  telv := if Spec.isUnpack i ∧ u.err = .none then true else st.telv

/-- Commands that raise errors, or write no flag, are none of the groups that write one. -/
theorem not_lookup_of_ownError {i : Instr} {e : Err} (h : e ∈ Spec.ownErrors i) :
    Spec.isLookup i = false ∧ Spec.isLiveness i = false ∧ i ≠ .poll := by
  revert e; cases i <;> decide

theorem no_flag_of_result {i : Instr}
    (h : i = .nop ∨ Spec.isQuant i = true ∨ Spec.isDequant i = true ∨ Spec.isBuilder i = true) :
    Spec.isLookup i = false ∧ Spec.isLiveness i = false ∧ Spec.isUnpack i = false ∧ i ≠ .poll := by
  revert h; cases i <;> decide

/-- The three groups that write a flag have no command in common. -/
theorem flag_groups_disjoint {i : Instr} :
    (Spec.isUnpack i = true → Spec.isLookup i = false ∧ Spec.isLiveness i = false ∧ i ≠ .poll) ∧
    (Spec.isLookup i = true → Spec.isUnpack i = false ∧ Spec.isLiveness i = false ∧ i ≠ .poll) ∧
    (Spec.isLiveness i = true → Spec.isUnpack i = false ∧ Spec.isLookup i = false ∧ i ≠ .poll) := by
  cases i <;> decide

/-- An action of a command writes the command's flags, and keeps the others. -/
theorem Action.apply_status {a : Action} {i : Instr} (h : a.Fits i) (s : State) (st : Status) :
    ∃ t, a.apply s = .next t ∧
      a.apply { s with status := st } = .next { t with status := statusFrom i st t.status } := by
  cases a with
  | raise e =>
    obtain ⟨hown, hne⟩ := h
    obtain ⟨hl, ho, hp⟩ := not_lookup_of_ownError hown
    exact ⟨_, rfl, by simp [apply, statusFrom, hl, ho, hp, hne, State.setErr]⟩
  | done =>
    obtain ⟨hl, ho, hu, hp⟩ := no_flag_of_result (.inl h)
    exact ⟨_, rfl, by simp [apply, statusFrom, hl, ho, hu, hp, State.clearErr]⟩
  | code c =>
    obtain ⟨hl, ho, hu, hp⟩ := no_flag_of_result (.inr (.inl h))
    exact ⟨_, rfl, by simp [apply, statusFrom, hl, ho, hu, hp, State.clearErr, State.setQres]⟩
  | word w =>
    obtain ⟨hl, ho, hu, hp⟩ := no_flag_of_result (.inr (.inr (.inl h)))
    exact ⟨_, rfl, by simp [apply, statusFrom, hl, ho, hu, hp, State.clearErr, State.setDres]⟩
  | frame f =>
    obtain ⟨hl, ho, hu, hp⟩ := no_flag_of_result (.inr (.inr (.inr h)))
    exact ⟨_, rfl, by simp [apply, statusFrom, hl, ho, hu, hp, State.clearErr, State.setOut]⟩
  | telemetry x =>
    have hu : Spec.isUnpack i = true := h
    obtain ⟨hl, ho, hp⟩ := flag_groups_disjoint.1 h
    exact ⟨_, rfl, by
      simp [apply, statusFrom, hl, ho, hu, hp, State.clearErr, State.setTelv, State.setTel]⟩
  | lookup x =>
    have hl : Spec.isLookup i = true := h
    obtain ⟨hu, ho, hp⟩ := flag_groups_disjoint.2.1 h
    cases x <;> exact ⟨_, rfl, by
      simp [apply, statusFrom, hl, ho, hu, hp, lookupResult, State.clearErr, State.setFound,
        State.setTsres, State.setOut]⟩
  | online b =>
    have ho : Spec.isLiveness i = true := h
    obtain ⟨hu, hl, hp⟩ := flag_groups_disjoint.2.2 h
    exact ⟨_, rfl, by simp [apply, statusFrom, hl, ho, hu, hp, State.clearErr, State.setOnline]⟩

/-- Storing frames looks at no flag. -/
theorem storeAll_withStatus (t : Word) (n : ℕ) (fs : List Frame) (s : State) (st : Status) :
    storeAll t n fs { s with status := st } = { storeAll t n fs s with status := st } := by
  induction fs generalizing n s with
  | nil => rfl
  | cons f fs ih => exact ih (n + 1) (storeFrame t n f s)

/-- POLL reads no flag. -/
theorem exec_poll_status (s : State) (st : Status) :
    ∃ t, exec .poll s = .next t ∧ exec .poll { s with status := st }
      = .next { t with status := statusFrom .poll st t.status } := by
  refine ⟨_, exec_poll_eq s, ?_⟩
  rw [exec_poll_eq]
  simp only [storeAll_withStatus]
  rfl

/-- Settles O43: the command takes the same action from both states, and an action looks at no flag. -/
theorem noCommandReadsAFlag : Obligations.NoCommandReadsAFlag := by
  intro i s st
  by_cases hi : i = .poll
  · subst hi
    exact exec_poll_status s st
  · obtain ⟨a, hfits, ha⟩ := takesOneAction_exec hi s
    obtain ⟨t, hs, hst⟩ := Action.apply_status hfits s st
    exact ⟨t, (ha s.status s.now s.rx fun _ => rfl).trans hs,
      (ha st s.now s.rx fun _ => rfl).trans hst⟩

end Sys2Proof.Proofs
end

section
/-! The statements of 40_quantizer.md about codes and round trips (R143, R147, R148), and the round
trip of 41_packer.md (R192). -/

namespace Sys2Proof.Proofs

open Sys2Proof Sys2Proof.Machine

/-! ### Codes (R143) -/

/-- QUANT of a value in a legal range completes with the code of R142 in QRES, in all six forms. -/
theorem exists_exec_quantForm {r : QuantOperand} {s : State} {mn mx : ℚ} {b : ℕ}
    (h : Spec.QuantRange r s mn mx b) (hfin : Spec.IsFinite s.arg0) (hmin : mn ≤ Spec.val s.arg0)
    (hmax : Spec.val s.arg0 ≤ mx) :
    ∃ t, exec (Spec.quantForm r) s = .next t ∧ t.status.err = .none ∧
      (t.qres.toNat : ℤ) = Spec.quantize (Spec.val s.arg0) mn mx b := by
  obtain ⟨⟨-, -, -, hcode⟩, hlt, hb⟩ := quantForm_spec h
  obtain ⟨hlow, hhigh⟩ := quantize_bounds (b := b) hmin hmax hlt
  exact ⟨_, hcode hfin hmin hmax, rfl, ofInt16_toNat hlow (by omega) hhigh⟩

/-- Settles O18: the code is R142's, which is bounded, exact at the ends and monotone over the
rationals. -/
theorem quantCodesFitAndAreMonotone : Obligations.QuantCodesFitAndAreMonotone := by
  intro r s mn mx b h hfin hmin hmax
  obtain ⟨t, hexec, herr, hqres⟩ := exists_exec_quantForm h hfin hmin hmax
  obtain ⟨-, hlt, -⟩ := quantForm_spec h
  have hpow := two_pow_sub b
  refine ⟨t, hexec, herr, ?_, fun hv => ?_, fun hv => ?_, fun s' t' h' hfin' hle hmax' hexec' => ?_⟩
  · have hfits := (quantize_bounds (b := b) hmin hmax hlt).2
    omega
  · rw [hv, quantize_min] at hqres
    exact_mod_cast hqres
  · rw [hv, quantize_max hlt] at hqres
    omega
  · obtain ⟨u, hu, -, hqres'⟩ := exists_exec_quantForm h' hfin' (hmin.trans hle) hmax'
    obtain rfl : u = t' := by rw [hu] at hexec'; cases hexec'; rfl
    have hmono := quantize_mono (b := b) hle hlt
    omega

/-! ### DEQUANT stays in its range (R148) -/

/-- A word whose reading is a number is finite, and the number is its value (R11). -/
theorem isFinite_of_value {w : Word} {n : ℤ} (h : value w = .fin n) :
    Spec.IsFinite w ∧ finiteVal w = n := by
  have hfin : Spec.IsFinite w := by
    intro he
    rw [value, expField_eq, if_pos he] at h
    split at h
    · cases h
    · split at h <;> cases h
  rw [value_of_isFinite hfin] at h
  cases h
  exact ⟨hfin, rfl⟩

/-- The word DEQUANT writes is finite and lies between the bounds, when they are finite words. -/
theorem dequantizeWord_between {r : QRange} {c : ℕ} {lo hi : Word} (hlo : value lo = .fin r.min)
    (hhi : value hi = .fin r.max) (hlt : r.min < r.max) (hc : c ≤ r.width.maxCode) :
    Spec.IsFinite (dequantizeWord c r) ∧ Spec.val lo ≤ Spec.val (dequantizeWord c r) ∧
      Spec.val (dequantizeWord c r) ≤ Spec.val hi := by
  obtain ⟨flo, hmin⟩ := isFinite_of_value hlo
  obtain ⟨fhi, hmax⟩ := isFinite_of_value hhi
  have hrne := dequantizeWord_spec c r hc
    (by rw [← hmin, finiteVal_natAbs]; exact magnitude_le flo)
    (by rw [← hmax, finiteVal_natAbs]; exact magnitude_le fhi)
  have hmem := dequantize_between (lt_div_units.2 hlt) (by cases r.width <;> decide) hc
  rw [← hmin, ← hmax, ← val_eq, ← val_eq] at hrne hmem
  exact ⟨hrne.1, rne_between hrne flo fhi rfl rfl hmem.1 hmem.2⟩

/-- The bounds of a fixed range are readings of words. -/
theorem value_minWord (n : RangeName) : value (Spec.minWord n) = .fin (rangeOf n).min := by
  cases n <;> decide

theorem value_maxWord (n : RangeName) : value (Spec.maxWord n) = .fin (rangeOf n).max := by
  cases n <;> decide

/-- Settles O20: a DEQUANT without an error wrote the rounded value of a code that fits, between two
finite bounds. -/
theorem dequantizedWordsLieInTheirRange : Obligations.DequantizedWordsLieInTheirRange := by
  refine ⟨fun n s t h herr => ?_, fun s t h herr => ?_⟩
  · rw [exec_dequantInstr] at h
    rw [← (minWord_val n).2, ← (maxWord_val n).2]
    obtain hraised | ⟨hc, hdone⟩ := dequantFixed_cases n s
    · rw [hraised] at h
      cases h
      cases herr
    · rw [hdone] at h
      cases h
      exact dequantizeWord_between (value_minWord n) (value_maxWord n) (range_lt n) hc
  · obtain ⟨e, he, hraised⟩ | ⟨r, hr, hc, hdone⟩ := execDequantGen_cases s
    · rw [exec, hraised] at h
      cases h
      obtain rfl : e = .none := herr
      exact absurd he (by decide)
    · rw [exec, hdone] at h
      cases h
      obtain ⟨hmin, hmax, -, hlt⟩ := generalRange_ok hr
      exact dequantizeWord_between hmin hmax hlt hc

/-! ### Round trips (R147) -/

/-- The distance of a code's value from v, in steps of the range, is that of the code from Qexact. -/
theorem dequantize_sub {mn mx : ℚ} {b : ℕ} (hlt : mn < mx) (hb : 0 < b) (c : ℕ) (v : ℚ) :
    Spec.dequantize c mn mx b - v = (c - Spec.qexact v mn mx b) * ((mx - mn) / (2 ^ b - 1)) := by
  have hspan : mx - mn ≠ 0 := (sub_pos.2 hlt).ne'
  have hcodes : (2 : ℚ) ^ b - 1 ≠ 0 := (sub_pos.2 (one_lt_pow₀ one_lt_two hb.ne')).ne'
  rw [Spec.dequantize, Spec.qexact]
  field_simp
  ring

/-- The distance of two codes' values is positive. -/
theorem stepSize_pos {mn mx : ℚ} {b : ℕ} (hlt : mn < mx) (hb : 0 < b) : 0 < (mx - mn) / (2 ^ b - 1) :=
  div_pos (sub_pos.2 hlt) (sub_pos.2 (one_lt_pow₀ one_lt_two hb.ne'))

theorem half_stepSize_eq (mn mx : ℚ) (b : ℕ) :
    (mx - mn) / (2 * (2 ^ b - 1)) = 1 / 2 * ((mx - mn) / (2 ^ b - 1)) := by
  rw [mul_comm 2, ← div_div]
  ring

/-- The code of a value dequantizes exactly to within half a step of it (R147). -/
theorem dequantize_near {v mn mx : ℚ} {b c : ℕ} (hlt : mn < mx) (hb : 0 < b)
    (hc : (c : ℤ) = Spec.quantize v mn mx b) :
    |Spec.dequantize c mn mx b - v| ≤ (mx - mn) / (2 * (2 ^ b - 1)) := by
  have hround : |(c : ℚ) - Spec.qexact v mn mx b| ≤ 1 / 2 := by
    obtain ⟨hlow, hhigh⟩ := Int.floor_eq_iff.1 hc.symm
    push_cast at hlow hhigh
    rw [abs_le]
    constructor <;> linarith
  rw [dequantize_sub hlt hb, half_stepSize_eq, abs_mul, abs_of_pos (stepSize_pos hlt hb)]
  exact mul_le_mul_of_nonneg_right hround (stepSize_pos hlt hb).le

/-- A value nearer than half a step to a code's value has that code (R147). -/
theorem quantize_of_near {v mn mx : ℚ} {b c : ℕ} (hlt : mn < mx) (hb : 0 < b)
    (h : |Spec.dequantize c mn mx b - v| < (mx - mn) / (2 * (2 ^ b - 1))) :
    Spec.quantize v mn mx b = c := by
  rw [dequantize_sub hlt hb, half_stepSize_eq, abs_mul, abs_of_pos (stepSize_pos hlt hb)] at h
  obtain ⟨hlow, hhigh⟩ := abs_lt.1 (lt_of_mul_lt_mul_right h (stepSize_pos hlt hb).le)
  rw [Spec.quantize, Int.floor_eq_iff]
  push_cast
  constructor <;> linarith

/-- Settles O21: QRES is the code of R142, which is within half a step, and the code of a code's exact
value is that code. -/
theorem quantRoundTripWithinHalfAStep : Obligations.QuantRoundTripWithinHalfAStep := by
  intro r s mn mx b h hfin hmin hmax
  obtain ⟨t, hexec, -, hqres⟩ := exists_exec_quantForm h hfin hmin hmax
  obtain ⟨-, hlt, hbits⟩ := quantForm_spec h
  have hb : 0 < b := by omega
  refine ⟨t, hexec, dequantize_near hlt hb hqres, fun c _ hv => ?_⟩
  have hcode : Spec.quantize (Spec.val s.arg0) mn mx b = c := by
    refine quantize_of_near hlt hb ?_
    rw [hv, sub_self, abs_zero, half_stepSize_eq]
    exact mul_pos one_half_pos (stepSize_pos hlt hb)
  rw [hcode] at hqres
  exact_mod_cast hqres

/-! ### The rounding error of DEQUANT (R148) -/

/-- A number up to 2^23 times a power of 2 has a binary32 significand and step. -/
theorem exists_significand {a : ℕ} (k : ℕ) (ha : a ≤ 2 ^ 23) :
    ∃ sh m, sh ≤ k ∧ m < 2 ^ 24 ∧ (sh = 0 ∨ 2 ^ 23 ≤ m) ∧ a * 2 ^ k = m * 2 ^ sh := by
  obtain ⟨hlt, hge⟩ := gridStep_spec (a * 2 ^ k)
  generalize gridStep (a * 2 ^ k) = sh at hlt hge
  have hsh : sh ≤ k := by
    obtain h0 | h0 := hge
    · omega
    · have hpow : 2 ^ (23 + sh) ≤ 2 ^ (23 + k) := by
        rw [pow_add 2 23 k]
        exact h0.trans (Nat.mul_le_mul_right _ ha)
      have := (Nat.pow_le_pow_iff_right one_lt_two).1 hpow
      omega
  have hm : a * 2 ^ k = a * 2 ^ (k - sh) * 2 ^ sh := by
    rw [mul_assoc, ← pow_add, Nat.sub_add_cancel hsh]
  rw [hm, pow_add] at hlt
  rw [hm, pow_add] at hge
  have hpos : 0 < 2 ^ sh := by positivity
  exact ⟨sh, _, hsh, lt_of_mul_lt_mul_right hlt hpos.le,
    hge.imp_right (le_of_mul_le_mul_right · hpos), hm⟩

/-- A significand and a step make a finite word, of either sign (R11). -/
theorem exists_word_of_significand (neg : Bool) {sh m : ℕ} (hsh : sh ≤ 252) (hm : m < 2 ^ 24)
    (hnormal : sh = 0 ∨ 2 ^ 23 ≤ m) :
    ∃ w, Spec.IsFinite w ∧ finiteVal w = if neg then -(m * 2 ^ sh : ℤ) else (m * 2 ^ sh : ℤ) := by
  obtain ⟨hmag, -⟩ := step_fields sh m hm.le hnormal _ rfl
  obtain ⟨w, hw⟩ : ∃ w : Word, w = (if neg then 0x80000000#32 else 0#32)
    ||| BitVec.ofNat 32 (sh * 2 ^ 23 + m) := ⟨_, rfl⟩
  obtain ⟨hsign, hexp, hfrac⟩ := signed_word_fields neg (sh * 2 ^ 23 + m) (by omega) w hw
  refine ⟨w, ?_, ?_⟩
  · rw [Spec.IsFinite, hexp]
    omega
  · rw [finiteVal, signBit_eq, hsign, magnitude, expField_eq, fracField_eq, hexp, hfrac, hmag]
    cases neg <;> simp

/-- Every multiple of 2^-14 up to 2^9 is the value of a finite word. -/
theorem exists_word_of_grid {n : ℤ} (hn : n.natAbs ≤ 2 ^ 23) :
    ∃ w, Spec.IsFinite w ∧ Spec.val w * 2 ^ 14 = n := by
  obtain ⟨sh, m, hsh, hm, hnormal, heq⟩ := exists_significand 135 hn
  obtain ⟨w, hfin, hval⟩ := exists_word_of_significand (decide (n < 0)) (by omega) hm hnormal
  have hunits : finiteVal w = n * 2 ^ 135 := by
    have heq' : (n.natAbs * 2 ^ 135 : ℤ) = m * 2 ^ sh := by exact_mod_cast heq
    rw [hval, ← heq']
    split
    · next h =>
      rw [Int.ofNat_natAbs_of_nonpos (of_decide_eq_true h).le]
      ring
    · next h => rw [Int.natAbs_of_nonneg (not_lt.1 fun h0 => h (decide_eq_true h0))]
  refine ⟨w, hfin, ?_⟩
  rw [val_eq, hunits]
  push_cast
  ring

/-- Below 2^9 the rounding error is at most 2^-14. -/
theorem rne_near {q : ℚ} {w : Word} (h : Spec.Rne32 q w) (hq : |q| ≤ 2 ^ 9) :
    |Spec.val w - q| ≤ 1 / 2 ^ 14 := by
  obtain ⟨hlow, hhigh⟩ := abs_le.1 hq
  have hfloor := Int.floor_le (q * 2 ^ 14)
  have hnext := Int.lt_floor_add_one (q * 2 ^ 14)
  have hgrid : (⌊q * 2 ^ 14⌋).natAbs ≤ 2 ^ 23 := by
    have h1 : -2 ^ 23 ≤ ⌊q * 2 ^ 14⌋ := Int.le_floor.2 (by push_cast; linarith)
    have h2 : (⌊q * 2 ^ 14⌋ : ℚ) ≤ (2 ^ 23 : ℤ) := by push_cast; linarith
    have h3 : ⌊q * 2 ^ 14⌋ ≤ 2 ^ 23 := by exact_mod_cast h2
    omega
  obtain ⟨w', hfin, hval⟩ := exists_word_of_grid hgrid
  calc |Spec.val w - q| ≤ |Spec.val w' - q| := h.2.1 w' hfin
    _ ≤ 1 / 2 ^ 14 := by
      rw [abs_le]
      constructor <;> linarith

/-- On every fixed range the values are at most 2^9, and half a step is more than that error. -/
theorem range_coarse (n : RangeName) :
    -2 ^ 9 ≤ Spec.rangeMin n ∧ Spec.rangeMax n ≤ 2 ^ 9 ∧
      1 / 2 ^ 14 < (Spec.rangeMax n - Spec.rangeMin n) / (2 * (2 ^ Spec.rangeBits n - 1)) := by
  cases n <;> norm_num [Spec.rangeMin, Spec.rangeMax, Spec.rangeBits]

/-- QUANT gives the code of a rounded value back (R147, R148). -/
theorem quantize_of_rne {n : RangeName} {c : ℕ} {w : Word} (hc : c ≤ 2 ^ Spec.rangeBits n - 1)
    (h : Spec.Rne32 (Spec.dequantize c (Spec.rangeMin n) (Spec.rangeMax n) (Spec.rangeBits n)) w) :
    Spec.quantize (Spec.val w) (Spec.rangeMin n) (Spec.rangeMax n) (Spec.rangeBits n) = c := by
  obtain ⟨hb, -⟩ := rangeBits_le n
  obtain ⟨hmin, hmax, hstep⟩ := range_coarse n
  obtain ⟨hlow, hhigh⟩ := dequantize_between (range_ltq n) hb hc
  refine quantize_of_near (range_ltq n) hb (lt_of_le_of_lt ?_ hstep)
  rw [abs_sub_comm]
  exact rne_near h (abs_le.2 ⟨hmin.trans hlow, hhigh.trans hmax⟩)

/-- Settles O22: the rounding error of DEQUANT on a fixed range is less than half a step. -/
theorem dequantThenQuantGivesTheCodeBack : Obligations.DequantThenQuantGivesTheCodeBack := by
  intro n s hc
  obtain ⟨w, hrne, hdequant⟩ := (dequantFixed_spec n s).2 hc
  rw [← exec_dequantInstr] at hdequant
  obtain ⟨hlow, hhigh⟩ := dequantize_between (range_ltq n) (rangeBits_le n).1 hc
  obtain ⟨hmin, hmax⟩ := rne_between hrne (minWord_val n).1 (maxWord_val n).1 (minWord_val n).2
    (maxWord_val n).2 hlow hhigh
  obtain ⟨u, hquant, herr, hqres⟩ := exists_exec_quantForm (r := .range n)
    (s := { Spec.completed { s with dres := w } with arg0 := w }) ⟨rfl, rfl, rfl⟩ hrne.1 hmin hmax
  refine ⟨_, u, hdequant, hquant, ?_, herr⟩
  have hcode := hqres.trans (quantize_of_rne hc hrne)
  exact_mod_cast hcode

/-! ### PACK and then UNPACK (R192) -/

/-- A value in range is its own clamp (R153). -/
theorem packValue_of_mem {n : RangeName} {s : State} (hfin : Spec.IsFinite (Spec.packInput n s))
    (hmin : Spec.rangeMin n ≤ Spec.val (Spec.packInput n s))
    (hmax : Spec.val (Spec.packInput n s) ≤ Spec.rangeMax n) :
    Spec.packValue n s = Spec.val (Spec.packInput n s) := by
  rw [Spec.packValue, clampWord_of_isFinite hfin, if_neg hmin.not_gt, if_neg hmax.not_gt]

/-- UNPACK finds PACK's position, velocity and torque codes in W (R181, R190). -/
theorem statusCodes_packWord (s : State) :
    Spec.statusCodes (BitVec.ofNat 32 (Spec.packWord s / 2 ^ 32)) (BitVec.ofNat 32 (Spec.packWord s))
      = (Spec.packCode .pos s, Spec.packCode .vel s, Spec.packCode .tor s) := by
  have hcodes := packCodes_lt s
  simp only [Spec.statusCodes, BitVec.toNat_ofNat, Spec.packWord, Prod.mk.injEq]
  omega

/-- The kp and kd codes stand in W[35:24] and W[23:12] (R181). -/
theorem gainCodes_packWord (s : State) :
    (BitVec.ofNat 32 (Spec.packWord s / 2 ^ 32)).toNat % 2 ^ 4 * 2 ^ 8
        + (BitVec.ofNat 32 (Spec.packWord s)).toNat / 2 ^ 24 = Spec.packCode .kp s ∧
      (BitVec.ofNat 32 (Spec.packWord s)).toNat / 2 ^ 12 % 2 ^ 12 = Spec.packCode .kd s := by
  have hcodes := packCodes_lt s
  simp only [BitVec.toNat_ofNat, Spec.packWord]
  omega

/-- A code of PACK dequantizes to within half a step of its input in range (R147, R182). -/
theorem dequantize_packCode_near {n : RangeName} {s : State}
    (h : Spec.IsFinite (Spec.packInput n s) ∧ Spec.rangeMin n ≤ Spec.val (Spec.packInput n s) ∧
      Spec.val (Spec.packInput n s) ≤ Spec.rangeMax n) :
    |Spec.dequantize (Spec.packCode n s) (Spec.rangeMin n) (Spec.rangeMax n) (Spec.rangeBits n)
        - Spec.val (Spec.packInput n s)|
      ≤ (Spec.rangeMax n - Spec.rangeMin n) / (2 * (2 ^ Spec.rangeBits n - 1)) := by
  obtain ⟨hfin, hmin, hmax⟩ := h
  have hcode := (packCode_eq n s).1
  rw [packValue_of_mem hfin hmin hmax] at hcode
  exact dequantize_near (range_ltq n) (rangeBits_le n).1 hcode

/-- Settles O29: UNPACK reads the codes that PACK wrote, and each is within half a step of its input. -/
theorem packThenUnpackRoundTrip : Obligations.PackThenUnpackRoundTrip := by
  intro s hnan hid hrange
  obtain ⟨x, y, z, hx, hy, hz, hunpack⟩ := (unpackFrame_spec
    (Spec.outgoing s (BitVec.ofNat 32 (Spec.packWord s / 2 ^ 32)) (BitVec.ofNat 32 (Spec.packWord s)))
    (Spec.completed { s with
      outFrame := Spec.outgoing s (BitVec.ofNat 32 (Spec.packWord s / 2 ^ 32))
        (BitVec.ofNat 32 (Spec.packWord s)) })).2 rfl
  obtain ⟨hp, hv, -, -, ht⟩ := packCodes_lt s
  simp only [Spec.outgoing, statusCodes_packWord] at hx hy hz hunpack
  refine ⟨_, _, exec_pack_of_legal hnan hid, hunpack, ?_, ?_, ?_, ?_, gainCodes_packWord s⟩
  · exact Nat.mod_eq_of_lt hp
  · exact Nat.mod_eq_of_lt hv
  · exact Nat.mod_eq_of_lt ht
  · intro p hp
    simp only [List.mem_cons, List.not_mem_nil, or_false] at hp
    obtain rfl | rfl | rfl := hp
    · exact ⟨_, hx, dequantize_packCode_near (hrange .pos (by decide))⟩
    · exact ⟨_, hy, dequantize_packCode_near (hrange .vel (by decide))⟩
    · exact ⟨_, hz, dequantize_packCode_near (hrange .tor (by decide))⟩

end Sys2Proof.Proofs
end

section
/-! The statement of 30_encoding.md about the pseudo-instructions (R119): the steps of their lines. -/

namespace Sys2Proof.Proofs

open Sys2Proof Sys2Proof.Machine

/-- The lines of `setcmd`: five operand writes, ARGID, and PACK. -/
theorem steps_setcmd {s : State} {p v kp kd t id : Word} {rest : List Event}
    (h : s.pending = pseudoSetcmd s.params p v kp kd t id ++ rest) :
    Spec.steps 7 s = exec .pack { s with
      arg0 := p, arg1 := v, arg2 := kp, arg3 := kd, arg4 := t, argId := Spec.argIdOf id
      cmd := 0x30000000, pending := rest, resp := .accepted } := by
  -- each line's state is made one record before the next, or the records nest in every field
  rw [steps_wr 6 .arg0 p s _ h rfl]; dsimp only
  rw [steps_wr 5 .arg1 v _ _ rfl rfl]; dsimp only
  rw [steps_wr 4 .arg2 kp _ _ rfl rfl]; dsimp only
  rw [steps_wr 3 .arg3 kd _ _ rfl rfl]; dsimp only
  rw [steps_wr 2 .arg4 t _ _ rfl rfl]; dsimp only
  rw [steps_wr 1 .argId id _ _ rfl rfl]; dsimp only
  rw [steps_one, step_cmd .pack _ rest rfl, argIdOf_eq]
  rfl

/-- The lines of `setvel`: TEL_POS is read, and the rest is `setcmd`. -/
theorem steps_setvel {s : State} {x v kd id : Word} {rest : List Event}
    (h : s.pending = pseudoSetvel s.params x v kd id ++ rest) :
    Spec.steps 1 s = .next { s with
      pending := (pseudoSetvel s.params x v kd id).tail ++ rest, resp := .data s.tel.pos } ∧
    Spec.steps 8 s = exec .pack { s with
      arg0 := x, arg1 := v, arg2 := 0, arg3 := kd, arg4 := 0, argId := Spec.argIdOf id
      cmd := 0x30000000, pending := rest, resp := .accepted } := by
  have hread : step s = .next { s with
      pending := pseudoSetcmd s.params x v 0 kd 0 id ++ rest, resp := .data s.tel.pos } :=
    step_read (r := .telPos) h
  refine ⟨(steps_one s).trans hread, ?_⟩
  rw [steps_cons 7 hread, steps_setcmd rfl]

/-- The lines of `start`, `stop` and `rezero`: ARGID, and the command. -/
theorem steps_argId_cmd {s : State} {id : Word} {i : Instr} {rest : List Event}
    (h : s.pending = [wr s.params .argId id, cmd s.params i] ++ rest) :
    Spec.steps 2 s = exec i { s with
      argId := Spec.argIdOf id, cmd := encode i, pending := rest, resp := .accepted } := by
  rw [steps_wr 1 .argId id s _ h rfl, steps_one, step_cmd i _ rest rfl, argIdOf_eq]

/-- ONLINE as ONID computes it for an identifier and 600 ms (R225, R226, R234). -/
def onlineAt600 (s : State) (id : Word) : Bool := anyOnline s.now s.slots (Spec.argIdOf id).id 600

theorem onlineAt600_iff (s : State) (id : Word) :
    onlineAt600 s id = true ↔ ∃ i : BitVec 2,
      Spec.Matches (s.slots.get i) (BitVec.ofNat 29 id.toNat) ∧ Spec.Within s.now (s.slots.get i) 600 :=
  anyOnline_iff s.now s.slots (Spec.argIdOf id).id 600

/-- Bit 5 of the STATUS word is ONLINE (R34). -/
theorem statusWord_online (s : State) : (statusWord s).toNat / 2 ^ 5 % 2 = s.status.online.toNat := by
  have hfound := Bool.toNat_lt s.status.found
  have honline := Bool.toNat_lt s.status.online
  have herr : Spec.errNumber s.status.err < 16 := by cases s.status.err <;> decide
  rw [statusWord_toNat]
  omega

/-- ONID writes ONLINE (R234). -/
theorem exec_onid_eq (s : State) :
    exec .onid s = .next (s.setOnline (anyOnline s.now s.slots s.argId.id s.argTmo)).clearErr := by
  rw [exec, execOnid, complete_eq]

/-- The lines of `isonline`: ARGID, ARGTMO, ONID, and the read of STATUS. -/
theorem steps_isonline {s : State} {id : Word} {rest : List Event}
    (h : s.pending = pseudoIsonline s.params id ++ rest) :
    Spec.steps 4 s = .next (Spec.completed { s with
      argId := Spec.argIdOf id, argTmo := 600, cmd := 0xA0000000
      status := { s.status with online := onlineAt600 s id }, pending := rest
      resp := .data (statusWord (Spec.completed { s with
        status := { s.status with online := onlineAt600 s id } })) }) := by
  rw [steps_wr 3 .argId id s _ h rfl, argIdOf_eq]; dsimp only
  rw [steps_wr 2 .argTmo 600 _ _ rfl rfl]; dsimp only
  rw [steps_cons 1 ((step_cmd .onid _ _ rfl).trans (exec_onid_eq _)), steps_one]
  rw [step_read (r := .status) rfl]
  rfl

/-- `quant r` is the same command in the host's programs and in the statements. -/
theorem quantCommand_eq (r : QuantOperand) : quantCommand r = Spec.quantForm r := by
  rcases r with (_ | _ | _ | _ | _) | _ <;> rfl

/-- The lines of `quantv`: ARG0, QUANT, and the read of QRES. -/
theorem steps_quantv {s : State} {r : QuantOperand} {x : Word} {rest : List Event}
    (h : s.pending = pseudoQuantv s.params r x ++ rest) :
    ∃ u, exec (Spec.quantForm r)
      { s with arg0 := x, cmd := encode (Spec.quantForm r), resp := .accepted } = .next u ∧
      Spec.steps 3 s = .next { u with pending := rest, resp := .data (0#16 ++ u.qres) } := by
  obtain ⟨u, hu, he⟩ := exec_effect (Spec.quantForm r)
    { s with arg0 := x, cmd := encode (Spec.quantForm r), resp := .accepted }
  obtain ⟨hparams, -, -⟩ := ports_of_effect he
  rw [pseudoQuantv, quantCommand_eq] at h
  have hwrite : Spec.steps 3 s = Spec.steps 2 { s with
      arg0 := x, pending := [cmd s.params (Spec.quantForm r), rd s.params .qres] ++ rest
      resp := .accepted } := steps_wr 2 .arg0 x s _ h rfl
  have hrun : step { s with
      arg0 := x, pending := [cmd s.params (Spec.quantForm r), rd s.params .qres] ++ rest
      resp := .accepted } = .next { u with pending := rd s.params .qres :: rest } := by
    rw [step_cmd (Spec.quantForm r) _ _ rfl]
    exact (quantForm_pending r { s with
      arg0 := x, cmd := encode (Spec.quantForm r), resp := .accepted } _).trans (by rw [hu]; rfl)
  have hread : step { u with pending := rd s.params .qres :: rest }
      = .next { u with pending := rest, resp := .data (0#16 ++ u.qres) } :=
    step_read (r := .qres) (by rw [hparams]; rfl)
  exact ⟨u, hu, by rw [hwrite, steps_cons 1 hrun, steps_one, hread]⟩

/-- Settles O38: each pseudo-instruction is its lines, one step a line. -/
theorem pseudoInstructionsRunTheirLines : Obligations.PseudoInstructionsRunTheirLines := by
  intro s p v kp kd t id x r rest
  refine ⟨steps_setcmd, steps_setcmd, steps_setcmd, steps_setvel, steps_argId_cmd, steps_argId_cmd,
    steps_argId_cmd, fun h => ?_, fun h => ?_, steps_quantv⟩
  · exact ⟨onlineAt600 s id, _, onlineAt600_iff s id, rfl, steps_isonline h, rfl,
      statusWord_online _⟩
  · rw [steps_one]
    exact step_writeStatus h

end Sys2Proof.Proofs
end
